-- ==== Sys2Proof/Word.lean ====
section
/-! DEFINITION. The word types of SC-CORE and the two small enumerations its commands are made of.
Bits are numbered from the least significant one (R13); every data word is 32 bits wide (R10, R60). -/

namespace Sys2Proof

/-- A bus word, a register, a command or a binary32 pattern (R10, R60, R80). -/
abbrev Word := BitVec 32

/-- One byte of the address space (R61). -/
abbrev Byte := BitVec 8

/-- A byte address of the 24-bit address space (R60). -/
abbrev BusAddr := BitVec 24

/-- The two operand buffers a transform command can name (R28, R82). -/
inductive Buf
  | x
  | y
  deriving DecidableEq, Repr

/-- The direction `d` of a transform: `+1` forward, `-1` inverse (R101). -/
inductive Dir
  | forward
  | inverse
  deriving DecidableEq, Repr

end Sys2Proof
end

