-- ==== Sys2Proof/Syntax.lean ====
section
/-! DEFINITION. The seven commands of spec/opcode_table.json (R83), one constructor a row. A transform
names its destination first and its source second (R88). -/

namespace Sys2Proof

/-- A command (R83). Reserved selectors are no operand of a command: they make the word illegal (R82). -/
inductive Instr
  /-- `NOP` (R86) -/
  | nop
  /-- `FFT.F dst, src` (R106) -/
  | fftF (dst src : Buf)
  /-- `FFT.I dst, src` (R107) -/
  | fftI (dst src : Buf)
  /-- `RFFT.F dst, src` (R118) -/
  | rfftF (dst src : Buf)
  /-- `RFFT.I dst, src` (R119) -/
  | rfftI (dst src : Buf)
  /-- `BLOCK` (R144) -/
  | block
  /-- `BLOCKV` (R145) -/
  | blockv
  deriving DecidableEq, Repr

end Sys2Proof
end

