-- ==== Sys2Proof/WellFormed.lean ====
section
/-! DEFINITION. The fields of a command word (R81) and the check on them that R85 states in words: which
field makes a word illegal. -/

namespace Sys2Proof

/-- The fields of a command word, from the most significant: bits 31:24, 23:8, 7:4 and 3:0 (R81). -/
structure CommandFields where
  op : BitVec 8
  zero : BitVec 16
  dst : BitVec 4
  src : BitVec 4
  deriving DecidableEq, Repr

/-- Why a word is no command: the four causes of R85, in its order. -/
inductive Illegal
  /-- an `op` outside the seven of the opcode map -/
  | opcode
  /-- a non-zero bit in 23:8 -/
  | reservedBits
  /-- a non-zero bit in 7:0 of a format `Z` command -/
  | operandBits
  /-- a selector value of 2 to 15 in a format `T` command -/
  | selector
  deriving DecidableEq, Repr

/-- The opcodes of format `Z`: `NOP`, `BLOCK`, `BLOCKV` (R83). -/
def CommandFields.isFormatZ (f : CommandFields) : Bool :=
  f.op = 0x00#8 || f.op = 0x10#8 || f.op = 0x11#8

/-- The opcodes of format `T`: the four transforms (R83). -/
def CommandFields.isFormatT (f : CommandFields) : Bool :=
  f.op = 0x01#8 || f.op = 0x02#8 || f.op = 0x03#8 || f.op = 0x04#8

/-- The first cause of R85 that applies to the fields, `none` where the word is legal. -/
def CommandFields.fault (f : CommandFields) : Option Illegal :=
  if !(f.isFormatZ || f.isFormatT) then some .opcode
  else if f.zero ≠ 0 then some .reservedBits
  else if f.isFormatZ && (f.dst ≠ 0 || f.src ≠ 0) then some .operandBits
  else if f.isFormatT && (2 ≤ f.dst.toNat || 2 ≤ f.src.toNat) then some .selector
  else none

/-- The word made of these fields is one of the nineteen commands (R85, U9). -/
abbrev CommandFields.WellFormed (f : CommandFields) : Prop := f.fault = none

end Sys2Proof
end

