-- ==== Sys2Proof/Decode.lean ====
section
/-! DEFINITION. Decoding, total on every word (R83, R85), and after it the encoder, written from the format
table of R81 and the opcode table of R83. A command has one length and no second word (R80, R87). -/

namespace Sys2Proof

/-- The four fields of a word (R81). -/
def CommandFields.ofWord (w : Word) : CommandFields :=
  { op := w.extractLsb' 24 8, zero := w.extractLsb' 8 16, dst := w.extractLsb' 4 4, src := w.extractLsb' 0 4 }

/-- `{op, zero, dst, src}` (R81, R88). -/
def CommandFields.toWord (f : CommandFields) : Word := f.op ++ f.zero ++ f.dst ++ f.src

/-- The buffer named by the one selector bit that a row's mask leaves free: 0 is `X`, 1 is `Y` (R82, R83). -/
def Buf.ofBit (b : Bool) : Buf := if b then .y else .x

/-- `decode(w)`: `w` selects a row iff `(w AND mask) = match` (R83); a word that selects none is illegal, by
the name of the cause of R85 that applies first. -/
def decode (w : Word) : Except Illegal Instr :=
  let dst := Buf.ofBit (w.getLsbD 4)
  let src := Buf.ofBit (w.getLsbD 0)
  if w &&& 0xFFFFFFFF#32 = 0x00000000#32 then .ok .nop
  else if w &&& 0xFFFFFFEE#32 = 0x01000000#32 then .ok (.fftF dst src)
  else if w &&& 0xFFFFFFEE#32 = 0x02000000#32 then .ok (.fftI dst src)
  else if w &&& 0xFFFFFFEE#32 = 0x03000000#32 then .ok (.rfftF dst src)
  else if w &&& 0xFFFFFFEE#32 = 0x04000000#32 then .ok (.rfftI dst src)
  else if w &&& 0xFFFFFFFF#32 = 0x10000000#32 then .ok .block
  else if w &&& 0xFFFFFFFF#32 = 0x11000000#32 then .ok .blockv
  else .error ((CommandFields.ofWord w).fault.getD .selector)

/-- The selector value of a buffer (R82). -/
def Buf.selector : Buf → BitVec 4
  | .x => 0
  | .y => 1

/-- The fields of a command's word (R81, R83). -/
def Instr.fields : Instr → CommandFields
  | .nop => ⟨0x00, 0, 0, 0⟩
  | .fftF dst src => ⟨0x01, 0, dst.selector, src.selector⟩
  | .fftI dst src => ⟨0x02, 0, dst.selector, src.selector⟩
  | .rfftF dst src => ⟨0x03, 0, dst.selector, src.selector⟩
  | .rfftI dst src => ⟨0x04, 0, dst.selector, src.selector⟩
  | .block => ⟨0x10, 0, 0, 0⟩
  | .blockv => ⟨0x11, 0, 0, 0⟩

/-- The command word of a command (R88). -/
def encode (i : Instr) : Word := i.fields.toWord

/-- A command is well formed where its fields are; every command is (its operands are buffers, not selector bits). -/
abbrev Instr.WellFormed (i : Instr) : Prop := i.fields.WellFormed

/-- The command the decoder reads from an opcode-table row's bits (R80: one word; bits above `nbits` are 0). -/
def decodeTableWord (nbits w : Nat) : Option Instr :=
  match decode (BitVec.ofNat 32 (w % 2 ^ nbits)) with
  | .ok i => some i
  | .error _ => none

end Sys2Proof
end

