-- ==== Sys2Proof/Config.lean ====
section
/-! DEFINITION. What is fixed for an instance (R6), the numerics record (R10), and the values the spec
leaves free (93_implementation_defined.md U2, U3, U4, U6), each an opaque constant that nothing can evaluate. -/

namespace Sys2Proof

/-- Which numerics record an instance has (R6, R10): the default one, IEEE 754 binary32, or another (D4, U15). It is a name for
the record, because State holds no functions: `Numerics.record` gives the record itself (log 22). -/
inductive Numerics
  | binary32
  | custom (k : Nat)
  deriving DecidableEq, Repr

/-- The parameter record `Cfg` of an instance, less its tables, which `Rom` holds: `N, H, B, C_in, C_out, PHI_RESET, Num`
(R6, R9, R10, U6, U7). It is held in State, so that a statement about every state is one about every instance (log 1). -/
structure Params where
  n : Nat
  h : Nat
  b : Nat
  cIn : Nat
  cOut : Nat
  phiReset : Word
  num : Numerics
  deriving DecidableEq, Repr

/-- The five read-only tables, as words (R11, R22 to R26). -/
structure Rom where
  tw : List Word
  brn : List Word
  brh : List Word
  rtw : List Word
  win : List Word
  deriving DecidableEq, Repr

/-- Names one floating-point operation of one step: `epoch` is the value of the counter `draws` in that
step, `path` the place of the operation in the rule's loops. Two different operations have two different
sites, so their free NaN patterns have nothing to do with each other (U3, log 5). -/
structure Site where
  epoch : Nat
  path : List Nat
  deriving DecidableEq, Repr

/-- The site numbered `i` below `k`. -/
def Site.sub (k : Site) (i : Nat) : Site := ⟨k.epoch, i :: k.path⟩

/-- The five operations of the numerics record (R10): `fadd, fsub, fmul, fdiv, fneg`, over any number type. The site tells
one operation from another, so that a NaN's open pattern can differ between them (U3). -/
structure Arith (α : Type) where
  add : Site → α → α → α
  sub : Site → α → α → α
  mul : Site → α → α → α
  div : Site → α → α → α
  neg : α → α
  deriving Inhabited

/-- The numerics record with the three constants the rules name, which are no part of the record `Num` of R10: `zero` is `+0`,
`half` is `0.5` and `ofNat` is `rnd` of a natural number (R15). Every transform is written once over it: the machine uses
the record of its instance, and R17's exact reference is the same text over a field. -/
structure Num (α : Type) extends Arith α where
  zero : α
  half : α
  ofNat : Nat → α

/-- U3: bit 22 is the sign and bits 21 to 0 the payload of the quiet NaN that an operation produces. FREE VALUE (log 5). -/
opaque Config.nanBits : Site → BitVec 23

/-- U4: the numerator `j` of the draw `u_k = j * 2^-24` of bin `k` at the hop of step `epoch` (R137). FREE VALUE (log 6). -/
opaque Config.phaseDraw : (epoch bin : Nat) → BitVec 24

/-- U2: the data that a refused bus read returns in step `epoch` (R63). FREE VALUE (log 7). -/
opaque Config.refusedReadData : (epoch : Nat) → Word

/-- U6: `bits(PHI_RESET)` of the instance of `State.reset` (R9); every other instance has its own in `Params`. OPEN PARAMETER (log 2). -/
opaque Config.phiReset : Word

/-- R6, R10: the operations of a numerics record that is not the default one, by its number. OPEN PARAMETER (log 22). -/
opaque Config.customArith : Nat → Arith Word

/-- The instance of `State.reset`: configuration K4 of 95_test_vectors.md. DESIGN CHOICE (log 1). -/
def Config.params : Params :=
  { n := 4, h := 2, b := 4, cIn := 4, cOut := 8, phiReset := Config.phiReset, num := .binary32 }

end Sys2Proof
end

