-- ==== Sys2Proof/Machine/Numerics.lean ====
section
/-! DEFINITION. IEEE 754 binary32 arithmetic (R10, R15): round to nearest ties to even, one rounding per
call, subnormals kept, no flags, no traps. Every finite value is an integer number of units of `2^-149`, so an
operation computes its exact result as a ratio of integers and narrows it once, in `F32.roundUnits`. The
rules for infinities, NaN and signed zeros are those of the standard (PRESUMED, G3, log 15). -/

namespace Sys2Proof.F32

/-- The unit `2^-149` in which every finite binary32 value is an integer: `1.0` is `one` units. -/
def one : Nat := 2 ^ 149

/-- Pattern of the magnitude of infinity. -/
def infMag : Nat := 0x7F800000

/-- Bits 30:0 as a number; it grows with the magnitude. -/
def mag (w : Word) : Nat := w.toNat % 2 ^ 31

/-- Bit 31. -/
def sign (w : Word) : Bool := decide (2 ^ 31 ≤ w.toNat)

/-- Exponent all ones and fraction not 0. -/
def isNaN (w : Word) : Bool := decide (infMag < mag w)

/-- Exponent all ones and fraction 0. -/
def isInf (w : Word) : Bool := decide (mag w = infMag)

/-- Neither NaN nor infinite. -/
def isFinite (w : Word) : Bool := decide (mag w < infMag)

/-- `+0` or `-0`. -/
def isZero (w : Word) : Bool := decide (mag w = 0)

/-- The magnitude of a finite word in units of `2^-149`: a subnormal has exponent field 0 and no hidden bit. -/
def units (w : Word) : Nat :=
  let e := mag w / 2 ^ 23
  let f := mag w % 2 ^ 23
  if e = 0 then f else (2 ^ 23 + f) * 2 ^ (e - 1)

/-- The value of a finite word in units of `2^-149`. -/
def ival (w : Word) : Int := if sign w then -(units w : Int) else units w

/-- The word with this sign and these bits 30:0. -/
def pack (s : Bool) (m : Nat) : Word := BitVec.ofNat 32 (if s then 2 ^ 31 + m else m)

/-- The one rounding (R10, R15): bits 30:0 of the magnitude `num/den` units rounded to nearest, ties to
even, overflow to infinity. `shift` is the exponent of the last place of the result, in units. -/
def roundUnits (num den : Nat) : Nat :=
  let shift := Nat.log2 (num / den) - 23
  let ulp := den * 2 ^ shift
  let q := num / ulp
  let r := num % ulp
  let m := if 2 * r < ulp then q else if ulp < 2 * r then q + 1 else q + q % 2
  min (shift * 2 ^ 23 + m) infMag

/-- A quiet NaN whose sign and payload are free (R10, U3). -/
def quietNaN (k : Site) : Word :=
  let f := (Config.nanBits k).toNat
  pack (decide (2 ^ 22 ≤ f)) (0x7FC00000 + f % 2 ^ 22)

/-- `fneg`: flips the sign bit and nothing else (R10). -/
def neg (w : Word) : Word := w ^^^ 0x80000000#32

/-- `fadd` (R10). An exact sum of zero is `+0` unless both operands are negative zeros. -/
def add (k : Site) (a b : Word) : Word :=
  if isNaN a || isNaN b then quietNaN k
  else if isInf a then (if isInf b && (sign a != sign b) then quietNaN k else a)
  else if isInf b then b
  else
    let v := ival a + ival b
    if v = 0 then pack (sign a && sign b) 0 else pack (decide (v < 0)) (roundUnits v.natAbs 1)

/-- `fsub` (R10): the sum with the second operand negated. -/
def sub (k : Site) (a b : Word) : Word := add k a (neg b)

/-- `fmul` (R10). Infinity times zero is a NaN. -/
def mul (k : Site) (a b : Word) : Word :=
  let s := sign a != sign b
  if isNaN a || isNaN b then quietNaN k
  else if isInf a then (if isZero b then quietNaN k else pack s infMag)
  else if isInf b then (if isZero a then quietNaN k else pack s infMag)
  else pack s (roundUnits (units a * units b) one)

/-- `fdiv` (R10). Zero over zero and infinity over infinity are NaN; a finite number over zero is infinite. -/
def div (k : Site) (a b : Word) : Word :=
  let s := sign a != sign b
  if isNaN a || isNaN b then quietNaN k
  else if isInf a then (if isInf b then quietNaN k else pack s infMag)
  else if isInf b then pack s 0
  else if isZero b then (if isZero a then quietNaN k else pack s infMag)
  else pack s (roundUnits (units a * one) (units b))

/-- `rnd` of the rational `num/den` with this sign (R15). -/
def ofRatio (s : Bool) (num den : Nat) : Word := pack s (roundUnits (num * one) den)

/-- The draw `u = j * 2^-24` of R137, an element of `U`; it is exact. -/
def ofDraw (j : BitVec 24) : Word := ofRatio false j.toNat (2 ^ 24)

end Sys2Proof.F32

namespace Sys2Proof

/-- The default operations: binary32 (R10). -/
def Arith.binary32 : Arith Word where
  add := F32.add
  sub := F32.sub
  mul := F32.mul
  div := F32.div
  neg := F32.neg

/-- Operations on words with the constants of the rules, which are binary32 words whatever the operations are (R10, R15). -/
def Num.ofArith (a : Arith Word) : Num Word where
  toArith := a
  zero := 0x00000000#32
  half := 0x3F000000#32
  ofNat := fun n => F32.ofRatio false n 1

/-- The default instance of `Num` (R10). -/
def Num.binary32 : Num Word := Num.ofArith Arith.binary32

/-- The numerics record that a name stands for (R6, R10, log 22). -/
def Numerics.record : Numerics → Num Word
  | .binary32 => Num.binary32
  | .custom k => Num.ofArith (Config.customArith k)

end Sys2Proof
end

