-- ==== Sys2Proof/Machine/Tables.lean ====
section
/-! DEFINITION. Construction: the predicate `ConfigValid` (R7), bit reversal (R23, R24) and the contents of the
five ROMs (R22 to R26) computed for any transform size. The cosines are computed in fixed point with 128 bits
after the binary point and then rounded once (log 14). -/

namespace Sys2Proof

/-- `ConfigValid(Cfg)`: V1 to V5 of R7, in that order. -/
abbrev Params.Valid (p : Params) : Prop :=
  (p.n = 2 ^ Nat.log2 p.n ∧ 4 ≤ p.n ∧ p.n ≤ 65536) ∧
  (1 ≤ p.h ∧ 1 ≤ p.b) ∧
  (0 < p.cIn ∧ p.b ∣ p.cIn ∧ p.h ∣ p.cIn ∧ 0 < p.cOut ∧ p.b ∣ p.cOut ∧ p.h ∣ p.cOut) ∧
  p.n + p.b ≤ p.cOut ∧
  (p.b ≤ 262144 ∧ p.cIn ≤ 262144 ∧ p.cOut ≤ 262144)

/-- `rev_n(p)`: the `n`-bit number whose bit `j` is bit `n-1-j` of `p` (R23). -/
def bitReverse : (n p : Nat) → Nat
  | 0, _ => 0
  | n + 1, p => p % 2 * 2 ^ n + bitReverse n (p / 2)

/-- `pairs_M`: the pairs `(p, rev(p))` with `p < rev(p)`, in increasing order of `p` (R23). -/
def reversalPairs (m : Nat) : List (Nat × Nat) :=
  ((List.range m).map fun p => (p, bitReverse (Nat.log2 m) p)).filter fun pq => pq.1 < pq.2

/-- `P_M = (M - 2^ceil(n/2)) / 2` with `n = log2(M)` (R23): the count word, and the bound of the ROM's window (R62). -/
def pairCount (m : Nat) : Nat := (m - 2 ^ ((Nat.log2 m + 1) / 2)) / 2

/-- The words of a bit-reversal ROM: the count, then the pairs (R23, R24). -/
def reversalRom (m : Nat) : List Word :=
  (pairCount m :: (reversalPairs m).flatMap fun pq => [pq.1, pq.2]).map (BitVec.ofNat 32)

namespace Trig

/-- `1` in fixed point. -/
def one : Nat := 2 ^ 128

/-- `floor(pi * 2^128)`. -/
def pi : Nat := 1069028584064966747859680373161870783300

/-- `1 - x^2/((2k+1)(2k+2)) * (1 - ...)`, `fuel` terms, `x2` the square of the angle in fixed point. -/
def cosSeries (x2 : Nat) : (fuel k : Nat) → Nat
  | 0, _ => one
  | f + 1, k => one - x2 * cosSeries x2 f (k + 1) / one / ((2 * k + 1) * (2 * k + 2))

/-- `1 - x^2/((2k+2)(2k+3)) * (1 - ...)`. -/
def sinSeries (x2 : Nat) : (fuel k : Nat) → Nat
  | 0, _ => one
  | f + 1, k => one - x2 * sinSeries x2 f (k + 1) / one / ((2 * k + 2) * (2 * k + 3))

/-- `cos(pi*q/d)` in fixed point for `0 <= q/d <= 1/4`. -/
def cosEighth (q d : Nat) : Nat :=
  let x := pi * q / d
  cosSeries (x * x / one) 20 0

/-- `sin(pi*q/d)` in fixed point for `0 <= q/d <= 1/4`. -/
def sinEighth (q d : Nat) : Nat :=
  let x := pi * q / d
  x * sinSeries (x * x / one) 20 0 / one

/-- `cos(pi*q/d)` in fixed point for `0 <= q/d <= 1/2`; it is exactly `1` and `0` at the two ends. -/
def cosQuarter (q d : Nat) : Nat :=
  if 4 * q ≤ d then cosEighth q d else sinEighth (d - 2 * q) (2 * d)

/-- `cos(pi*q/d)` in fixed point for `0 <= q/d <= 1`. -/
def cosHalf (q d : Nat) : Int :=
  if 2 * q ≤ d then cosQuarter q d else -(cosQuarter (d - q) d : Int)

/-- `sin(pi*q/d)` in fixed point for `0 <= q/d <= 1`. -/
def sinHalf (q d : Nat) : Nat :=
  if 2 * q ≤ d then cosQuarter (d - 2 * q) (2 * d) else cosQuarter (2 * q - d) (2 * d)

/-- `rnd` of the fixed-point number `v / den` (R15). -/
def toWord (v : Int) (den : Nat) : Word := F32.ofRatio (decide (v < 0)) v.natAbs den

/-- The pair `(rnd(cos(pi*q/d)), rnd(sin(pi*q/d)))`. -/
def cosSin (q d : Nat) : List Word := [toWord (cosHalf q d) one, toWord (sinHalf q d) one]

/-- `rnd(0.5 - 0.5*cos(2*pi*k/N))` (R26); the cosine of `2*pi*k/N` and of `2*pi*(N-k)/N` are the same. -/
def hann (k n : Nat) : Word :=
  let j := if 2 * k ≤ n then k else n - k
  toWord ((one : Int) - cosHalf (2 * j) n) (2 * one)

end Trig

/-- The ROMs of an instance of size `n` (R22 to R26). Entry `s + i` of `TW`, `s` the largest power of two not
above it, is for stride `s` and index `i`; entry 0 is the filler `(1.0, +0)`. -/
def Rom.build (n : Nat) : Rom where
  tw := (List.range n).flatMap fun a =>
    if a = 0 then [0x3F800000#32, 0x00000000#32]
    else Trig.cosSin (a - 2 ^ Nat.log2 a) (2 ^ Nat.log2 a)
  brn := reversalRom n
  brh := reversalRom (n / 2)
  rtw := (List.range (n / 4 + 1)).flatMap fun i => Trig.cosSin (2 * i) n
  win := (List.range n).map fun k => Trig.hann k n

end Sys2Proof
end

