-- ==== Sys2Proof/Machine/Layout.lean ====
section
/-! DEFINITION. Where things lie: the block's arrays and the sizes R20 gives them, the sixteen regions of the
address map (R62) and the sixteen registers of region 0 (R35 to R42). -/

namespace Sys2Proof.Machine

/-- The arrays of words of R20 (b) to (f). -/
inductive Arr
  | x
  | y
  | mag0
  | mag1
  | inblk
  | outblk
  | gainv
  | inring
  | outring
  deriving DecidableEq, Repr

/-- Storage address of an array's word 0: the base of the region that maps it (R62). The two banks swap windows,
so the spec gives neither an address of its own: the model stores each in the region that shows it while
`MAG_ACTIVE = 0` (log 4). -/
def Arr.base : Arr → Nat
  | .x => 0x100000
  | .y => 0x200000
  | .mag1 => 0x300000
  | .inblk => 0x400000
  | .outblk => 0x500000
  | .gainv => 0x600000
  | .inring => 0x700000
  | .outring => 0x800000
  | .mag0 => 0xE00000

/-- Size in words (R28, R29, R31, R32, R33). -/
def Arr.size (p : Params) : Arr → Nat
  | .x => 2 * p.n
  | .y => 2 * p.n
  | .mag0 => p.n
  | .mag1 => p.n
  | .inblk => p.b
  | .outblk => p.b
  | .gainv => p.b
  | .inring => p.cIn
  | .outring => p.cOut

/-- Storage address of word `i`. -/
def Arr.addr (A : Arr) (i : Nat) : Nat := A.base + 4 * i

/-- The address lies in one of the array's words. -/
def Arr.holds (p : Params) (A : Arr) (a : Nat) : Bool :=
  decide (A.base ≤ a ∧ a < A.base + 4 * A.size p)

/-- All arrays. -/
def Arr.all : List Arr := [.x, .y, .mag0, .mag1, .inblk, .outblk, .gainv, .inring, .outring]

/-- The arrays whose words R46 leaves unspecified at reset. -/
def Arr.unspecified : List Arr := [.x, .y, .mag0, .mag1, .inblk, .outblk, .gainv]

/-- Bank `MAG[0]` or `MAG[1]` (R29). -/
def Arr.bank (active : Bool) : Arr := if active then .mag1 else .mag0

/-- The array of an operand buffer (R28). -/
def Arr.ofBuf : Buf → Arr
  | .x => .x
  | .y => .y

/-- The regions of R62, in the order of their numbers. -/
inductive Region
  | regs
  | xbuf
  | ybuf
  | magw
  | inblk
  | outblk
  | gainv
  | inringv
  | outringv
  | twrom
  | brnrom
  | brhrom
  | rtwrom
  | winrom
  | magav
  | reserved
  deriving DecidableEq, Repr

/-- Region `r = a[23:20]` (R62). -/
def Region.ofNumber : Nat → Region
  | 0 => .regs
  | 1 => .xbuf
  | 2 => .ybuf
  | 3 => .magw
  | 4 => .inblk
  | 5 => .outblk
  | 6 => .gainv
  | 7 => .inringv
  | 8 => .outringv
  | 9 => .twrom
  | 10 => .brnrom
  | 11 => .brhrom
  | 12 => .rtwrom
  | 13 => .winrom
  | 14 => .magav
  | _ => .reserved

/-- Size in words: word `i` is mapped iff `i <` it (R62). -/
def Region.size (p : Params) : Region → Nat
  | .regs => 16
  | .xbuf => 2 * p.n
  | .ybuf => 2 * p.n
  | .magw => p.n
  | .inblk => p.b
  | .outblk => p.b
  | .gainv => p.b
  | .inringv => p.cIn
  | .outringv => p.cOut
  | .twrom => 2 * p.n
  | .brnrom => 1 + 2 * pairCount p.n
  | .brhrom => 1 + 2 * pairCount (p.n / 2)
  | .rtwrom => p.n / 2 + 2
  | .winrom => p.n
  | .magav => p.n
  | .reserved => 0

/-- Busy-protected regions: 1, 2, 4, 5, 6, 7, 8 (R62, R67). -/
def Region.busyProtected : Region → Bool
  | .xbuf | .ybuf | .inblk | .outblk | .gainv | .inringv | .outringv => true
  | .regs | .magw | .twrom | .brnrom | .brhrom | .rtwrom | .winrom | .magav | .reserved => false

/-- The registers of region 0, in the order of their offsets `0x00`, `0x04`, ... `0x3C` (R35 to R42). -/
inductive Reg
  | id
  | cfgN
  | cfgHop
  | cfgBlock
  | cfgCin
  | cfgCout
  | status
  | err
  | cmd
  | gain
  | phaseBound
  | hopCnt
  | inWr
  | outWr
  | outRd
  | magCtrl
  deriving DecidableEq, Repr

/-- The register at word index `i` of region 0; offsets from `0x40` on are unmapped (R42). -/
def Reg.ofIndex : Nat → Option Reg
  | 0 => some .id
  | 1 => some .cfgN
  | 2 => some .cfgHop
  | 3 => some .cfgBlock
  | 4 => some .cfgCin
  | 5 => some .cfgCout
  | 6 => some .status
  | 7 => some .err
  | 8 => some .cmd
  | 9 => some .gain
  | 10 => some .phaseBound
  | 11 => some .hopCnt
  | 12 => some .inWr
  | 13 => some .outWr
  | 14 => some .outRd
  | 15 => some .magCtrl
  | _ => none

/-- Where a bus address points: a register, or a word of a region, or nothing that is mapped. -/
inductive Target
  | reg (r : Reg)
  | word (r : Region) (i : Nat)
  | unmapped
  deriving DecidableEq, Repr

/-- Bits 23:20 select the region, bits 19:2 the word, bits 1:0 must be 0 (R62). -/
def Target.ofAddr (p : Params) (a : BusAddr) : Target :=
  let r := Region.ofNumber (a.toNat / 2 ^ 20)
  let i := a.toNat % 2 ^ 20 / 4
  if a.toNat % 4 ≠ 0 then .unmapped
  else match r with
    | .regs => match Reg.ofIndex i with
      | some g => .reg g
      | none => .unmapped
    | r => if i < r.size p then .word r i else .unmapped

/-- The words a host may write: regions 1 to 6, and of the registers `ERR`, `CMD`, `GAIN`, `PHASE_BOUND`,
`MAG_CTRL` (R62, R64). -/
def Target.writable : Target → Bool
  | .reg .err | .reg .cmd | .reg .gain | .reg .phaseBound | .reg .magCtrl => true
  | .reg .id | .reg .cfgN | .reg .cfgHop | .reg .cfgBlock | .reg .cfgCin | .reg .cfgCout | .reg .status
  | .reg .hopCnt | .reg .inWr | .reg .outWr | .reg .outRd => false
  | .word .xbuf _ | .word .ybuf _ | .word .magw _ | .word .inblk _ | .word .outblk _ | .word .gainv _ => true
  | .word .regs _ | .word .inringv _ | .word .outringv _ | .word .twrom _ | .word .brnrom _ | .word .brhrom _
  | .word .rtwrom _ | .word .winrom _ | .word .magav _ | .word .reserved _ => false
  | .unmapped => false

end Sys2Proof.Machine
end

