-- ==== Sys2Proof/Machine/State.lean ====
section
/-! DEFINITION. The state of an instance (R20), the reasons a step can stop, and reset (R46, R170). -/

namespace Sys2Proof.Machine

/-- What the engine does next in a command (R43). -/
inductive Phase
  /-- the whole of a `NOP` or a transform -/
  | exec
  /-- sample step `s` of a block command -/
  | sample (s : Nat)
  /-- the drain step of a block command -/
  | drain
  deriving DecidableEq, Repr

/-- The sequencer state `SEQ`, in place of a program counter (R43): the command holds `op`, `dst` and `src`. -/
inductive Seq
  | idle
  | run (cmd : Instr) (phase : Phase)
  deriving DecidableEq, Repr

/-- The width of a bus transaction; only `word` is one the block serves (R65). -/
inductive Width
  | byte
  | half
  | word
  deriving DecidableEq, Repr

/-- A bus transaction (R63, R64). -/
inductive Transaction
  | read (width : Width) (addr : BusAddr)
  | write (width : Width) (addr : BusAddr) (data : Word)
  deriving DecidableEq, Repr

/-- One step of the schedule (R12, R69, R167, R170): a Host transaction, a Producer transaction, a turn of the
engine, or the reset input with the contents it happens to leave in the unspecified arrays (U1, log 11). -/
inductive Event
  | host (t : Transaction)
  | producer (t : Transaction)
  | engine
  | reset (contents : Memory)
  deriving DecidableEq, Repr

/-- The state: R20 (a) to (j), and the model's own `agenda`, `draws` and `busOut`. `READY` and `BUSY` are
functions of it (R37, log 17). -/
structure State where
  /-- (a) the parameters (R6) -/
  params : Params
  /-- (a) the ROMs (R22 to R26) -/
  rom : Rom
  /-- (b), (c), (d), (e), (f) the words of `X Y MAG INBLK OUTBLK GAINV INRING OUTRING` -/
  mem : Memory
  /-- (c) `MAG_ACTIVE` (R30) -/
  magActive : Bool
  /-- (c) `MAG_VALID` (R30) -/
  magValid : Bool
  /-- (c) `MAG_LEN` (R30) -/
  magLen : BitVec 24
  /-- (e) `IN_WR` (R32) -/
  inWr : Nat
  /-- (f) `OUT_WR` (R33) -/
  outWr : Nat
  /-- (f) `OUT_RD` (R33) -/
  outRd : Nat
  /-- (g) `HOP_CNT` (R34) -/
  hopCnt : Nat
  /-- (h) `GAIN` (R40) -/
  gain : Word
  /-- (h) `PHASE_BOUND` (R41) -/
  phaseBound : Word
  /-- (h) `LASTCMD` (R39) -/
  lastCmd : Word
  /-- (i) `DONE` (R37) -/
  done : Bool
  /-- (i) the sticky bits of `ERR`, bit numbers as in R38 -/
  err : BitVec 7
  /-- (j) `SEQ` (R43) -/
  seq : Seq
  /-- the model's own: the events to come, first one next (R45, R69, U5, log 8) -/
  agenda : List Event
  /-- the model's own: counts the steps that may draw a free value (log 21) -/
  draws : Nat
  /-- the model's own: the data the latest bus read returned (R63, log 10) -/
  busOut : Option Word
  deriving DecidableEq, Repr

/-- Why a step stops with a fault. -/
inductive Fault
  /-- Raised by `execBlock` and `execBlockv`, and by nothing else, where `SEQ` is not `Run(_, Sample(s))` with `s < B` nor
  `Run(_, Drain)`: R43 gives a block command no other phase, so no engine step of it exists there. Safe: the model
  stops where the spec has no step, and no run reaches it (log 13). -/
  | noEngineStep
  deriving DecidableEq, Repr

/-- Why a step is refused. -/
inductive Refusal
  /-- The arm of an instruction that has no meaning yet. No arm of `exec` answers it: every command is modelled. Safe. -/
  | notModelled (mnemonic : String)
  deriving DecidableEq, Repr

/-- The contents of the arrays after a reset: the rings are all `+0` and hold no cell; every other array holds what
`contents` says of it (R46, U1). Cells outside those arrays are dropped. -/
def resetMemory (p : Params) (contents : Memory) : Memory :=
  Memory.ofCells (contents.filter fun c => Arr.unspecified.any fun A => A.holds p c.1)

/-- The state after reset of an instance with parameters `p`, ROMs `rom` and any contents of the unspecified arrays
(R46, R170): `ERR.CFG` is set iff `ConfigValid` is false (R152). -/
def State.resetWith (p : Params) (rom : Rom) (contents : Memory) : State where
  params := p
  rom := rom
  mem := resetMemory p contents
  magActive := false
  magValid := false
  magLen := 0
  inWr := 0
  outWr := 0
  outRd := 0
  hopCnt := 0
  gain := 0x3E99999A#32
  phaseBound := p.phiReset
  lastCmd := 0
  done := false
  err := if p.Valid then 0 else 1
  seq := .idle
  agenda := []
  draws := 0
  busOut := none

/-- The state after reset of the instance of Config (log 1), nothing listed in memory (log 3). -/
def State.reset : State := State.resetWith Config.params (Rom.build Config.params.n) []

end Sys2Proof.Machine
end

