-- ==== Sys2Proof/Machine/Flags.lean ====
section
/-! DEFINITION. The status flags and the sticky error bits (R37, R38, R150 to R159), and the register words that
show them. No arithmetic operation of the block has a flag (R10, R129). -/

namespace Sys2Proof.Machine

/-- The error causes (R151). -/
inductive ErrorBit
  | cfg
  | illcmd
  | busycmd
  | busyacc
  | badaddr
  | hopskip
  | notready
  deriving DecidableEq, Repr

/-- The code of a cause: its bit number in `ERR` (R151). -/
def ErrorBit.code : ErrorBit → Nat
  | .cfg => 0
  | .illcmd => 1
  | .busycmd => 2
  | .busyacc => 3
  | .badaddr => 4
  | .hopskip => 5
  | .notready => 6

/-- The word with only that bit set. -/
def ErrorBit.mask (e : ErrorBit) : BitVec 7 := 1#7 <<< e.code

/-- `STATUS.READY`: 1 iff `ConfigValid` (R37). -/
def State.ready (s : State) : Bool := decide s.params.Valid

/-- `STATUS.BUSY`: 1 iff `SEQ != Idle` (R37, R43). -/
def State.busy (s : State) : Bool := s.seq ≠ .idle

/-- Bit `e` of `ERR`. -/
def State.errorBit (s : State) (e : ErrorBit) : Bool := s.err.getLsbD e.code

/-- `raise E`: sets the sticky bit and does nothing else (R150). It is all there is to taking an exception: no state is
saved, no vector fetched, nothing masked (R161). -/
def State.raise (s : State) (e : ErrorBit) : State := { s with err := s.err ||| e.mask }

/-- A write of `v` to `ERR`: clears bits 1 to 6 where `v` has a 1 and leaves the others; bit 0 is read-only (R38). It is
all there is to returning from an exception (R162). -/
def State.clearErrors (s : State) (v : Word) : State :=
  { s with err := s.err &&& ~~~(v.setWidth 7 &&& 0x7E#7) }

/-- The `STATUS` register: bit 0 `READY`, 1 `BUSY`, 2 `DONE`, 3 `MAG_VALID`, 4 `MAG_ACTIVE`, the others 0 (R37). -/
def State.statusWord (s : State) : Word :=
  0#27 ++ BitVec.ofBool s.magActive ++ BitVec.ofBool s.magValid ++ BitVec.ofBool s.done ++ BitVec.ofBool s.busy
    ++ BitVec.ofBool s.ready

/-- The `ERR` register: bits 31:7 read 0 (R38). -/
def State.errWord (s : State) : Word := s.err.setWidth 32

/-- A read of `MAG_CTRL`: `{MAG_ACTIVE, MAG_VALID, 0[5:0], MAG_LEN[23:0]}` (R42). -/
def State.magCtrlWord (s : State) : Word :=
  BitVec.ofBool s.magActive ++ BitVec.ofBool s.magValid ++ 0#6 ++ s.magLen

end Sys2Proof.Machine
end

