-- ==== Sys2Proof/Machine/Ops.lean ====
section
/-! DEFINITION. The operations the rules share: words of the block's arrays, the registers, the sequencer's moves (R84)
and `PUBLISH` (R146). Raising and clearing an error stand in Flags.lean (R150, R162). -/

namespace Sys2Proof.Machine

/-- Word `i` of an array. -/
def State.word (s : State) (A : Arr) (i : Nat) : Word := s.mem.readWord (A.addr i)

/-- Words `0 .. n-1` of an array. -/
def State.words (s : State) (A : Arr) (n : Nat) : List Word := s.mem.readWords A.base n

/-- `A[i] <- v`. -/
def State.setWord (s : State) (A : Arr) (i : Nat) (v : Word) : State :=
  { s with mem := s.mem.writeWord (A.addr i) v }

/-- `A[0 ..] <- ws`. -/
def State.setWords (s : State) (A : Arr) (ws : List Word) : State :=
  { s with mem := s.mem.writeWords A.base ws }

/-- The site of the operations of this step (U3). -/
def State.site (s : State) : Site := ⟨s.draws, []⟩

/-- The numerics record of the instance (R6, R10). -/
def State.num (s : State) : Num Word := s.params.num.record

/-- Moves on to fresh free values. -/
def State.tick (s : State) : State := { s with draws := s.draws + 1 }

/-- The active bank, the only one the engine reads (R29). -/
def State.activeBank (s : State) : Arr := Arr.bank s.magActive

/-- The shadow bank, the only one the `MAGW` window writes (R29). -/
def State.shadowBank (s : State) : Arr := Arr.bank (!s.magActive)

/-- The first phase `p0` of an accepted command: `Sample(0)` for a block command, else `Exec` (R84). -/
def firstPhase : Instr → Phase
  | .nop => .exec
  | .fftF _ _ => .exec
  | .fftI _ _ => .exec
  | .rfftF _ _ => .exec
  | .rfftI _ _ => .exec
  | .block => .sample 0
  | .blockv => .sample 0

/-- Acceptance of word `w`, which decodes to `i`: `LASTCMD <- w`, `DONE <- 0`, `SEQ <- Run(op, dst, src, p0)` (R84 case 4). -/
def State.accept (s : State) (w : Word) (i : Instr) : State :=
  { s with lastCmd := w, done := false, seq := .run i (firstPhase i) }

/-- A word offered to `CMD` (R84): the first of the four cases that applies. -/
def State.offerCommand (s : State) (w : Word) : State :=
  if !s.ready then s.raise .notready
  else if s.busy then s.raise .busycmd
  else match decode w with
    | .error _ => s.raise .illcmd
    | .ok i => s.accept w i

/-- The last engine step of a command: `SEQ <- Idle`, `DONE <- 1` (R84). -/
def State.finish (s : State) : State := { s with seq := .idle, done := true }

/-- `PUBLISH` of word `v`: swaps the banks, marks the feed valid, records the declared length `v[23:0]` (R146). -/
def State.publish (s : State) (v : Word) : State :=
  { s with magActive := !s.magActive, magValid := true, magLen := v.setWidth 24 }

/-- What a read of a register returns (R35 to R42). -/
def State.readReg (s : State) : Reg → Word
  | .id => 0x53430001#32
  | .cfgN => BitVec.ofNat 32 s.params.n
  | .cfgHop => BitVec.ofNat 32 s.params.h
  | .cfgBlock => BitVec.ofNat 32 s.params.b
  | .cfgCin => BitVec.ofNat 32 s.params.cIn
  | .cfgCout => BitVec.ofNat 32 s.params.cOut
  | .status => s.statusWord
  | .err => s.errWord
  | .cmd => s.lastCmd
  | .gain => s.gain
  | .phaseBound => s.phaseBound
  | .hopCnt => BitVec.ofNat 32 s.hopCnt
  | .inWr => BitVec.ofNat 32 s.inWr
  | .outWr => BitVec.ofNat 32 s.outWr
  | .outRd => BitVec.ofNat 32 s.outRd
  | .magCtrl => s.magCtrlWord

/-- A write of `v` to a register the bus may write: its own write rule (R38, R39, R40, R41, R42, R64). While `READY = 0`
writes to `GAIN`, `PHASE_BOUND` and `MAG_CTRL` are ignored without an error (R66). The registers that are read-only change
nothing here; the bus refuses the access before (R64 check 1). -/
def State.writeReg (s : State) (r : Reg) (v : Word) : State :=
  match r with
  | .err => s.clearErrors v
  | .cmd => s.offerCommand v
  | .gain => if s.ready then { s with gain := v } else s
  | .phaseBound => if s.ready then { s with phaseBound := v } else s
  | .magCtrl => if s.ready then s.publish v else s
  | .id | .cfgN | .cfgHop | .cfgBlock | .cfgCin | .cfgCout | .status | .hopCnt | .inWr | .outWr | .outRd => s

end Sys2Proof.Machine
end

