-- ==== Sys2Proof/Machine/Bus.lean ====
section
/-! DEFINITION. The two bus transactions (R63, R64) with their checks in the order the rules give (R159). -/

namespace Sys2Proof.Machine

/-- The array a window of regions 1 to 8 and 14 maps (R62): `MAGW` the shadow bank, `MAGAV` the active bank. -/
def State.windowArr (s : State) : Region → Option Arr
  | .xbuf => some .x
  | .ybuf => some .y
  | .magw => some s.shadowBank
  | .inblk => some .inblk
  | .outblk => some .outblk
  | .gainv => some .gainv
  | .inringv => some .inring
  | .outringv => some .outring
  | .magav => some s.activeBank
  | .regs | .twrom | .brnrom | .brhrom | .rtwrom | .winrom | .reserved => none

/-- The words of a ROM window (R62); no other region has any here. -/
def State.romWords (s : State) : Region → List Word
  | .twrom => s.rom.tw
  | .brnrom => s.rom.brn
  | .brhrom => s.rom.brh
  | .rtwrom => s.rom.rtw
  | .winrom => s.rom.win
  | .regs | .xbuf | .ybuf | .magw | .inblk | .outblk | .gainv | .inringv | .outringv | .magav | .reserved => []

/-- The current value of a mapped word (R63 case 3). -/
def State.peek (s : State) : Target → Word
  | .reg g => s.readReg g
  | .word r i => match s.windowArr r with
    | some A => s.word A i
    | none => (s.romWords r).getD i 0
  | .unmapped => 0

/-- Check (1) of R63 and R64: a narrow or misaligned access, an unmapped word, or any region but 0 while `READY = 0`. -/
def State.badAddress (s : State) (width : Width) (t : Target) : Bool :=
  width ≠ .word || match t with
    | .unmapped => true
    | .reg _ => false
    | .word _ _ => !s.ready

/-- Check (2) of R63 and R64: a busy-protected region while `BUSY = 1` (R67). -/
def State.busyRefused (s : State) : Target → Bool
  | .word r _ => r.busyProtected && s.busy
  | .reg _ => false
  | .unmapped => false

/-- `BusRead(a)` (R63). A refused read raises its bit and returns a free word (U2, log 7); a read that is served changes
nothing but the data the port shows. -/
def State.busRead (s : State) (width : Width) (a : BusAddr) : State :=
  let t := Target.ofAddr s.params a
  if s.badAddress width t then { s.raise .badaddr with busOut := some (Config.refusedReadData s.draws) }
  else if s.busyRefused t then { s.raise .busyacc with busOut := some (Config.refusedReadData s.draws) }
  else { s with busOut := some (s.peek t) }

/-- A write that passed both checks (R64 case 3). -/
def State.poke (s : State) (t : Target) (v : Word) : State :=
  match t with
  | .reg g => s.writeReg g v
  | .word r i => match s.windowArr r with
    | some A => s.setWord A i v
    | none => s
  | .unmapped => s

/-- `BusWrite(a, v)` (R64). -/
def State.busWrite (s : State) (width : Width) (a : BusAddr) (v : Word) : State :=
  let t := Target.ofAddr s.params a
  if s.badAddress width t || !t.writable then s.raise .badaddr
  else if s.busyRefused t then s.raise .busyacc
  else s.poke t v

/-- One transaction of Host or Producer: the rules do not tell them apart (R12). -/
def State.transact (s : State) : Transaction → State
  | .read width a => s.busRead width a
  | .write width a v => s.busWrite width a v

end Sys2Proof.Machine
end

