-- ==== Sys2Proof/Machine/Agents.lean ====
section
/-! DEFINITION. What the agents' turns are made of: the reset input, and when the engine has a step (R69, R84, R170, R172). -/

namespace Sys2Proof.Machine

/-- The reset input (R170): the state of R46 for the same instance, whatever was running. The events after it and the
counter of free values go on (log 11, log 21). -/
def State.resetInput (s : State) (contents : Memory) : State :=
  { State.resetWith s.params s.rom contents with agenda := s.agenda, draws := s.draws }

/-- The command whose engine step is enabled: that of `SEQ` while `BUSY = 1` (R69 item c, R84), on an instance that was
constructed (R172). -/
def State.enabled (s : State) : Option Instr :=
  match s.seq with
  | .run i _ => if s.ready then some i else none
  | .idle => none

/-- The state with the first event of the agenda taken off. -/
def State.withAgenda (s : State) (rest : List Event) : State := { s with agenda := rest }

end Sys2Proof.Machine
end

