-- ==== Sys2Proof/Machine/Operands.lean ====
section
/-! DEFINITION. The block's addressing modes: how a rule reaches a complex element, a ring element, a twiddle and a
rotation coefficient (R73, R101, R117). The arrays here are the local lists a transform works on. -/

namespace Sys2Proof.Machine

/-- Complex element `k`: words `2k` and `2k+1` (R15, R73 a). -/
def complexAt {α : Type} (num : Num α) (A : List α) (k : Nat) : α × α :=
  (A.getD (2 * k) num.zero, A.getD (2 * k + 1) num.zero)

/-- Writes complex element `k`. -/
def setComplex {α : Type} (A : List α) (k : Nat) (z : α × α) : List α :=
  (A.set (2 * k) z.1).set (2 * k + 1) z.2

/-- The words of a list of complex elements, interleaved (R15). -/
def interleave {α : Type} (zs : List (α × α)) : List α := zs.flatMap fun z => [z.1, z.2]

/-- Ring position at cursor `c` plus offset `d`, reduced once (R73 b, c; R129). -/
def ringIndex (c d cap : Nat) : Nat := (c + d) % cap

/-- The twiddle of stride `s` and index `i`: entry `s + i` of `TW`, its sine negated for the inverse direction (R73 d, R101). -/
def twiddle {α : Type} (num : Num α) (tw : List α) (d : Dir) (s i : Nat) : α × α :=
  let w := complexAt num tw (s + i)
  match d with
  | .forward => w
  | .inverse => (w.1, num.neg w.2)

/-- The rotation coefficient `w(k)` of a transform of `n` reals: entry `k` of `RTW` up to `N/4`, beyond it the mirror
entry `M - k`, `M = N/2`, with its cosine negated (R73 e, R117). -/
def rotationCoeff {α : Type} (num : Num α) (rtw : List α) (n k : Nat) : α × α :=
  if k ≤ n / 4 then complexAt num rtw k
  else
    let w := complexAt num rtw (n / 2 - k)
    (num.neg w.1, w.2)

/-- `cmul` (R16): four products, one difference, one sum, in that association, always performed in full. -/
def cmul {α : Type} (num : Num α) (k : Site) (a w : α × α) : α × α :=
  (num.sub (k.sub 4) (num.mul (k.sub 0) a.1 w.1) (num.mul (k.sub 1) a.2 w.2),
   num.add (k.sub 5) (num.mul (k.sub 2) a.1 w.2) (num.mul (k.sub 3) a.2 w.1))

end Sys2Proof.Machine
end

