-- ==== Sys2Proof/Machine/ComplexFft.lean ====
section
/-! DEFINITION. The complex FFT engine: the procedure `CFFT` (R101 to R105) over any number type, and the meanings of
`FFT.F` (R106) and `FFT.I` (R107). -/

namespace Sys2Proof.Machine

/-- The butterfly of elements `a` and `b = a + s` (R102): both new elements are computed from the old ones. -/
def butterfly {α : Type} (num : Num α) (k : Site) (w : α × α) (s a : Nat) (A : List α) : List α :=
  let za := complexAt num A a
  let zb := complexAt num A (a + s)
  let sum := (num.add (k.sub 6) za.1 zb.1, num.add (k.sub 7) za.2 zb.2)
  let diff := (num.sub (k.sub 8) za.1 zb.1, num.sub (k.sub 9) za.2 zb.2)
  setComplex (setComplex A a sum) (a + s) (cmul num k diff w)

/-- The stage of stride `s` on `m` complex elements (R103): groups of `2s` elements, `s` butterflies in each. -/
def stage {α : Type} (num : Num α) (k : Site) (tw : List α) (d : Dir) (m s : Nat) (A : List α) : List α :=
  (List.range (m / (2 * s))).foldl (fun A t =>
    (List.range s).foldl (fun A i =>
      butterfly num ((k.sub s).sub (2 * s * t + i)) (twiddle num tw d s i) s (2 * s * t + i) A) A) A

/-- The strides `M/2, M/4, ..., 1` of the `log2(M)` stages (R103). -/
def strides (m : Nat) : List Nat := (List.range (Nat.log2 m)).map fun t => m / 2 ^ (t + 1)

/-- Exchanges complex elements `p` and `q` (R104). -/
def exchange {α : Type} (num : Num α) (p q : Nat) (A : List α) : List α :=
  setComplex (setComplex A p (complexAt num A q)) q (complexAt num A p)

/-- The bit-reversal permutation read from a ROM: word 0 is the number of pairs (R104, R23). -/
def permute {α : Type} (num : Num α) (br : List Word) (A : List α) : List α :=
  (List.range (br.getD 0 0).toNat).foldl (fun A t =>
    exchange num (br.getD (1 + 2 * t) 0).toNat (br.getD (2 + 2 * t) 0).toNat A) A

/-- `CFFT(M, d, A)` with the permutation ROM of that size (R105). -/
def cfft {α : Type} (num : Num α) (k : Site) (tw : List α) (br : List Word) (m : Nat) (d : Dir) (A : List α) : List α :=
  permute num br ((strides m).foldl (fun A s => stage num k tw d m s A) A)

/-- The effect of a complex transform: the source words transformed, stored in the destination (R106 to R108). The copy to
the destination and the in-place transform of the rule give the same words. -/
def State.complexTransform (s : State) (d : Dir) (dst src : Buf) : State :=
  let A := s.words (Arr.ofBuf src) (2 * s.params.n)
  s.setWords (Arr.ofBuf dst) (cfft s.num s.site s.rom.tw s.rom.brn s.params.n d A)

/-- `FFT.F dst, src` (R106). -/
def execFftF (dst src : Buf) (s : State) : Host.Outcome State Fault Refusal :=
  .next (s.complexTransform .forward dst src).finish

/-- `FFT.I dst, src` (R107): no division by `N`. -/
def execFftI (dst src : Buf) (s : State) : Host.Outcome State Fault Refusal :=
  .next (s.complexTransform .inverse dst src).finish

end Sys2Proof.Machine
end

