-- ==== Sys2Proof/Machine/Control.lean ====
section
/-! DEFINITION. The meaning of `NOP`. -/

namespace Sys2Proof.Machine

/-- `NOP` (R86): its one engine step changes nothing but `SEQ <- Idle`, `DONE <- 1`. -/
def execNop (s : State) : Host.Outcome State Fault Refusal := .next s.finish

end Sys2Proof.Machine
end

