-- ==== Sys2Proof/Machine/Rings.lean ====
section
/-! DEFINITION. The ring primitives the block commands are made of (R125 to R127). They never check the cursors (R128). -/

namespace Sys2Proof.Machine

/-- `InPush(v)`: `INRING[IN_WR] <- v`, then the cursor advances by one (R125). -/
def State.inPush (s : State) (v : Word) : State :=
  { s.setWord .inring s.inWr v with inWr := ringIndex s.inWr 1 s.params.cIn }

/-- `OutSkip()`: only the overlap-add cursor advances, by the hop size (R126). -/
def State.outSkip (s : State) : State :=
  { s with outWr := ringIndex s.outWr s.params.h s.params.cOut }

/-- Adds sample `n` of a frame to its ring word: the old word is the left operand (R126). -/
def State.outAddSample (s : State) (k : Site) (f : List Word) (n : Nat) (m : Memory) : Memory :=
  let a := Arr.addr .outring (ringIndex s.outWr n s.params.cOut)
  m.writeWord a (s.num.add (k.sub n) (m.readWord a) (f.getD n 0))

/-- `OutAddFrame(f)`: the `N` samples in order, then the cursor advances (R126). -/
def State.outAddFrame (s : State) (k : Site) (f : List Word) : State :=
  State.outSkip { s with mem := (List.range s.params.n).foldl (fun m n => s.outAddSample k f n m) s.mem }

/-- One sample of the drain: `OUTBLK[j] <- fmul(OutTake(p), g)` with `p = (OUT_RD + j) mod C_out`; `OutTake` returns the ring
word and leaves `+0` (R127, R143). -/
def State.outTakeSample (s : State) (k : Site) (g : Word) (j : Nat) (m : Memory) : Memory :=
  let p := Arr.addr .outring (ringIndex s.outRd j s.params.cOut)
  (m.writeWord (Arr.addr .outblk j) (s.num.mul (k.sub j) (m.readWord p) g)).writeWord p 0

/-- The drain of one block with gains `g`, then the read cursor advances by the block size (R143). -/
def State.outDrain (s : State) (k : Site) (g : List Word) : State :=
  { s with
    mem := (List.range s.params.b).foldl (fun m j => s.outTakeSample k (g.getD j 0) j m) s.mem
    outRd := ringIndex s.outRd s.params.b s.params.cOut }

end Sys2Proof.Machine
end

