-- ==== Sys2Proof/Machine/Pipeline.lean ====
section
/-! DEFINITION. The hop-scheduled resynthesis pipeline (R132 to R143) and the meanings of `BLOCK` (R144) and `BLOCKV` (R145),
each one engine step of the command: a sample step or the drain step, as `SEQ` says. -/

namespace Sys2Proof.Machine

/-- The spectrum of one hop (R137 to R139): real slot the windowed magnitude, imaginary slot the phase value. -/
def hopSpectrum {α : Type} (num : Num α) (k : Site) (win : List α) (n : Nat) (bound : α) (mag : List α) (u : List α) :
    List α :=
  interleave ((List.range n).map fun j =>
    (num.mul ((k.sub 1).sub j) (mag.getD j num.zero) (win.getD j num.zero),
     num.mul ((k.sub 0).sub j) bound (u.getD j num.zero)))

/-- Steps a to e of one hop: the frame of `N` real samples (R137 to R141). `u` are the draws of the hop. -/
def hopFrame {α : Type} (num : Num α) (k : Site) (tw : List α) (br : List Word) (win : List α) (n : Nat) (bound : α)
    (mag : List α) (u : List α) : List α :=
  let S := cfft num (k.sub 2) tw br n .inverse (hopSpectrum num k win n bound mag u)
  (List.range n).map fun j => num.div ((k.sub 3).sub j) (S.getD (2 * j) num.zero) (num.ofNat n)

/-- The draws `u_0 .. u_{N-1}` of the hop of this step (R137, U4). -/
def State.hopDraws (s : State) : List Word :=
  (List.range s.params.n).map fun j => F32.ofDraw (Config.phaseDraw s.draws j)

/-- A vector of the right length has been published (R136). -/
def State.feedAvailable (s : State) : Bool := s.magValid && s.magLen.toNat = s.params.n

/-- The frame of the hop that fires in this state (R135). -/
def State.frame (s : State) : List Word :=
  hopFrame s.num s.site s.rom.tw s.rom.brn s.rom.win s.params.n s.phaseBound
    (s.words s.activeBank s.params.n) s.hopDraws

/-- `Resynth()` (R135): without an available vector the hop is skipped and the cursor moves on all the same (R136). -/
def State.resynth (s : State) : State :=
  if s.feedAvailable then s.outAddFrame (s.site.sub 4) s.frame else (s.raise .hopskip).outSkip

/-- `HOP_CNT <- HOP_CNT + 1`; at `H` it returns to 0 and the hop fires (R133). -/
def State.countHop (s : State) : State :=
  if s.hopCnt + 1 = s.params.h then State.resynth { s with hopCnt := 0 } else { s with hopCnt := s.hopCnt + 1 }

/-- Sample step `Sample(j)` less the move of the sequencer (R133). -/
def State.sampleStep (s : State) (j : Nat) : State := (s.inPush (s.word .inblk j)).countHop

/-- The scalar gain, the same for every sample of the block (R143). -/
def State.scalarGain (s : State) : List Word := List.replicate s.params.b s.gain

/-- The per-sample gain `GAINV[0 .. B-1]` (R143, R145). -/
def State.vectorGain (s : State) : List Word := s.words .gainv s.params.b

/-- After `Sample(j)` comes `Sample(j+1)` if `j + 1 < B`, else `Drain` (R84). -/
def nextPhase (b j : Nat) : Phase := if j + 1 < b then .sample (j + 1) else .drain

/-- One engine step of the block command `i` with gains `g` (R84, R133, R143). Where `SEQ` is at no phase of a block
command there is no such step (R43, log 13). -/
def State.blockStep (s : State) (i : Instr) (g : List Word) : Host.Outcome State Fault Refusal :=
  match s.seq with
  | .run _ (.sample j) =>
    if j < s.params.b then .next { s.sampleStep j with seq := .run i (nextPhase s.params.b j) } else .fault .noEngineStep
  | .run _ .drain => .next (s.outDrain s.site g).finish
  | .run _ .exec => .fault .noEngineStep
  | .idle => .fault .noEngineStep

/-- `BLOCK` (R144): gains are the register `GAIN`, read at the start of the drain step. -/
def execBlock (s : State) : Host.Outcome State Fault Refusal := s.blockStep .block s.scalarGain

/-- `BLOCKV` (R145): gains are `GAINV`. -/
def execBlockv (s : State) : Host.Outcome State Fault Refusal := s.blockStep .blockv s.vectorGain

end Sys2Proof.Machine
end

