-- ==== Sys2Proof/Machine/RealFft.lean ====
section
/-! DEFINITION. The real FFT engine over a half-size complex transform (R115 to R119, R121) and the meanings of `RFFT.F`
and `RFFT.I`. -/

namespace Sys2Proof.Machine

/-- Bin `k` of the forward transform from the half-size transform `Z` (R118): `X[k] = E + w O`. -/
def unpackBin {α : Type} (num : Num α) (k0 : Site) (rtw : List α) (n : Nat) (Z : List α) (k : Nat) : α × α :=
  let z := complexAt num Z k
  let y := complexAt num Z (n / 2 - k)
  let er := num.mul (k0.sub 11) num.half (num.add (k0.sub 10) z.1 y.1)
  let ei := num.mul (k0.sub 13) num.half (num.sub (k0.sub 12) z.2 y.2)
  let odr := num.mul (k0.sub 15) num.half (num.add (k0.sub 14) z.2 y.2)
  let odi := num.mul (k0.sub 17) num.half (num.sub (k0.sub 16) y.1 z.1)
  let p := cmul num k0 (odr, odi) (rotationCoeff num rtw n k)
  (num.add (k0.sub 18) er p.1, num.add (k0.sub 19) ei p.2)

/-- The packed spectrum of `n` real samples (R116, R118): `(DC, Nyquist)`, then bins `1 .. N/2-1`. -/
def realForward {α : Type} (num : Num α) (k : Site) (tw : List α) (brh : List Word) (rtw : List α) (n : Nat)
    (x : List α) : List α :=
  let Z := cfft num (k.sub 0) tw brh (n / 2) .forward x
  let z := complexAt num Z 0
  interleave ((num.add (k.sub 1) z.1 z.2, num.sub (k.sub 2) z.1 z.2) ::
    (List.range (n / 2 - 1)).map fun t => unpackBin num ((k.sub 3).sub (t + 1)) rtw n Z (t + 1))

/-- Element `k` of the half-size spectrum from the packed spectrum `P` (R119): `Z[k] = S + j conj(w) D`. -/
def packBin {α : Type} (num : Num α) (k0 : Site) (rtw : List α) (n : Nat) (P : List α) (k : Nat) : α × α :=
  let x := complexAt num P k
  let y := complexAt num P (n / 2 - k)
  let sr := num.add (k0.sub 10) x.1 y.1
  let si := num.sub (k0.sub 11) x.2 y.2
  let dr := num.sub (k0.sub 12) x.1 y.1
  let di := num.add (k0.sub 13) x.2 y.2
  let w := rotationCoeff num rtw n k
  let t := cmul num k0 (dr, di) (w.1, num.neg w.2)
  (num.sub (k0.sub 14) sr t.2, num.add (k0.sub 15) si t.1)

/-- The `n` real samples of a packed spectrum, scaled by `N` (R119). -/
def realInverse {α : Type} (num : Num α) (k : Site) (tw : List α) (brh : List Word) (rtw : List α) (n : Nat)
    (P : List α) : List α :=
  let p := complexAt num P 0
  let Z := interleave ((num.add (k.sub 1) p.1 p.2, num.sub (k.sub 2) p.1 p.2) ::
    (List.range (n / 2 - 1)).map fun t => packBin num ((k.sub 3).sub (t + 1)) rtw n P (t + 1))
  cfft num (k.sub 0) tw brh (n / 2) .inverse Z

/-- The effect of `RFFT.F`: words `0 .. N-1` of the source read, words `0 .. N-1` of the destination written (R118). -/
def State.realForwardTransform (s : State) (dst src : Buf) : State :=
  s.setWords (Arr.ofBuf dst) (realForward s.num s.site s.rom.tw s.rom.brh s.rom.rtw s.params.n
    (s.words (Arr.ofBuf src) s.params.n))

/-- The effect of `RFFT.I` (R119). -/
def State.realInverseTransform (s : State) (dst src : Buf) : State :=
  s.setWords (Arr.ofBuf dst) (realInverse s.num s.site s.rom.tw s.rom.brh s.rom.rtw s.params.n
    (s.words (Arr.ofBuf src) s.params.n))

/-- `RFFT.F dst, src` (R118). -/
def execRfftF (dst src : Buf) (s : State) : Host.Outcome State Fault Refusal :=
  .next (s.realForwardTransform dst src).finish

/-- `RFFT.I dst, src` (R119). -/
def execRfftI (dst src : Buf) (s : State) : Host.Outcome State Fault Refusal :=
  .next (s.realInverseTransform dst src).finish

end Sys2Proof.Machine
end

