-- ==== Sys2Proof/Machine/Dispatch.lean ====
section
/-! DEFINITION. One engine step of a command: one arm per constructor of Instr (R84). -/

namespace Sys2Proof.Machine

def exec (i : Instr) (s : State) : Host.Outcome State Fault Refusal :=
  match i with
  | .nop => Sys2Proof.Machine.execNop s
  | .fftF dst src => Sys2Proof.Machine.execFftF dst src s
  | .fftI dst src => Sys2Proof.Machine.execFftI dst src s
  | .rfftF dst src => Sys2Proof.Machine.execRfftF dst src s
  | .rfftI dst src => Sys2Proof.Machine.execRfftI dst src s
  | .block => Sys2Proof.Machine.execBlock s
  | .blockv => Sys2Proof.Machine.execBlockv s

end Sys2Proof.Machine
end

