-- ==== Sys2Proof/Machine/Step.lean ====
section
/-! DEFINITION. One step of the machine: the first event of the agenda, or a turn of the engine (R12, R69, log 8). -/

namespace Sys2Proof.Machine

/-- A turn of the engine: its step if one is enabled, else nothing happens (R69 item c, R84, R169, log 9). -/
def State.engineTurn (s : State) : Host.Outcome State Fault Refusal :=
  match s.enabled with
  | some i => exec i s.tick
  | none => .next s

/-- One event of the schedule (R12, R167). -/
def State.perform (s : State) : Event → Host.Outcome State Fault Refusal
  | .host t => .next (s.tick.transact t)
  | .producer t => .next (s.tick.transact t)
  | .engine => s.engineTurn
  | .reset contents => .next (s.tick.resetInput contents)

/-- The first event of the agenda; when none is left the engine goes on (R69, R181, log 8). -/
def step (s : State) : Host.Outcome State Fault Refusal :=
  match s.agenda with
  | [] => s.engineTurn
  | e :: rest => (s.withAgenda rest).perform e

/-- The bus address of `CMD` (R39). -/
def cmdAddr : BusAddr := 0x000020#24

/-- `s` with the word placed as the command whose engine step is the very next step (log 12): the state right after the
acceptance of the word (R84 case 4), with the engine's turn first on the agenda. A word that is no command is placed as the
host's write to `CMD`, which the very next step performs and refuses (R84 case 3). -/
def State.withFetchWord (s : State) (nbits w : Nat) : State :=
  match decodeTableWord nbits w with
  | some i => (s.accept (BitVec.ofNat 32 (w % 2 ^ nbits)) i).withAgenda (.engine :: s.agenda)
  | none => s.withAgenda (.host (.write .word cmdAddr (BitVec.ofNat 32 (w % 2 ^ nbits))) :: s.agenda)

end Sys2Proof.Machine
end

