-- ==== Sys2Proof/Machine/Reference.lean ====
section
/-! DEFINITION. The exact reference that claims compare the machine with (R17): the value of a binary32 word and correct
rounding of a real number (R15), the formulas of the ROMs (R22 to R26) and their named properties (R27), and the numerics
record over a field, in which the transforms compute without rounding. No step of the machine uses this file. -/

namespace Sys2Proof

/-- The value of a finite word, a rational number (R15). -/
def F32.value (w : Word) : ℚ := (F32.ival w : ℚ) / 2 ^ 149

/-- `w` is a finite word nearest to the real number `r`: no finite word is nearer, and a tie goes to the even word (R15). It
leaves the sign of a zero open. -/
structure F32.IsNearest (r : ℝ) (w : Word) : Prop where
  finite : F32.isFinite w = true
  nearest : ∀ v, F32.isFinite v = true → |(F32.value w : ℝ) - r| ≤ |(F32.value v : ℝ) - r|
  even : ∀ v, F32.isFinite v = true → F32.value v ≠ F32.value w →
    |(F32.value v : ℝ) - r| = |(F32.value w : ℝ) - r| → F32.mag w % 2 = 0

/-- `w = rnd(r)` for a real number that does not overflow (R15): a nearest word whose sign bit is that of `r`. -/
structure F32.IsRounding (r : ℝ) (w : Word) : Prop extends F32.IsNearest r w where
  signBit : F32.sign w = true ↔ r < 0

/-- Word `i` of a table. -/
def tableWord (l : List Word) (i : Nat) : Word := l.getD i 0

/-- The formulas of R22 to R26 for size `n`. -/
structure Rom.Formula (n : Nat) (rom : Rom) : Prop where
  twLength : rom.tw.length = 2 * n
  twFiller : tableWord rom.tw 0 = 0x3F800000#32 ∧ tableWord rom.tw 1 = 0x00000000#32
  twEntry : ∀ t i, i < 2 ^ t → 2 ^ t + i < n →
    F32.IsRounding (Real.cos (Real.pi * i / 2 ^ t)) (tableWord rom.tw (2 * (2 ^ t + i))) ∧
    F32.IsRounding (Real.sin (Real.pi * i / 2 ^ t)) (tableWord rom.tw (2 * (2 ^ t + i) + 1))
  brnWords : rom.brn = reversalRom n
  brhWords : rom.brh = reversalRom (n / 2)
  rtwLength : rom.rtw.length = n / 2 + 2
  rtwEntry : ∀ i, i ≤ n / 4 →
    F32.IsRounding (Real.cos (2 * Real.pi * i / n)) (tableWord rom.rtw (2 * i)) ∧
    F32.IsRounding (Real.sin (2 * Real.pi * i / n)) (tableWord rom.rtw (2 * i + 1))
  winLength : rom.win.length = n
  winEntry : ∀ k, k < n →
    F32.IsRounding (1 / 2 - 1 / 2 * Real.cos (2 * Real.pi * k / n)) (tableWord rom.win k)

/-- The properties P2 to P5 of R27 and the finiteness of P1. -/
structure Rom.Named (n : Nat) (rom : Rom) : Prop where
  finiteWords : ∀ w, w ∈ rom.tw ∨ w ∈ rom.rtw ∨ w ∈ rom.win → F32.isFinite w = true
  twZero : ∀ t, 2 ^ t < n →
    tableWord rom.tw (2 * 2 ^ t) = 0x3F800000#32 ∧ tableWord rom.tw (2 * 2 ^ t + 1) = 0x00000000#32
  twQuarter : ∀ t, 2 ^ (t + 1) < n →
    tableWord rom.tw (2 * (2 ^ (t + 1) + 2 ^ t)) = 0x00000000#32 ∧
    tableWord rom.tw (2 * (2 ^ (t + 1) + 2 ^ t) + 1) = 0x3F800000#32
  twSineSign : ∀ a, a < n → F32.sign (tableWord rom.tw (2 * a + 1)) = false
  unitMagnitude : ∀ w, w ∈ rom.tw ∨ w ∈ rom.rtw → F32.mag w ≤ 0x3F800000
  rtwZero : tableWord rom.rtw 0 = 0x3F800000#32 ∧ tableWord rom.rtw 1 = 0x00000000#32
  rtwQuarter : tableWord rom.rtw (2 * (n / 4)) = 0x00000000#32 ∧ tableWord rom.rtw (2 * (n / 4) + 1) = 0x3F800000#32
  winZero : tableWord rom.win 0 = 0x00000000#32
  winHalf : tableWord rom.win (n / 2) = 0x3F800000#32
  winQuarters : tableWord rom.win (n / 4) = 0x3F000000#32 ∧ tableWord rom.win (3 * (n / 4)) = 0x3F000000#32
  winSymmetric : ∀ k, 1 ≤ k → k < n → tableWord rom.win k = tableWord rom.win (n - k)

/-- Arithmetic without rounding, over a field (R17, D4). -/
def Num.exact (K : Type) [Field K] : Num K where
  add := fun _ a b => a + b
  sub := fun _ a b => a - b
  mul := fun _ a b => a * b
  div := fun _ a b => a / b
  neg := fun a => -a
  zero := 0
  half := 1 / 2
  ofNat := fun n => (n : K)

/-- A twiddle table without rounding for transforms of size `m` (R22). -/
def ExactTwiddles (m : Nat) (tw : List ℝ) : Prop :=
  ∀ t i, i < 2 ^ t → 2 ^ t < m →
    Machine.complexAt (Num.exact ℝ) tw (2 ^ t + i) = (Real.cos (Real.pi * i / 2 ^ t), Real.sin (Real.pi * i / 2 ^ t))

/-- A rotation table without rounding for transforms of `n` reals (R25). -/
def ExactRotations (n : Nat) (rtw : List ℝ) : Prop :=
  ∀ i, i ≤ n / 4 →
    Machine.complexAt (Num.exact ℝ) rtw i = (Real.cos (2 * Real.pi * i / n), Real.sin (2 * Real.pi * i / n))

/-- The sign `d` of the kernel (R101, R110). -/
def Dir.sign : Dir → ℤ
  | .forward => 1
  | .inverse => -1

/-- Complex element `k` of a list of real words as a complex number. -/
def complexNumberAt (A : List ℝ) (k : Nat) : ℂ := ⟨A.getD (2 * k) 0, A.getD (2 * k + 1) 0⟩

end Sys2Proof
end

