-- ==== Sys2Proof/Safety.lean ====
section
/-! DEFINITION. What claims mean by a good state: the invariants of R43, R46 and R47 and the canonical form of memory. -/

namespace Sys2Proof.Machine

/-- The commands whose engine steps are sample and drain steps (R43). -/
def isBlockCommand : Instr → Bool
  | .block => true
  | .blockv => true
  | .nop => false
  | .fftF _ _ => false
  | .fftI _ _ => false
  | .rfftF _ _ => false
  | .rfftI _ _ => false

/-- `SEQ` is one of the values R43 gives it, on an instance of block size `b`. -/
def Seq.Legal (b : Nat) : Seq → Prop
  | .idle => True
  | .run i .exec => isBlockCommand i = false
  | .run i (.sample j) => isBlockCommand i = true ∧ j < b
  | .run i .drain => isBlockCommand i = true

/-- Every listed cell lies in a word of one of the block's arrays: there is no memory beside them (R20). -/
def Memory.InArrays (p : Params) (m : Memory) : Prop :=
  ∀ c ∈ m, ∃ A ∈ Arr.all, A.holds p c.1 = true

/-- The cursor and counter ranges of R47, on a valid instance. -/
structure State.CursorsInRange (s : State) : Prop where
  inWr_lt : s.inWr < s.params.cIn
  outWr_lt : s.outWr < s.params.cOut
  outRd_lt : s.outRd < s.params.cOut
  hopCnt_lt : s.hopCnt < s.params.h
  outWr_dvd : s.params.h ∣ s.outWr
  outRd_dvd : s.params.b ∣ s.outRd

/-- The invariant of the machine: canonical memory inside the arrays, a legal sequencer state (R43), the cursor ranges (R47),
and `ERR.CFG = 1 - READY` with an engine that never runs where `READY = 0` (R38, R152, R172). -/
structure State.Inv (s : State) : Prop where
  memWf : s.mem.wf = true
  memInArrays : s.mem.InArrays s.params
  seqLegal : s.seq.Legal s.params.b
  cfgBit : s.errorBit .cfg = !s.ready
  idleIfRefused : s.ready = false → s.seq = .idle
  cursors : s.ready = true → s.CursorsInRange

end Sys2Proof.Machine
end

