-- ==== Sys2Proof/Certificates/Slice0/Obligations.lean ====
section
/-! DEFINITION. The statements for the provers, by family: encoding, sequencing, arithmetic, transforms, rings, pipeline, bus,
reset, invariants. Each docstring names the rule it formalises. A statement about a free value holds for every value of
it: no statement rests on a value of an opaque constant of Config, nor on the zeros of State.reset's memory. -/

open Sys2Proof Sys2Proof.Machine

namespace Sys2Proof.Spec

/-! The tables of R62, R42 and R83 written out once more, by region and register NUMBER, for the statements to compare the
machine with. -/

/-- The sizes of regions 0 to 15 in words (R62). -/
def regionSize (p : Params) (r : Nat) : Nat :=
  [16, 2 * p.n, 2 * p.n, p.n, p.b, p.b, p.b, p.cIn, p.cOut, 2 * p.n, 1 + 2 * pairCount p.n, 1 + 2 * pairCount (p.n / 2),
   p.n / 2 + 2, p.n, p.n, 0].getD r 0

/-- The busy-protected regions (R67). -/
def busyProtected (r : Nat) : Prop := r ∈ [1, 2, 4, 5, 6, 7, 8]

/-- The read-only words: regions 7 to 14, and registers `ID`, `CFG_*`, `STATUS`, `HOP_CNT`, `IN_WR`, `OUT_WR`, `OUT_RD` (R64). -/
def readOnly (r i : Nat) : Prop := (7 ≤ r ∧ r ≤ 14) ∨ (r = 0 ∧ (i ≤ 6 ∨ (11 ≤ i ∧ i ≤ 14)))

/-- Check (1) of R63 on an address with region `r`, index `i` and bits 1:0 `low`; a narrow transaction fails it (R65). -/
def badAddress (s : State) (width : Width) (r i low : Nat) : Prop :=
  width ≠ .word ∨ low ≠ 0 ∨ ¬ i < regionSize s.params r ∨ (r ≠ 0 ∧ s.ready = false)

/-- The numerics record of an instance (R6, R10): binary32 unless its parameters name another, with the constants of the rules. -/
def numerics (s : State) : Num Word :=
  match s.params.num with
  | .binary32 =>
    { add := F32.add, sub := F32.sub, mul := F32.mul, div := F32.div, neg := F32.neg, zero := 0x00000000#32,
      half := 0x3F000000#32, ofNat := fun n => F32.ofRatio false n 1 }
  | .custom k =>
    { toArith := Config.customArith k, zero := 0x00000000#32, half := 0x3F000000#32, ofNat := fun n => F32.ofRatio false n 1 }

/-- What each register reads as, by its index (R35 to R42). -/
def register (s : State) (i : Nat) : Word :=
  [0x53430001#32, BitVec.ofNat 32 s.params.n, BitVec.ofNat 32 s.params.h, BitVec.ofNat 32 s.params.b,
   BitVec.ofNat 32 s.params.cIn, BitVec.ofNat 32 s.params.cOut,
   0#27 ++ BitVec.ofBool s.magActive ++ BitVec.ofBool s.magValid ++ BitVec.ofBool s.done ++
     BitVec.ofBool (decide (s.seq ≠ .idle)) ++ BitVec.ofBool (decide s.params.Valid),
   0#25 ++ s.err, s.lastCmd, s.gain, s.phaseBound,
   BitVec.ofNat 32 s.hopCnt, BitVec.ofNat 32 s.inWr, BitVec.ofNat 32 s.outWr, BitVec.ofNat 32 s.outRd,
   BitVec.ofBool s.magActive ++ BitVec.ofBool s.magValid ++ 0#6 ++ s.magLen].getD i 0

/-- The word that region `r` maps at index `i` (R62). -/
def mappedWord (s : State) (r i : Nat) : Word :=
  match r with
  | 0 => register s i
  | 1 => s.word .x i
  | 2 => s.word .y i
  | 3 => s.word (Arr.bank !s.magActive) i
  | 4 => s.word .inblk i
  | 5 => s.word .outblk i
  | 6 => s.word .gainv i
  | 7 => s.word .inring i
  | 8 => s.word .outring i
  | 9 => s.rom.tw.getD i 0
  | 10 => s.rom.brn.getD i 0
  | 11 => s.rom.brh.getD i 0
  | 12 => s.rom.rtw.getD i 0
  | 13 => s.rom.win.getD i 0
  | 14 => s.word (Arr.bank s.magActive) i
  | _ => 0

/-- The effect of a write that passed its checks (R64 case 3): regions 1 to 6, and the registers that can be written, with
the exceptions of R66 while `READY = 0`. -/
def written (s : State) (r i : Nat) (v : Word) : State :=
  match r, i with
  | 1, i => s.setWord .x i v
  | 2, i => s.setWord .y i v
  | 3, i => s.setWord (Arr.bank !s.magActive) i v
  | 4, i => s.setWord .inblk i v
  | 5, i => s.setWord .outblk i v
  | 6, i => s.setWord .gainv i v
  | 0, 7 => s.clearErrors v
  | 0, 8 => s.offerCommand v
  | 0, 9 => if s.ready then { s with gain := v } else s
  | 0, 10 => if s.ready then { s with phaseBound := v } else s
  | 0, 15 => if s.ready then s.publish v else s
  | _, _ => s

/-- The four causes of R85, on the bits of the word. -/
def illegal (w : Word) : Prop :=
  let op := (w.extractLsb' 24 8).toNat
  op ∉ [0x00, 0x01, 0x02, 0x03, 0x04, 0x10, 0x11] ∨ w.extractLsb' 8 16 ≠ 0 ∨
  (op ∈ [0x00, 0x10, 0x11] ∧ w.extractLsb' 0 8 ≠ 0) ∨
  (op ∈ [0x01, 0x02, 0x03, 0x04] ∧ (2 ≤ (w.extractLsb' 4 4).toNat ∨ 2 ≤ (w.extractLsb' 0 4).toNat))

/-- The address lies outside words `0 .. n-1` of an array. -/
def outside (A : Arr) (n a : Nat) : Prop := a < A.base ∨ A.base + 4 * n ≤ a

/-- The address lies outside word `i` of an array. -/
def outsideWord (A : Arr) (i a : Nat) : Prop := a < A.addr i ∨ A.addr i + 4 ≤ a

/-- `w` is the real number `r` rounded once to binary32 (R10, R15), with sign bit `sign`: the nearest word, ties to even, or infinity
from the midpoint above the largest finite number on (IEEE 754, log 15). -/
def rounded (sign : Bool) (r : ℝ) (w : Word) : Prop :=
  F32.sign w = sign ∧ (|r| < (2 ^ 25 - 1) * 2 ^ 103 → F32.IsNearest r w) ∧ ((2 ^ 25 - 1) * 2 ^ 103 ≤ |r| → F32.mag w = 0x7F800000)

/-- The next phase after sample `j` (R84). -/
def phaseAfter (b j : Nat) : Phase := if j + 1 < b then .sample (j + 1) else .drain

end Sys2Proof.Spec

/-! ### Encoding -/

/-- The command words that R88 writes out, and two more of T7, decode to the commands they stand for. -/
def Obligations.CommandWordsOfTheSpecDecode : Prop :=
  decode 0x01000000#32 = .ok (.fftF .x .x) ∧ decode 0x02000010#32 = .ok (.fftI .y .x) ∧
  decode 0x03000011#32 = .ok (.rfftF .y .y) ∧ decode 0x04000001#32 = .ok (.rfftI .x .y) ∧
  decode 0x10000000#32 = .ok .block ∧ decode 0x11000000#32 = .ok .blockv ∧
  decode 0x00000000#32 = .ok .nop ∧ decode 0x01000001#32 = .ok (.fftF .x .y)

/-- Decoding and encoding are inverse to each other on all words and all commands (R81, R83, R88): no word but its own
decodes to a command, so no bit is dropped. -/
def Obligations.DecodeAndEncodeAreInverse : Prop :=
  ∀ (w : Word) (i : Instr), decode w = .ok i ↔ w = encode i

/-- R85: a word is illegal exactly for the four causes; offered to an idle, ready block it raises `ILLCMD` and has no other
effect. -/
def Obligations.IllegalWordsAreThoseOfTheFourCauses : Prop :=
  ∀ w : Word, ((∃ e, decode w = .error e) ↔ Spec.illegal w) ∧
    ∀ s : State, s.ready = true → s.seq = .idle → Spec.illegal w →
      s.busWrite .word cmdAddr w = { s with err := s.err ||| 0b0000010#7 }

/-! ### Acceptance and sequencing -/

/-- R153, R154, R158: the three refusals of a word written to `CMD` each set one bit and nothing else; a word while busy is not
decoded, and nothing is decoded while `READY = 0`. -/
def Obligations.RefusedCommandsSetOneErrorBit : Prop :=
  ∀ (s : State) (w : Word),
    (s.ready = false → s.busWrite .word cmdAddr w = { s with err := s.err ||| 0b1000000#7 }) ∧
    (s.ready = true → s.seq ≠ .idle → s.busWrite .word cmdAddr w = { s with err := s.err ||| 0b0000100#7 }) ∧
    (s.ready = true → s.seq = .idle → (∀ i, decode w ≠ .ok i) →
      s.busWrite .word cmdAddr w = { s with err := s.err ||| 0b0000010#7 })

/-- R84 case 4: an accepted command becomes `LASTCMD`, clears `DONE` and starts at `Sample(0)` for a block command, else at
`Exec`; nothing else changes. -/
def Obligations.AcceptedCommandStartsAtItsFirstPhase : Prop :=
  ∀ (s : State) (w : Word) (i : Instr), s.ready = true → s.seq = .idle → decode w = .ok i →
    s.busWrite .word cmdAddr w =
      { s with lastCmd := w, done := false,
               seq := .run i (if i = .block ∨ i = .blockv then .sample 0 else .exec) }

/-- A step runs the decoded command. (1) While `SEQ = Run(i, _)` on a ready instance, a turn of the engine (named by the agenda, or
taken when the agenda is used up) is `exec i`, with that event taken off the agenda and the counter of free values moved on.
(2) A word placed by `withFetchWord` that decodes to `i` is run by the very next step. (3) A word written to `CMD` of an idle ready
block by either master is accepted, and the engine's next turn runs it. -/
def Obligations.StepRunsTheDecodedCommand : Prop :=
  (∀ (s : State) (i : Instr) (p : Phase) (rest : List Event), s.ready = true → s.seq = .run i p →
    (s.agenda = .engine :: rest ∨ (s.agenda = [] ∧ rest = [])) →
    step s = exec i { s with agenda := rest, draws := s.draws + 1 }) ∧
  (∀ (s : State) (w : Word) (i : Instr), s.ready = true → decode w = .ok i →
    step (s.withFetchWord 32 w.toNat) = exec i { s.accept w i with draws := s.draws + 1 }) ∧
  (∀ (s : State) (w : Word) (i : Instr) (e : Event) (rest : List Event), s.ready = true → s.seq = .idle → decode w = .ok i →
    (e = .host (.write .word cmdAddr w) ∨ e = .producer (.write .word cmdAddr w)) → s.agenda = e :: .engine :: rest →
    ∃ t, step s = .next t ∧ step t = exec i { s.accept w i with agenda := rest, draws := s.draws + 2 })

/-- R12, R69: a transaction of either master is one step with the same effect, and the events after it wait. -/
def Obligations.TransactionsAreStepsOfEitherMaster : Prop :=
  ∀ (s : State) (t : Transaction) (rest : List Event),
    (s.agenda = .host t :: rest ∨ s.agenda = .producer t :: rest) →
    step s = .next ({ s with agenda := rest, draws := s.draws + 1 }.transact t)

/-- R169: an idle engine keeps all its state for any length of time. -/
def Obligations.IdleEngineKeepsItsState : Prop :=
  ∀ (s : State), s.seq = .idle → s.agenda = [] → ∀ k, Host.Core.run core k s = .next s

/-- R86: `NOP` changes nothing but `SEQ <- Idle`, `DONE <- 1`; its word is 0; with `SEQ = Idle` the write of 0 to `0x000020` gives
`BUSY = 1, DONE = 0, LASTCMD = 0` and the one engine step after it gives `BUSY = 0, DONE = 1`. -/
def Obligations.NopChangesOnlySeqAndDone : Prop :=
  encode .nop = 0 ∧ (∀ s : State, exec .nop s = .next { s with seq := .idle, done := true }) ∧
  (∀ s : State, s.ready = true → s.seq = .idle →
    ∃ t u, s.busWrite .word 0x000020#24 0 = t ∧ t.busy = true ∧ t.done = false ∧ t.lastCmd = 0 ∧
      t.engineTurn = .next u ∧ u.busy = false ∧ u.done = true)

/-- R43, R69 item c: a block command has an engine step exactly in its own phases; elsewhere the meaning stops by a fault (the model's
choice, log 13). -/
def Obligations.BlockCommandsStopOutsideTheirPhases : Prop :=
  ∀ (s : State) (i : Instr), i = .block ∨ i = .blockv →
    (exec i s = .fault .noEngineStep ↔
      s.seq = .idle ∨ (∃ c, s.seq = .run c .exec) ∨ ∃ c j, s.seq = .run c (.sample j) ∧ s.params.b ≤ j)

/-! ### Binary32 arithmetic -/

/-- R10, R15: `fadd`, `fsub`, `fmul` and `fdiv` of finite operands are the exact sum, difference, product and quotient rounded once, to
nearest, ties to even; a zero sum is `-0` only from two negative zeros, and a product or quotient has the sign of both operands
together. The one rounding itself, in units of `2^-149`, is to nearest, ties to even. That a result is infinite exactly from
the midpoint above the largest finite number on, and the signs of zeros, are those of IEEE 754 (log 15, PRESUMED). -/
def Obligations.RoundingIsToNearestEven : Prop :=
  (∀ num den : Nat, 0 < den →
    let r := F32.roundUnits num den
    let value := fun m : Nat => (F32.units (F32.pack false m) : Int) * den
    (r < F32.infMag →
      (∀ m, m < F32.infMag → |value r - num| ≤ |value m - num|) ∧
      (∀ m, m < F32.infMag → m ≠ r → |value m - num| = |value r - num| → r % 2 = 0)) ∧
    (r = F32.infMag ↔ (2 ^ 25 - 1) * 2 ^ 252 * den ≤ num) ∧ r ≤ F32.infMag) ∧
  (∀ (k : Site) (a b : Word), F32.isFinite a = true → F32.isFinite b = true →
    let x : ℝ := F32.value a
    let y : ℝ := F32.value b
    Spec.rounded (if x + y = 0 then F32.sign a && F32.sign b else decide (x + y < 0)) (x + y) (F32.add k a b) ∧
    Spec.rounded (if x - y = 0 then F32.sign a && !F32.sign b else decide (x - y < 0)) (x - y) (F32.sub k a b) ∧
    Spec.rounded (F32.sign a != F32.sign b) (x * y) (F32.mul k a b) ∧
    (F32.isZero b = false → Spec.rounded (F32.sign a != F32.sign b) (x / y) (F32.div k a b)))

/-- R10, U3: a NaN operand gives a NaN, and every NaN that an operation gives is quiet, whatever its sign and payload. -/
def Obligations.NanResultsAreQuiet : Prop :=
  ∀ (k : Site) (a b : Word), ∀ op ∈ [F32.add, F32.sub, F32.mul, F32.div],
    ((F32.isNaN a = true ∨ F32.isNaN b = true) → F32.isNaN (op k a b) = true) ∧
    (F32.isNaN a = false → F32.isNaN b = false → F32.isNaN (op k a b) = true → (op k a b).getLsbD 22 = true) ∧
    ((F32.isNaN a = true ∨ F32.isNaN b = true) → (op k a b).getLsbD 22 = true)

/-- R130: adding `+0` or `-0` to a word that is neither a zero nor a NaN leaves it, and `fadd(+0, -0) = +0`. -/
def Obligations.AddingZeroKeepsANonzeroWord : Prop :=
  (∀ (k : Site) (v z : Word), F32.isNaN v = false → F32.isZero v = false → F32.isZero z = true → F32.add k v z = v) ∧
  (∀ k : Site, F32.add k 0x00000000#32 0x80000000#32 = 0x00000000#32)

/-- R141: dividing by `rnd(N)`, `N` a power of two up to `2^16`, only lowers the exponent, where the quotient stays normal. -/
def Obligations.DividingByTheSizeLowersTheExponent : Prop :=
  ∀ (k : Site) (t : Nat) (w : Word), t ≤ 16 → F32.isFinite w = true → t < F32.mag w / 2 ^ 23 →
    F32.div k w (Num.binary32.ofNat (2 ^ t)) = w - BitVec.ofNat 32 (t * 2 ^ 23)

/-! ### Tables -/

/-- T3: the ROMs computed for `N = 4` and `N = 8` are the words the spec prints. -/
def Obligations.BuiltTablesAreThoseOfTheSpec : Prop :=
  Rom.build 4 =
    { tw := [0x3F800000, 0, 0x3F800000, 0, 0x3F800000, 0, 0, 0x3F800000], brn := [1, 1, 2], brh := [0],
      rtw := [0x3F800000, 0, 0, 0x3F800000], win := [0, 0x3F000000, 0x3F800000, 0x3F000000] } ∧
  Rom.build 8 =
    { tw := [0x3F800000, 0, 0x3F800000, 0, 0x3F800000, 0, 0, 0x3F800000, 0x3F800000, 0, 0x3F3504F3, 0x3F3504F3, 0,
             0x3F800000, 0xBF3504F3, 0x3F3504F3],
      brn := [2, 1, 4, 3, 6], brh := [1, 1, 2],
      rtw := [0x3F800000, 0, 0x3F3504F3, 0x3F3504F3, 0, 0x3F800000],
      win := [0, 0x3E15F61A, 0x3F000000, 0x3F5A827A, 0x3F800000, 0x3F5A827A, 0x3F000000, 0x3E15F61A] }

/-- R27: tables whose words are the rounded values of the formulas of R22 to R26 have the named properties P1 to P5. -/
def Obligations.FormulaTablesHaveTheNamedProperties : Prop :=
  ∀ (t : Nat) (rom : Rom), 2 ≤ t → t ≤ 16 → rom.Formula (2 ^ t) → rom.Named (2 ^ t)

/-- R23, R27 P6: the pairs are `(p, rev(p))` with `p < rev(p) < M`, in increasing order of `p`, disjoint, and every `p` with `rev(p) != p` is in exactly one. -/
def Obligations.ReversalPairsAreDisjointAndComplete : Prop :=
  ∀ n : Nat,
    (reversalPairs (2 ^ n)).Pairwise (fun a b => a.1 < b.1) ∧
    (∀ pq ∈ reversalPairs (2 ^ n), pq.2 = bitReverse n pq.1 ∧ pq.1 < pq.2 ∧ pq.2 < 2 ^ n) ∧
    (reversalPairs (2 ^ n)).Pairwise (fun a b => a.1 ≠ b.1 ∧ a.1 ≠ b.2 ∧ a.2 ≠ b.1 ∧ a.2 ≠ b.2) ∧
    (∀ p, p < 2 ^ n → bitReverse n p ≠ p → ∃! pq, pq ∈ reversalPairs (2 ^ n) ∧ (p = pq.1 ∨ p = pq.2))

/-- R23: the number of pairs is `P_N = (N - 2^ceil(n/2)) / 2`. -/
def Obligations.PairCountIsTheNumberOfPairs : Prop :=
  ∀ n : Nat, (reversalPairs (2 ^ n)).length = (2 ^ n - 2 ^ ((n + 1) / 2)) / 2 ∧
    pairCount (2 ^ n) = (reversalPairs (2 ^ n)).length

/-! ### The complex transform -/

/-- R102, R16: a butterfly gives element `a` the sum and element `a + s` the product of the difference with the twiddle, both from the
old elements, in the association of `cmul`; no other element changes. -/
def Obligations.ButterflyUpdatesItsTwoElements : Prop :=
  ∀ (α : Type) (num : Num α) (k : Site) (wr wi : α) (s a : Nat) (A : List α), 1 ≤ s → 2 * (a + s) + 1 < A.length →
    ∃ k' : Nat → Site, ∀ (ar ai br bi : α),
      complexAt num A a = (ar, ai) → complexAt num A (a + s) = (br, bi) →
      let B := butterfly num k (wr, wi) s a A
      complexAt num B a = (num.add (k' 0) ar br, num.add (k' 1) ai bi) ∧
      complexAt num B (a + s) =
        (num.sub (k' 2) (num.mul (k' 3) (num.sub (k' 4) ar br) wr) (num.mul (k' 5) (num.sub (k' 6) ai bi) wi),
         num.add (k' 7) (num.mul (k' 8) (num.sub (k' 4) ar br) wi) (num.mul (k' 9) (num.sub (k' 6) ai bi) wr)) ∧
      (∀ j, j ≠ a → j ≠ a + s → complexAt num B j = complexAt num A j) ∧ B.length = A.length

/-- R104: after the permutation, element `p` is what element `rev(p)` was, and the words beyond the `M` elements stay. -/
def Obligations.PermutationPutsEachElementAtItsBitReversal : Prop :=
  ∀ (α : Type) (num : Num α) (n : Nat) (A : List α), n ≤ 16 → 2 * 2 ^ n ≤ A.length →
    (∀ p, p < 2 ^ n →
      complexAt num (permute num (reversalRom (2 ^ n)) A) p = complexAt num A (bitReverse n p)) ∧
    (∀ i d, 2 * 2 ^ n ≤ i → (permute num (reversalRom (2 ^ n)) A).getD i d = A.getD i d)

/-- R105: `CFFT` reads and writes words `0 .. 2M-1` of its array and no other: what follows them neither changes nor matters. -/
def Obligations.CfftReadsAndWritesOnlyItsWords : Prop :=
  ∀ (α : Type) (num : Num α) (k : Site) (tw : List α) (n : Nat) (d : Dir) (A B : List α), n ≤ 16 → A.length = 2 * 2 ^ n →
    cfft num k tw (reversalRom (2 ^ n)) (2 ^ n) d (A ++ B) = cfft num k tw (reversalRom (2 ^ n)) (2 ^ n) d A ++ B

/-- R110: over the real numbers, with exact twiddles, `CFFT(M, d, A)` replaces the `M` complex numbers by the Fourier sums with
kernel `e^(d j 2 pi n k / M)`. -/
def Obligations.CfftComputesTheFourierSum : Prop :=
  ∀ (n : Nat) (k : Site) (tw A : List ℝ) (d : Dir), 1 ≤ n → n ≤ 16 → ExactTwiddles (2 ^ n) tw → 2 * 2 ^ n ≤ A.length →
    ∀ b, b < 2 ^ n →
      complexNumberAt (cfft (Num.exact ℝ) k tw (reversalRom (2 ^ n)) (2 ^ n) d A) b =
        ∑ m ∈ Finset.range (2 ^ n),
          complexNumberAt A m * Complex.exp (d.sign * Complex.I * 2 * Real.pi * m * b / 2 ^ n)

/-- R106, R107: `FFT.F dst, src` and `FFT.I dst, src` always complete, and in their one step leave in the destination the transform
of the `2N` words of the source, in direction `+1` and `-1`; `DONE` is set and `BUSY` cleared; nothing else changes, and no byte
outside the destination. Their words are format `T` with op `0x01` and `0x02`. -/
def Obligations.ComplexTransformsStoreTheTransformOfTheSource : Prop :=
  ∀ (s : State) (dst src : Buf), s.ready = true →
    (∃ m : Memory, exec (.fftF dst src) s = .next { s with mem := m, seq := .idle, done := true } ∧
      m.readWords (Arr.ofBuf dst).base (2 * s.params.n) =
        cfft (Spec.numerics s) s.site s.rom.tw s.rom.brn s.params.n .forward (s.words (Arr.ofBuf src) (2 * s.params.n)) ∧
      ∀ a, Spec.outside (Arr.ofBuf dst) (2 * s.params.n) a → m.read a = s.mem.read a) ∧
    (∃ m : Memory, exec (.fftI dst src) s = .next { s with mem := m, seq := .idle, done := true } ∧
      m.readWords (Arr.ofBuf dst).base (2 * s.params.n) =
        cfft (Spec.numerics s) s.site s.rom.tw s.rom.brn s.params.n .inverse (s.words (Arr.ofBuf src) (2 * s.params.n)) ∧
      ∀ a, Spec.outside (Arr.ofBuf dst) (2 * s.params.n) a → m.read a = s.mem.read a) ∧
    encode (.fftF dst src) = 0x01#8 ++ 0#16 ++ dst.selector ++ src.selector ∧
    encode (.fftI dst src) = 0x02#8 ++ 0#16 ++ dst.selector ++ src.selector

/-- R108: out of place the source is bit for bit unchanged, and the destination holds exactly what an in-place transform of a copy
in the destination would hold. -/
def Obligations.OutOfPlaceTransformsKeepTheSource : Prop :=
  ∀ (s : State) (dst src : Buf) (mk : Buf → Buf → Instr), s.ready = true → dst ≠ src → mk = .fftF ∨ mk = .fftI →
    ∃ t u, exec (mk dst src) s = .next t ∧
      exec (mk dst dst) (s.setWords (Arr.ofBuf dst) (s.words (Arr.ofBuf src) (2 * s.params.n))) = .next u ∧
      t.words (Arr.ofBuf src) (2 * s.params.n) = s.words (Arr.ofBuf src) (2 * s.params.n) ∧
      t.words (Arr.ofBuf dst) (2 * s.params.n) = u.words (Arr.ofBuf dst) (2 * s.params.n)

/-- R21: the result of a transform is a function of its source words (`2N` of a complex one, `N` of a real one) and the ROMs: two
states that agree on these, on the parameters and on the free NaN patterns get the same destination words, whatever else differs. -/
def Obligations.TransformResultDependsOnlyOnSourceAndRoms : Prop :=
  ∀ (s s' : State) (dst src : Buf) (mk : Buf → Buf → Instr) (n : Nat), s.ready = true →
    ((mk = .fftF ∨ mk = .fftI) ∧ n = 2 * s.params.n ∨ (mk = .rfftF ∨ mk = .rfftI) ∧ n = s.params.n) →
    s.params = s'.params → s.rom = s'.rom → s.draws = s'.draws →
    (∀ j, j < n → s.word (Arr.ofBuf src) j = s'.word (Arr.ofBuf src) j) →
    ∃ t t', exec (mk dst src) s = .next t ∧ exec (mk dst src) s' = .next t' ∧
      ∀ j, j < n → t.word (Arr.ofBuf dst) j = t'.word (Arr.ofBuf dst) j

/-! ### The real transforms -/

/-- R118, R119: `RFFT.F` and `RFFT.I` always complete; they read words `0 .. N-1` of the source and leave their transform in words
`0 .. N-1` of the destination; `DONE` is set and `BUSY` cleared; nothing else changes, no word from `N` on among it. Their
words are format `T` with op `0x03` and `0x04`. -/
def Obligations.RealTransformsStoreInTheFirstWords : Prop :=
  ∀ (s : State) (dst src : Buf), s.ready = true →
    (∃ m : Memory, exec (.rfftF dst src) s = .next { s with mem := m, seq := .idle, done := true } ∧
      m.readWords (Arr.ofBuf dst).base s.params.n =
        realForward (Spec.numerics s) s.site s.rom.tw s.rom.brh s.rom.rtw s.params.n (s.words (Arr.ofBuf src) s.params.n) ∧
      ∀ a, Spec.outside (Arr.ofBuf dst) s.params.n a → m.read a = s.mem.read a) ∧
    (∃ m : Memory, exec (.rfftI dst src) s = .next { s with mem := m, seq := .idle, done := true } ∧
      m.readWords (Arr.ofBuf dst).base s.params.n =
        realInverse (Spec.numerics s) s.site s.rom.tw s.rom.brh s.rom.rtw s.params.n (s.words (Arr.ofBuf src) s.params.n) ∧
      ∀ a, Spec.outside (Arr.ofBuf dst) s.params.n a → m.read a = s.mem.read a) ∧
    encode (.rfftF dst src) = 0x03#8 ++ 0#16 ++ dst.selector ++ src.selector ∧
    encode (.rfftI dst src) = 0x04#8 ++ 0#16 ++ dst.selector ++ src.selector

/-- R117, R118, R119: both real transforms in terms of the half-size complex one, in the instance's numerics (binary32 by default), with
the pseudocode's operations in its order and association; the rotation mirrors entry `M - b` beyond `N/4`. Forward: words 0 and 1
are sum and difference of `Z[0]` and `Z[1]`, and bin `b` is `E + w O`. Inverse: `Z[0]` and `Z[1]` are sum and difference of
`P[0]` and `P[1]`, `Z[b]` is `S + j v D` with `v = conj w`, and the result is the inverse transform of `Z`. The sites name the free
NaN patterns only. -/
def Obligations.RealTransformsCombineTheHalfSizeBins : Prop :=
  ∀ (s : State) (k : Site) (tw rtw : List Word) (brh : List Word) (n : Nat) (x : List Word), 4 ≤ n →
    let num := Spec.numerics s
    let wr := fun b => if b ≤ n / 4 then rtw.getD (2 * b) 0 else num.neg (rtw.getD (2 * (n / 2 - b)) 0)
    let wi := fun b => if b ≤ n / 4 then rtw.getD (2 * b + 1) 0 else rtw.getD (2 * (n / 2 - b) + 1) 0
    (∃ (kz k1 k2 : Site) (c : Nat → Nat → Site),
      let Z := fun i => (cfft num kz tw brh (n / 2) .forward x).getD i 0
      let P := fun i => (realForward num k tw brh rtw n x).getD i 0
      P 0 = num.add k1 (Z 0) (Z 1) ∧ P 1 = num.sub k2 (Z 0) (Z 1) ∧
      ∀ b, 1 ≤ b → b < n / 2 →
        let m := n / 2 - b
        let er := num.mul (c b 0) 0x3F000000#32 (num.add (c b 1) (Z (2 * b)) (Z (2 * m)))
        let ei := num.mul (c b 2) 0x3F000000#32 (num.sub (c b 3) (Z (2 * b + 1)) (Z (2 * m + 1)))
        let odr := num.mul (c b 4) 0x3F000000#32 (num.add (c b 5) (Z (2 * b + 1)) (Z (2 * m + 1)))
        let odi := num.mul (c b 6) 0x3F000000#32 (num.sub (c b 7) (Z (2 * m)) (Z (2 * b)))
        P (2 * b) = num.add (c b 8) er (num.sub (c b 9) (num.mul (c b 10) odr (wr b)) (num.mul (c b 11) odi (wi b))) ∧
        P (2 * b + 1) = num.add (c b 12) ei (num.add (c b 13) (num.mul (c b 14) odr (wi b)) (num.mul (c b 15) odi (wr b)))) ∧
    (∃ (kz k1 k2 : Site) (c : Nat → Nat → Site) (zs : List Word),
      let P := fun i => x.getD i 0
      let Z := fun i => zs.getD i 0
      realInverse num k tw brh rtw n x = cfft num kz tw brh (n / 2) .inverse zs ∧ zs.length = 2 * (n / 2) ∧
      Z 0 = num.add k1 (P 0) (P 1) ∧ Z 1 = num.sub k2 (P 0) (P 1) ∧
      ∀ b, 1 ≤ b → b < n / 2 →
        let m := n / 2 - b
        let sr := num.add (c b 0) (P (2 * b)) (P (2 * m))
        let si := num.sub (c b 1) (P (2 * b + 1)) (P (2 * m + 1))
        let dr := num.sub (c b 2) (P (2 * b)) (P (2 * m))
        let di := num.add (c b 3) (P (2 * b + 1)) (P (2 * m + 1))
        let vr := wr b
        let vi := num.neg (wi b)
        let tr := num.sub (c b 4) (num.mul (c b 5) dr vr) (num.mul (c b 6) di vi)
        let ti := num.add (c b 7) (num.mul (c b 8) dr vi) (num.mul (c b 9) di vr)
        Z (2 * b) = num.sub (c b 10) sr ti ∧ Z (2 * b + 1) = num.add (c b 11) si tr)

/-- R120, first half: over the reals `RFFT.F` computes `X[k] = sum x[n] e^(+j 2 pi n k / N)` and packs it as R116 says. -/
def Obligations.RealForwardComputesTheFourierBins : Prop :=
  ∀ (n : Nat) (k : Site) (tw rtw x : List ℝ), 2 ≤ n → n ≤ 16 → ExactTwiddles (2 ^ n) tw → ExactRotations (2 ^ n) rtw →
    x.length = 2 ^ n →
    let P := realForward (Num.exact ℝ) k tw (reversalRom (2 ^ n / 2)) rtw (2 ^ n) x
    P.length = 2 ^ n ∧
    P.getD 0 0 = ∑ m ∈ Finset.range (2 ^ n), x.getD m 0 ∧
    P.getD 1 0 = ∑ m ∈ Finset.range (2 ^ n), (-1) ^ m * x.getD m 0 ∧
    ∀ b, 1 ≤ b → b < 2 ^ n / 2 →
      complexNumberAt P b =
        ∑ m ∈ Finset.range (2 ^ n), (x.getD m 0 : ℂ) * Complex.exp (Complex.I * 2 * Real.pi * m * b / 2 ^ n)

/-- R120, second half: over the reals `RFFT.I` computes
`y[n] = P[0] + (-1)^n P[1] + 2 sum (P[2k] cos(2 pi n k / N) + P[2k+1] sin(2 pi n k / N))`, `k` from 1 to `N/2-1`. -/
def Obligations.RealInverseComputesTheSynthesisSum : Prop :=
  ∀ (n : Nat) (k : Site) (tw rtw P : List ℝ), 2 ≤ n → n ≤ 16 → ExactTwiddles (2 ^ n) tw → ExactRotations (2 ^ n) rtw →
    P.length = 2 ^ n →
    let y := realInverse (Num.exact ℝ) k tw (reversalRom (2 ^ n / 2)) rtw (2 ^ n) P
    y.length = 2 ^ n ∧
    ∀ m, m < 2 ^ n →
      y.getD m 0 = P.getD 0 0 + (-1) ^ m * P.getD 1 0 +
        2 * ∑ b ∈ Finset.Ico 1 (2 ^ n / 2),
          (P.getD (2 * b) 0 * Real.cos (2 * Real.pi * m * b / 2 ^ n) +
           P.getD (2 * b + 1) 0 * Real.sin (2 * Real.pi * m * b / 2 ^ n))

/-- T2, T5: the worked examples of R106, R107, R118 and R119 on configuration K4, run by `exec` on words written to `X`. -/
def Obligations.WorkedExamplesOfTheTransforms : Prop :=
  let run := fun (i : Instr) (ws : List Word) (n : Nat) =>
    match exec i (State.reset.setWords .x ws) with
    | .next t => t.words .y n
    | .fault _ => []
    | .refused _ => []
  run (.fftF .y .x) [0x3F800000, 0, 0x40000000, 0, 0x40400000, 0, 0x40800000, 0] 8 =
    [0x41200000, 0, 0xC0000000, 0xC0000000, 0xC0000000, 0, 0xC0000000, 0x40000000] ∧
  run (.fftI .y .x) [0x41200000, 0, 0xC0000000, 0xC0000000, 0xC0000000, 0, 0xC0000000, 0x40000000] 8 =
    [0x40800000, 0, 0x41000000, 0, 0x41400000, 0, 0x41800000, 0] ∧
  run (.rfftF .y .x) [0x3F800000, 0x40000000, 0x40400000, 0x40800000] 4 =
    [0x41200000, 0xC0000000, 0xC0000000, 0xC0000000] ∧
  run (.rfftI .y .x) [0x41200000, 0xC0000000, 0xC0000000, 0xC0000000] 4 =
    [0x40800000, 0x41000000, 0x41400000, 0x41800000]

/-! ### Rings -/

/-- R125: `InPush(v)` stores `v` at the write cursor as its bit pattern, advances the cursor by one modulo `C_in`, and changes
nothing else. -/
def Obligations.InPushStoresAtTheWriteCursor : Prop :=
  ∀ (s : State) (v : Word), s.ready = true → s.inWr < s.params.cIn →
    ∃ m : Memory, s.inPush v = { s with mem := m, inWr := (s.inWr + 1) % s.params.cIn } ∧
      m.readWord (Arr.addr .inring s.inWr) = v ∧
      ∀ a, Spec.outsideWord .inring s.inWr a → m.read a = s.mem.read a

/-- R126: `OutAddFrame(f)` adds the `N` samples to the `N` ring words from the overlap-add cursor on, old word left, sample right, one `fadd` of the
instance's numerics each, then advances the cursor by `H` modulo `C_out`; `OutSkip()` only advances it. No other byte changes. -/
def Obligations.FramesAreAddedAtTheOverlapAddCursor : Prop :=
  ∀ (s : State) (k : Site) (f : List Word), s.ready = true → f.length = s.params.n →
    (∃ m : Memory, s.outAddFrame k f = { s with mem := m, outWr := (s.outWr + s.params.h) % s.params.cOut } ∧
      (∀ n, n < s.params.n →
        m.readWord (Arr.addr .outring ((s.outWr + n) % s.params.cOut)) =
          (Spec.numerics s).add (k.sub n) (s.word .outring ((s.outWr + n) % s.params.cOut)) (f.getD n 0)) ∧
      (∀ a, (∀ n, n < s.params.n → Spec.outsideWord .outring ((s.outWr + n) % s.params.cOut) a) →
        m.read a = s.mem.read a)) ∧
    s.outSkip = { s with outWr := (s.outWr + s.params.h) % s.params.cOut }

/-- R143, R144, R145: the drain step of `BLOCK` and `BLOCKV` completes; it puts into `OUTBLK[j]` the ring word at `(OUT_RD + j) mod C_out`
times the gain (the register, or `GAINV[j]`), leaves `+0` in each ring word it read, advances `OUT_RD` by `B` modulo `C_out`, and
ends the command. No other byte and no other register changes. -/
def Obligations.DrainScalesAndZeroesTheRing : Prop :=
  ∀ (s : State) (c i : Instr), s.ready = true → s.seq = .run c .drain → i = .block ∨ i = .blockv →
    ∃ m : Memory,
      exec i s = .next { s with mem := m, outRd := (s.outRd + s.params.b) % s.params.cOut, seq := .idle, done := true } ∧
      (∀ j, j < s.params.b →
        m.readWord (Arr.addr .outblk j) =
          (Spec.numerics s).mul (s.site.sub j) (s.word .outring ((s.outRd + j) % s.params.cOut))
            (if i = .block then s.gain else s.word .gainv j)) ∧
      (∀ j, j < s.params.b → m.readWord (Arr.addr .outring ((s.outRd + j) % s.params.cOut)) = 0) ∧
      (∀ a, Spec.outside .outblk s.params.b a →
        (∀ j, j < s.params.b → Spec.outsideWord .outring ((s.outRd + j) % s.params.cOut) a) → m.read a = s.mem.read a)

/-- R147 item 1, in binary32: with `GAIN = +0` every sample that the drain step of `BLOCK` puts out is `+0` or `-0`, if the ring words it reads are
finite. -/
def Obligations.ZeroGainGivesZeroOutput : Prop :=
  ∀ (s : State) (c : Instr), s.ready = true → s.params.num = .binary32 → s.seq = .run c .drain → s.gain = 0 →
    (∀ j, j < s.params.b → F32.isFinite (s.word .outring ((s.outRd + j) % s.params.cOut)) = true) →
    ∃ t, exec .block s = .next t ∧ ∀ j, j < s.params.b → F32.isZero (t.word .outblk j) = true

/-! ### The pipeline -/

/-- R133: a sample step of `BLOCK` or `BLOCKV` that fires no hop completes; it pushes `INBLK[j]` into the input ring, counts one sample
and moves `SEQ` on; no other byte and no other register changes. -/
def Obligations.SampleStepPushesAndCounts : Prop :=
  ∀ (s : State) (c i : Instr) (j : Nat), s.ready = true → s.seq = .run c (.sample j) → j < s.params.b →
    s.inWr < s.params.cIn → i = .block ∨ i = .blockv → s.hopCnt + 1 ≠ s.params.h →
    ∃ m : Memory,
      exec i s = .next { s with mem := m, inWr := (s.inWr + 1) % s.params.cIn, hopCnt := s.hopCnt + 1,
                                seq := .run i (Spec.phaseAfter s.params.b j) } ∧
      m.readWord (Arr.addr .inring s.inWr) = s.word .inblk j ∧
      ∀ a, Spec.outsideWord .inring s.inWr a → m.read a = s.mem.read a

/-- R136, R157: a hop that fires with no vector published, or with one of the wrong length, sets `HOPSKIP`, adds nothing, advances the
overlap-add cursor all the same, and the command goes on; the sample is pushed and the counter is back at 0. -/
def Obligations.HopWithoutAVectorIsSkipped : Prop :=
  ∀ (s : State) (c i : Instr) (j : Nat), s.ready = true → s.seq = .run c (.sample j) → j < s.params.b →
    s.inWr < s.params.cIn → i = .block ∨ i = .blockv → s.hopCnt + 1 = s.params.h →
    s.magValid = false ∨ s.magLen.toNat ≠ s.params.n →
    ∃ m : Memory,
      exec i s = .next { s with mem := m, inWr := (s.inWr + 1) % s.params.cIn, hopCnt := 0,
                                outWr := (s.outWr + s.params.h) % s.params.cOut, err := s.err ||| 0b0100000#7,
                                seq := .run i (Spec.phaseAfter s.params.b j) } ∧
      m.readWord (Arr.addr .inring s.inWr) = s.word .inblk j ∧
      ∀ a, Spec.outsideWord .inring s.inWr a → m.read a = s.mem.read a

/-- R135, R142: a hop that fires with a vector of length `N` published adds the frame made from the active bank, `PHASE_BOUND` and the
draws at the overlap-add cursor and advances it; the sample is pushed, the counter is back at 0, the command goes on. The words
of the frame are added to the old ring words; no byte outside the pushed word and the `N` ring words changes. -/
def Obligations.HopAddsTheFrameOfTheActiveBank : Prop :=
  ∀ (s : State) (c i : Instr) (j : Nat), s.ready = true → s.seq = .run c (.sample j) → j < s.params.b →
    s.inWr < s.params.cIn → i = .block ∨ i = .blockv → s.hopCnt + 1 = s.params.h →
    s.magValid = true → s.magLen.toNat = s.params.n →
    ∃ (m : Memory) (k : Nat → Site) (k' : Site),
      let f := hopFrame (Spec.numerics s) k' s.rom.tw s.rom.brn s.rom.win s.params.n s.phaseBound
        (s.words (Arr.bank s.magActive) s.params.n)
        ((List.range s.params.n).map fun b => F32.ofDraw (Config.phaseDraw s.draws b))
      exec i s = .next { s with mem := m, inWr := (s.inWr + 1) % s.params.cIn, hopCnt := 0,
                                outWr := (s.outWr + s.params.h) % s.params.cOut,
                                seq := .run i (Spec.phaseAfter s.params.b j) } ∧
      m.readWord (Arr.addr .inring s.inWr) = s.word .inblk j ∧
      (∀ n, n < s.params.n →
        m.readWord (Arr.addr .outring ((s.outWr + n) % s.params.cOut)) =
          (Spec.numerics s).add (k n) (s.word .outring ((s.outWr + n) % s.params.cOut)) (f.getD n 0)) ∧
      (∀ a, Spec.outsideWord .inring s.inWr a →
        (∀ n, n < s.params.n → Spec.outsideWord .outring ((s.outWr + n) % s.params.cOut) a) → m.read a = s.mem.read a)

/-- R138, R139: bin `j` of the spectrum is the windowed magnitude in the real slot and the phase value in the imaginary slot; R140, R141:
sample `j` of the frame is the real part of element `j` of its inverse transform, divided by `rnd(N)`. -/
def Obligations.FrameIsTheNormalisedInverseOfTheSpectrum : Prop :=
  ∀ (s : State) (k : Site) (tw : List Word) (br : List Word) (win : List Word) (n : Nat) (bound : Word) (mag u : List Word)
    (j : Nat), j < n →
    let num := Spec.numerics s
    ∃ k1 k2 k3 k4 : Site,
      complexAt num (hopSpectrum num k win n bound mag u) j =
        (num.mul k1 (mag.getD j 0) (win.getD j 0), num.mul k2 bound (u.getD j 0)) ∧
      (hopFrame num k tw br win n bound mag u).getD j 0 =
        num.div k3 ((cfft num k4 tw br n .inverse (hopSpectrum num k win n bound mag u)).getD (2 * j) 0)
          (F32.ofRatio false n 1)

/-- R137: a draw is exactly `j * 2^-24`; with a finite `PHASE_BOUND` every phase value has its sign and lies between 0 and it, whatever
the draw; with `PHASE_BOUND = +0` it is `+0`. -/
def Obligations.PhaseValuesLieWithinTheBound : Prop :=
  ∀ (k : Site) (b : Word) (j : BitVec 24),
    F32.value (F32.ofDraw j) = (j.toNat : ℚ) / 2 ^ 24 ∧
    (F32.isFinite b = true →
      F32.sign (F32.mul k b (F32.ofDraw j)) = F32.sign b ∧ F32.mag (F32.mul k b (F32.ofDraw j)) ≤ F32.mag b) ∧
    F32.mul k 0x00000000#32 (F32.ofDraw j) = 0x00000000#32

/-- R130, R147 item 2, in binary32: with an all-zero magnitude vector and `PHASE_BOUND = +0`, a hop leaves an all-`+0` output ring all `+0`, where
the words of `TW` and `WIN` are finite (R27 P1). -/
def Obligations.SilentFeedKeepsTheRingSilent : Prop :=
  ∀ s : State, s.ready = true → s.params.num = .binary32 → (∀ w, w ∈ s.rom.tw ∨ w ∈ s.rom.win → F32.isFinite w = true) →
    s.magValid = true → s.magLen.toNat = s.params.n → s.phaseBound = 0 →
    (∀ j, j < s.params.n → s.word (Arr.bank s.magActive) j = 0) → (∀ j, j < s.params.cOut → s.word .outring j = 0) →
    ∀ j, j < s.params.cOut → s.resynth.word .outring j = 0

/-- R84, R132: an accepted block command, with no transaction in between, is busy for `B` steps after its acceptance and complete
after `B + 1`: the `B` samples are in the input ring, both ring cursors and the hop counter have moved by the block, the
overlap-add cursor by `H` for each hop that fired, and `X`, `Y` and `LASTCMD` are as before. -/
def Obligations.BlockCommandRunsToItsEnd : Prop :=
  ∀ (s : State) (i : Instr), s.Inv → s.ready = true → i = .block ∨ i = .blockv → s.seq = .run i (.sample 0) → s.agenda = [] →
    (∀ k, k ≤ s.params.b → ∃ t : State, Host.Core.run core k s = .next t ∧ t.busy = true) ∧
    ∃ t : State, Host.Core.run core (s.params.b + 1) s = .next t ∧ t.seq = .idle ∧ t.done = true ∧ t.lastCmd = s.lastCmd ∧
      t.inWr = (s.inWr + s.params.b) % s.params.cIn ∧ t.outRd = (s.outRd + s.params.b) % s.params.cOut ∧
      t.hopCnt = (s.hopCnt + s.params.b) % s.params.h ∧
      t.outWr = (s.outWr + s.params.h * ((s.hopCnt + s.params.b) / s.params.h)) % s.params.cOut ∧
      (∀ j, j < s.params.b → t.word .inring ((s.inWr + j) % s.params.cIn) = s.word .inblk j) ∧
      (∀ j, j < 2 * s.params.n → t.word .x j = s.word .x j ∧ t.word .y j = s.word .y j)

/-! ### The magnitude feed -/

/-- R146, R42, R66: a write of `v` to `MAG_CTRL` on a ready instance swaps the banks, marks the feed valid and records `v[23:0]`, busy or
not, and does nothing else; while `READY = 0` it is ignored. A read of `MAG_CTRL` gives `MAG_ACTIVE` in bit 31, `MAG_VALID` in
bit 30, zeros in bits 29 to 24 and `MAG_LEN` in bits 23 to 0, and changes nothing but the data the port shows. -/
def Obligations.PublishSwapsTheBanks : Prop :=
  ∀ (s : State) (v : Word),
    s.busWrite .word 0x00003C#24 v =
      (if s.ready then { s with magActive := !s.magActive, magValid := true, magLen := v.extractLsb' 0 24 } else s) ∧
    ∃ w : Word, s.busRead .word 0x00003C#24 = { s with busOut := some w } ∧
      w.getLsbD 31 = s.magActive ∧ w.getLsbD 30 = s.magValid ∧ (∀ j, 24 ≤ j → j ≤ 29 → w.getLsbD j = false) ∧
      w.extractLsb' 0 24 = s.magLen

/-- R29, R70: no step but a reset changes a word of the bank that is active when the step begins (a bus write reaches only the other
bank, and the engine writes neither), and a turn of the engine changes no word of either bank. -/
def Obligations.ActiveBankIsNeverWritten : Prop :=
  ∀ s t : State, s.Inv → step s = .next t → (∀ c rest, s.agenda ≠ .reset c :: rest) →
    (∀ j, j < s.params.n → t.word (Arr.bank s.magActive) j = s.word (Arr.bank s.magActive) j) ∧
    ((s.agenda = [] ∨ ∃ rest, s.agenda = .engine :: rest) →
      ∀ j, j < s.params.n → t.word .mag0 j = s.word .mag0 j ∧ t.word .mag1 j = s.word .mag1 j)

/-! ### The bus -/

/-- R63: a read is refused with `BADADDR` (misaligned, unmapped, not ready) or `BUSYACC` (busy-protected while busy), in that order, with
any data; else it returns the mapped word. No read changes anything but the two error bits and the data the port shows. -/
def Obligations.BusReadFollowsItsThreeCases : Prop :=
  ∀ (s : State) (width : Width) (a : BusAddr),
    let r := (a.extractLsb' 20 4).toNat
    let i := (a.extractLsb' 2 18).toNat
    let low := (a.extractLsb' 0 2).toNat
    (Spec.badAddress s width r i low →
      ∃ x, s.busRead width a = { s with err := s.err ||| 0b0010000#7, busOut := some x }) ∧
    (¬ Spec.badAddress s width r i low → Spec.busyProtected r ∧ s.seq ≠ .idle →
      ∃ x, s.busRead width a = { s with err := s.err ||| 0b0001000#7, busOut := some x }) ∧
    (¬ Spec.badAddress s width r i low → ¬ (Spec.busyProtected r ∧ s.seq ≠ .idle) →
      s.busRead width a = { s with busOut := some (Spec.mappedWord s r i) })

/-- R64: a write is refused with `BADADDR` (as a read, or to a read-only word) or `BUSYACC`, in that order, with no other effect; else
the mapped word becomes `v`, or the register's own write rule applies. -/
def Obligations.BusWriteFollowsItsThreeCases : Prop :=
  ∀ (s : State) (width : Width) (a : BusAddr) (v : Word),
    let r := (a.extractLsb' 20 4).toNat
    let i := (a.extractLsb' 2 18).toNat
    let low := (a.extractLsb' 0 2).toNat
    let bad := Spec.badAddress s width r i low ∨ Spec.readOnly r i
    (bad → s.busWrite width a v = { s with err := s.err ||| 0b0010000#7 }) ∧
    (¬ bad → Spec.busyProtected r ∧ s.seq ≠ .idle → s.busWrite width a v = { s with err := s.err ||| 0b0001000#7 }) ∧
    (¬ bad → ¬ (Spec.busyProtected r ∧ s.seq ≠ .idle) → s.busWrite width a v = Spec.written s r i v)

/-- R65: a byte or halfword transaction, or one at an address that is no multiple of 4, is refused with `BADADDR` and has no effect. -/
def Obligations.NarrowAndMisalignedAccessesAreRefused : Prop :=
  ∀ (s : State) (width : Width) (a : BusAddr) (v : Word), width ≠ .word ∨ a.toNat % 4 ≠ 0 →
    (∃ x, s.busRead width a = { s with err := s.err ||| 0b0010000#7, busOut := some x }) ∧
    s.busWrite width a v = { s with err := s.err ||| 0b0010000#7 }

/-- R66: while `READY = 0` every register can be read, `ERR` can be written, a `CMD` write raises `NOTREADY`, writes to `GAIN`, `PHASE_BOUND`
and `MAG_CTRL` are ignored without an error bit, and every access to regions 1 to 15 raises `BADADDR`. -/
def Obligations.RefusedInstanceAnswersOnlyRegionZero : Prop :=
  ∀ (s : State) (v : Word), s.ready = false →
    (∀ i, i < 16 → s.busRead .word (BitVec.ofNat 24 (4 * i)) = { s with busOut := some (Spec.register s i) }) ∧
    s.busWrite .word 0x00001C#24 v = s.clearErrors v ∧
    s.busWrite .word 0x000020#24 v = { s with err := s.err ||| 0b1000000#7 } ∧
    s.busWrite .word 0x000024#24 v = s ∧ s.busWrite .word 0x000028#24 v = s ∧ s.busWrite .word 0x00003C#24 v = s ∧
    ∀ (width : Width) (a : BusAddr), 0x100000 ≤ a.toNat →
      (∃ x, s.busRead width a = { s with err := s.err ||| 0b0010000#7, busOut := some x }) ∧
      s.busWrite width a v = { s with err := s.err ||| 0b0010000#7 }

/-- R67, R155: while `BUSY = 1` every aligned read of a mapped word of regions 1, 2, 4, 5, 6, 7, 8 is refused with `BUSYACC` and has no
other effect, and so is every write of 1, 2, 4, 5, 6 (7 and 8 are read-only: R64 refuses a write with `BADADDR` first); no access to
region 0, `MAGW`, the ROM views or `MAGAV` is refused for busyness. -/
def Obligations.BusyProtectionRefusesExactlyItsRegions : Prop :=
  ∀ (s : State) (a : BusAddr) (v : Word), s.ready = true → s.seq ≠ .idle →
    let r := (a.extractLsb' 20 4).toNat
    let i := (a.extractLsb' 2 18).toNat
    a.extractLsb' 0 2 = 0 → i < Spec.regionSize s.params r →
    (Spec.busyProtected r → ∃ x, s.busRead .word a = { s with err := s.err ||| 0b0001000#7, busOut := some x }) ∧
    (r ∈ [1, 2, 4, 5, 6] → s.busWrite .word a v = { s with err := s.err ||| 0b0001000#7 }) ∧
    (¬ Spec.busyProtected r → s.busRead .word a = { s with busOut := some (Spec.mappedWord s r i) }) ∧
    (r ∈ [7, 8] → s.busWrite .word a v = { s with err := s.err ||| 0b0010000#7 }) ∧
    (¬ Spec.busyProtected r → (s.busWrite .word a v).errorBit .busyacc = true → s.errorBit .busyacc = true) ∧
    (r = 3 → s.busWrite .word a v = s.setWord (Arr.bank !s.magActive) i v)

/-- R38, R162: `ERR` reads its seven bits and zeros above; a write of `v` clears every bit `j` in 1 to 6 with `v[j] = 1`, leaves the
others, and changes nothing else; bit 0 is read-only. -/
def Obligations.ErrorRegisterIsWriteOneToClear : Prop :=
  ∀ (s : State) (v : Word),
    (s.busRead .word 0x00001C#24).busOut = some (0#25 ++ s.err) ∧
    ∃ e : BitVec 7, s.busWrite .word 0x00001C#24 v = { s with err := e } ∧
      e.getLsbD 0 = s.err.getLsbD 0 ∧ ∀ j, 1 ≤ j → j ≤ 6 → e.getLsbD j = (s.err.getLsbD j && !v.getLsbD j)

/-- R38, R150, R162: a set error bit stays set over every step, but for a reset and for a write to `ERR` with a one at its place; `CFG`
only a reset can clear. -/
def Obligations.ErrorBitsAreSticky : Prop :=
  ∀ (s t : State) (e : ErrorBit), step s = .next t → s.errorBit e = true →
    t.errorBit e = true ∨ (∃ c rest, s.agenda = .reset c :: rest) ∨
    (e ≠ .cfg ∧ ∃ v rest, v.getLsbD e.code = true ∧
      (s.agenda = .host (.write .word 0x00001C#24 v) :: rest ∨ s.agenda = .producer (.write .word 0x00001C#24 v) :: rest))

/-- R37: `STATUS` shows `READY` (iff `ConfigValid`), `BUSY` (iff `SEQ != Idle`), `DONE`, `MAG_VALID` and `MAG_ACTIVE` in bits 0 to 4, zeros
above; a write to it raises `BADADDR`. -/
def Obligations.StatusRegisterShowsItsFiveBits : Prop :=
  ∀ (s : State) (v : Word),
    (∃ w : Word, (s.busRead .word 0x000018#24).busOut = some w ∧
      (w.getLsbD 0 = true ↔ s.params.Valid) ∧ (w.getLsbD 1 = true ↔ s.seq ≠ .idle) ∧ w.getLsbD 2 = s.done ∧
      w.getLsbD 3 = s.magValid ∧ w.getLsbD 4 = s.magActive ∧ ∀ j, 5 ≤ j → w.getLsbD j = false) ∧
    s.busWrite .word 0x000018#24 v = { s with err := s.err ||| 0b0010000#7 }

/-- R35, R36, R39: `ID` reads the constant, the `CFG_*` registers the low 32 bits of the parameters; writes to them raise `BADADDR` and
change nothing else, and no step changes a parameter. A write to `CMD` offers the word to the engine: it is accepted where the
instance is ready and idle and the word decodes, and only then becomes what `CMD` reads, which is `LASTCMD`, 0 after reset. -/
def Obligations.IdentityAndParameterRegistersRead : Prop :=
  ∀ (s : State) (v : Word),
    (s.busRead .word 0x000000#24).busOut = some 0x53430001#32 ∧
    (s.busRead .word 0x000004#24).busOut = some (BitVec.ofNat 32 s.params.n) ∧
    (s.busRead .word 0x000008#24).busOut = some (BitVec.ofNat 32 s.params.h) ∧
    (s.busRead .word 0x00000C#24).busOut = some (BitVec.ofNat 32 s.params.b) ∧
    (s.busRead .word 0x000010#24).busOut = some (BitVec.ofNat 32 s.params.cIn) ∧
    (s.busRead .word 0x000014#24).busOut = some (BitVec.ofNat 32 s.params.cOut) ∧
    (s.busRead .word 0x000020#24).busOut = some s.lastCmd ∧
    (∀ i, i < 6 → s.busWrite .word (BitVec.ofNat 24 (4 * i)) v = { s with err := s.err ||| 0b0010000#7 }) ∧
    (∀ t, step s = .next t → t.params = s.params) ∧
    (s.ready = true → s.seq = .idle → (∃ i, decode v = .ok i) →
      (s.busWrite .word 0x000020#24 v).busy = true ∧ (s.busWrite .word 0x000020#24 v).lastCmd = v) ∧
    (s.ready = false ∨ s.seq ≠ .idle ∨ (∃ e, decode v = .error e) →
      (s.busWrite .word 0x000020#24 v).seq = s.seq ∧ (s.busWrite .word 0x000020#24 v).lastCmd = s.lastCmd) ∧
    ∀ (p : Params) (rom : Rom) (contents : Memory), (State.resetWith p rom contents).lastCmd = 0

/-- R40, R41, R64: on a ready instance any pattern can be written to `GAIN` and `PHASE_BOUND`, busy or not, and is read back; nothing else
changes. -/
def Obligations.GainAndPhaseBoundTakeAnyPattern : Prop :=
  ∀ (s : State) (v : Word), s.ready = true →
    s.busWrite .word 0x000024#24 v = { s with gain := v } ∧ s.busWrite .word 0x000028#24 v = { s with phaseBound := v } ∧
    ((s.busWrite .word 0x000024#24 v).busRead .word 0x000024#24).busOut = some v ∧
    ((s.busWrite .word 0x000028#24 v).busRead .word 0x000028#24).busOut = some v

/-! ### Reset and refused construction -/

/-- R46, R170: after reset every field has the value of the table, for every parameter record, ROM and contents; the rings are all `+0`
and the other arrays hold the contents, whatever they are; a reset event in any state, also while a command runs, gives that
state, and the events after it remain. -/
def Obligations.ResetGivesTheStateOfTheTable : Prop :=
  (∀ (p : Params) (rom : Rom) (contents : Memory),
    let t := State.resetWith p rom contents
    t.params = p ∧ t.rom = rom ∧ t.magActive = false ∧ t.magValid = false ∧ t.magLen = 0 ∧ t.inWr = 0 ∧ t.outWr = 0 ∧
    t.outRd = 0 ∧ t.hopCnt = 0 ∧ t.gain = 0x3E99999A#32 ∧ t.phaseBound = p.phiReset ∧ t.lastCmd = 0 ∧ t.done = false ∧
    t.seq = .idle ∧ (t.err = if p.Valid then 0b0000000#7 else 0b0000001#7) ∧
    (p.Valid → (∀ j, j < p.cIn → t.word .inring j = 0) ∧ (∀ j, j < p.cOut → t.word .outring j = 0) ∧
      ∀ A ∈ [Arr.x, .y, .mag0, .mag1, .inblk, .outblk, .gainv], ∀ a, A.base ≤ a → a < A.base + 4 * A.size p →
        t.mem.read a = (Memory.ofCells contents).read a)) ∧
  (∀ (s : State) (contents : Memory) (rest : List Event), s.agenda = .reset contents :: rest →
    step s = .next { State.resetWith s.params s.rom contents with agenda := rest, draws := s.draws + 1 })

/-- R172: on a refused instance no step but a reset changes anything but error bits (and the model's own fields), `READY` stays 0 and
`CFG` stays set; a reset sets it again. -/
def Obligations.RefusedInstanceDoesNothing : Prop :=
  ∀ s t : State, s.ready = false → step s = .next t →
    t.ready = false ∧ (s.errorBit .cfg = true → t.errorBit .cfg = true) ∧
    ((∀ c rest, s.agenda ≠ .reset c :: rest) →
      t = { s with err := t.err, agenda := t.agenda, draws := t.draws, busOut := t.busOut }) ∧
    ((∃ c rest, s.agenda = .reset c :: rest) → t.errorBit .cfg = true ∧ t.seq = .idle)

/-- R7: an instance is ready exactly when its parameters meet V1 to V5. -/
def Obligations.ReadyExactlyWhereConfigValid : Prop :=
  ∀ s : State,
    s.ready = true ↔
      (∃ k, s.params.n = 2 ^ k) ∧ 4 ≤ s.params.n ∧ s.params.n ≤ 65536 ∧ 1 ≤ s.params.h ∧ 1 ≤ s.params.b ∧
      (∃ q, 0 < q ∧ s.params.cIn = q * s.params.b) ∧ (∃ q, 0 < q ∧ s.params.cIn = q * s.params.h) ∧
      (∃ q, 0 < q ∧ s.params.cOut = q * s.params.b) ∧ (∃ q, 0 < q ∧ s.params.cOut = q * s.params.h) ∧
      s.params.n + s.params.b ≤ s.params.cOut ∧
      s.params.b ≤ 262144 ∧ s.params.cIn ≤ 262144 ∧ s.params.cOut ≤ 262144

/-! ### Invariants of the whole machine -/

/-- The invariant holds after reset, of every instance and every contents of the unspecified arrays (R46, R47). -/
def Obligations.InvariantHoldsAfterReset : Prop :=
  ∀ (p : Params) (rom : Rom) (contents : Memory), (State.resetWith p rom contents).Inv

/-- Every step keeps the invariant: memory stays canonical and inside the arrays, `SEQ` stays legal (R43), the cursors and the hop counter
stay in range, `OUT_WR` a multiple of `H` and `OUT_RD` of `B` (R47), `ERR.CFG` stays `1 - READY` (R38, R152), and a refused instance
stays idle (R172). -/
def Obligations.EveryStepKeepsTheInvariant : Prop :=
  ∀ s t : State, s.Inv → step s = .next t → t.Inv

/-- The machine never stops: from every state that meets the invariant each step answers a next state (R150: errors are sticky bits, and
R181: a busy engine always has its step). -/
def Obligations.NoStepEverStops : Prop :=
  ∀ s : State, s.Inv → ∃ t, step s = .next t

/-- R20, R47, R170: no step changes the parameters or the ROMs, and `MAG_VALID`, once 1, stays 1 until a reset. -/
def Obligations.ConstantsNeverChange : Prop :=
  ∀ s t : State, step s = .next t →
    t.params = s.params ∧ t.rom = s.rom ∧
    (s.magValid = true → t.magValid = true ∨ ∃ c rest, s.agenda = .reset c :: rest)
end

