-- ==== Sys2Proof/Laws/Address.lean ====
section
/-! SUPPORT. The fields of a bus address as bit fields (R62, R63): the decoder of addresses computes with numbers. -/

namespace Sys2Proof.Machine

theorem addr_region (a : BusAddr) : a.toNat / 2 ^ 20 = (a.extractLsb' 20 4).toNat := by
  have := a.isLt
  simp [BitVec.extractLsb'_toNat, Nat.shiftRight_eq_div_pow]
  omega

theorem addr_index (a : BusAddr) : a.toNat % 2 ^ 20 / 4 = (a.extractLsb' 2 18).toNat := by
  have := a.isLt
  simp [BitVec.extractLsb'_toNat, Nat.shiftRight_eq_div_pow]
  omega

theorem addr_low (a : BusAddr) : a.toNat % 4 = (a.extractLsb' 0 2).toNat := by
  simp [BitVec.extractLsb'_toNat, Nat.shiftRight_eq_div_pow]

/-- Where an address points, on its bit fields. -/
theorem ofAddr_fields (p : Params) (a : BusAddr) :
    Target.ofAddr p a =
      if (a.extractLsb' 0 2).toNat ≠ 0 then .unmapped
      else match Region.ofNumber (a.extractLsb' 20 4).toNat with
        | .regs => match Reg.ofIndex (a.extractLsb' 2 18).toNat with
          | some g => .reg g
          | none => .unmapped
        | r => if (a.extractLsb' 2 18).toNat < r.size p then .word r (a.extractLsb' 2 18).toNat else .unmapped := by
  simp only [← addr_region, ← addr_index, ← addr_low]
  rfl

end Sys2Proof.Machine
end

