-- ==== Sys2Proof/Laws/Memory.lean ====
section
/-! SUPPORT. The laws of memory: read after write for bytes, words and runs of words, and the canonical form, which
every operation keeps and which makes equal memories equal data. -/

namespace Sys2Proof.Machine.Memory

/-! ### Bytes -/

@[simp] theorem read_nil (a : Nat) : Memory.read [] a = unlisted := rfl

theorem read_cons (c : Host.Cell) (m : Memory) (a : Nat) :
    Memory.read (c :: m) a = if c.1 = a then c.2 else Memory.read m a := rfl

@[simp] theorem erase_nil (a : Nat) : Memory.erase [] a = [] := rfl

theorem erase_cons (c : Host.Cell) (m : Memory) (a : Nat) :
    Memory.erase (c :: m) a = if c.1 = a then Memory.erase m a else c :: Memory.erase m a := by
  by_cases h : c.1 = a <;> simp [Memory.erase, h]

theorem read_erase (m : Memory) (a b : Nat) :
    (m.erase a).read b = if b = a then unlisted else m.read b := by
  induction m with
  | nil => simp
  | cons c m ih =>
    by_cases hca : c.1 = a
    · rw [erase_cons, if_pos hca, ih, read_cons]
      by_cases hb : b = a
      · simp [hb]
      · simp [hb, show ¬ c.1 = b by omega]
    · rw [erase_cons, if_neg hca, read_cons, ih, read_cons]
      by_cases hcb : c.1 = b
      · simp [hcb, show ¬ b = a by omega]
      · simp [hcb]

theorem read_insert {c : Host.Cell} {m : Memory} (hne : ∀ d ∈ m, d.1 ≠ c.1) (b : Nat) :
    (Memory.insert c m).read b = if b = c.1 then c.2 else m.read b := by
  induction m with
  | nil => simp [Memory.insert, read_cons, eq_comm]
  | cons d m ih =>
    have hd : d.1 ≠ c.1 := hne d (by simp)
    unfold Memory.insert
    split
    · simp [read_cons, eq_comm]
    · rw [read_cons, ih fun e he => hne e (by simp [he]), read_cons]
      split_ifs <;> first | rfl | omega

theorem mem_erase {m : Memory} {a : Nat} {c : Host.Cell} : c ∈ m.erase a ↔ c ∈ m ∧ c.1 ≠ a := by
  simp [Memory.erase]

/-- Read after write: the address written reads as the value, every other address as before. -/
@[simp] theorem read_write (m : Memory) (a : Nat) (v : Byte) (b : Nat) :
    (m.write a v).read b = if b = a then v else m.read b := by
  unfold Memory.write
  split
  · rename_i hv
    rw [read_erase, hv]
  · rw [read_insert fun d hd => (mem_erase.1 hd).2, read_erase]
    split_ifs <;> rfl

theorem read_write_same (m : Memory) (a : Nat) (v : Byte) : (m.write a v).read a = v := by simp

theorem read_write_ne {a b : Nat} (m : Memory) (v : Byte) (h : b ≠ a) : (m.write a v).read b = m.read b := by
  simp [h]

/-! ### The canonical form -/

@[simp] theorem wf_nil : Memory.wf [] = true := rfl

theorem wf_cons {c : Host.Cell} {m : Memory} :
    Memory.wf (c :: m) = true ↔ c.2 ≠ unlisted ∧ (∀ d ∈ m, c.1 < d.1) ∧ Memory.wf m = true := by
  simp [Memory.wf, and_assoc]

theorem wf_erase {m : Memory} (a : Nat) (h : m.wf = true) : (m.erase a).wf = true := by
  induction m with
  | nil => rfl
  | cons c m ih =>
    obtain ⟨h1, h2, h3⟩ := wf_cons.1 h
    rw [erase_cons]
    split
    · exact ih h3
    · exact wf_cons.2 ⟨h1, fun d hd => h2 d (mem_erase.1 hd).1, ih h3⟩

theorem mem_insert {c d : Host.Cell} {m : Memory} : d ∈ Memory.insert c m ↔ d = c ∨ d ∈ m := by
  induction m with
  | nil => simp [Memory.insert]
  | cons e m ih =>
    unfold Memory.insert
    split
    · simp
    · simp [ih, or_left_comm]

theorem wf_insert {m : Memory} {c : Host.Cell} (h : m.wf = true) (hv : c.2 ≠ unlisted) (hne : ∀ d ∈ m, d.1 ≠ c.1) :
    (Memory.insert c m).wf = true := by
  induction m with
  | nil => simp [Memory.insert, wf_cons, hv]
  | cons e m ih =>
    obtain ⟨h1, h2, h3⟩ := wf_cons.1 h
    unfold Memory.insert
    split
    · rename_i hlt
      refine wf_cons.2 ⟨hv, fun d hd => ?_, h⟩
      rcases List.mem_cons.1 hd with rfl | hd
      · exact hlt
      · exact lt_trans hlt (h2 d hd)
    · rename_i hlt
      refine wf_cons.2 ⟨h1, fun d hd => ?_, ih h3 fun d hd => hne d (by simp [hd])⟩
      rcases mem_insert.1 hd with rfl | hd
      · have := hne e (by simp)
        omega
      · exact h2 d hd

/-- A byte write keeps the canonical form. -/
theorem wf_write {m : Memory} (a : Nat) (v : Byte) (h : m.wf = true) : (m.write a v).wf = true := by
  unfold Memory.write
  split
  · exact wf_erase a h
  · rename_i hv
    exact wf_insert (wf_erase a h) hv fun d hd => (mem_erase.1 hd).2

theorem read_eq_unlisted_of_lt {m : Memory} {a : Nat} (h : ∀ d ∈ m, a < d.1) : m.read a = unlisted := by
  induction m with
  | nil => rfl
  | cons c m ih =>
    have := h c (by simp)
    rw [read_cons, if_neg (by omega)]
    exact ih fun d hd => h d (by simp [hd])

/-- Canonical memories that read the same are the same data. -/
theorem ext_of_wf {m m' : Memory} (h : m.wf = true) (h' : m'.wf = true) (hr : ∀ a, m.read a = m'.read a) : m = m' := by
  induction m generalizing m' with
  | nil =>
    cases m' with
    | nil => rfl
    | cons d m' =>
      have := hr d.1
      rw [read_cons, if_pos rfl] at this
      exact absurd this.symm (wf_cons.1 h').1
  | cons c m ih =>
    obtain ⟨hc, hlt, hm⟩ := wf_cons.1 h
    cases m' with
    | nil =>
      have := hr c.1
      rw [read_cons, if_pos rfl] at this
      exact absurd this hc
    | cons d m' =>
      obtain ⟨hd, hlt', hm'⟩ := wf_cons.1 h'
      have hkey : c.1 = d.1 := by
        rcases lt_trichotomy c.1 d.1 with hlt1 | heq | hlt1
        · have := hr c.1
          rw [read_cons, if_pos rfl, read_eq_unlisted_of_lt (m := d :: m')] at this
          · exact absurd this hc
          · intro e he
            rcases List.mem_cons.1 he with rfl | he
            · exact hlt1
            · exact lt_trans hlt1 (hlt' e he)
        · exact heq
        · have := hr d.1
          rw [read_cons (c := d), if_pos rfl, read_eq_unlisted_of_lt (m := c :: m)] at this
          · exact absurd this.symm hd
          · intro e he
            rcases List.mem_cons.1 he with rfl | he
            · exact hlt1
            · exact lt_trans hlt1 (hlt e he)
      have hval : c.2 = d.2 := by
        have := hr c.1
        rwa [read_cons, if_pos rfl, read_cons, if_pos hkey.symm] at this
      have htail : m = m' := ih hm hm' fun a => by
        have := hr a
        rw [read_cons, read_cons, ← hkey] at this
        by_cases ha : c.1 = a
        · subst ha
          rw [read_eq_unlisted_of_lt hlt, read_eq_unlisted_of_lt (hkey ▸ hlt')]
        · rwa [if_neg ha, if_neg ha] at this
      rw [htail, Prod.ext hkey hval]

/-- A cell of a written memory is the written one or was there before. -/
theorem mem_write {m : Memory} {a : Nat} {v : Byte} {c : Host.Cell} (h : c ∈ m.write a v) : c.1 = a ∨ c ∈ m := by
  unfold Memory.write at h
  split at h
  · exact Or.inr (mem_erase.1 h).1
  · rcases mem_insert.1 h with rfl | h
    · exact Or.inl rfl
    · exact Or.inr (mem_erase.1 h).1

/-! ### Words -/

/-- Byte `j` of a word made of four bytes. -/
theorem byteOf_wordOf (b0 b1 b2 b3 : Byte) :
    byteOf (wordOf b0 b1 b2 b3) 0 = b0 ∧ byteOf (wordOf b0 b1 b2 b3) 1 = b1 ∧
    byteOf (wordOf b0 b1 b2 b3) 2 = b2 ∧ byteOf (wordOf b0 b1 b2 b3) 3 = b3 := by
  refine ⟨?_, ?_, ?_, ?_⟩ <;> ext i hi <;>
    simp [byteOf, wordOf, BitVec.getElem_extractLsb'] <;> grind

/-- A word is made of its bytes, byte 0 the least significant (R61). -/
@[simp] theorem wordOf_byteOf (w : Word) : wordOf (byteOf w 0) (byteOf w 1) (byteOf w 2) (byteOf w 3) = w := by
  ext i hi
  simp [byteOf, wordOf]
  grind

theorem read_writeWord (m : Memory) (a : Nat) (w : Word) (b : Nat) :
    (m.writeWord a w).read b =
      if b = a then byteOf w 0 else if b = a + 1 then byteOf w 1 else if b = a + 2 then byteOf w 2
      else if b = a + 3 then byteOf w 3 else m.read b := by
  simp only [Memory.writeWord, read_write]
  split_ifs <;> first | rfl | omega

/-- A word write leaves every byte outside the word alone. -/
theorem read_writeWord_outside {a b : Nat} (m : Memory) (w : Word) (h : b < a ∨ a + 4 ≤ b) :
    (m.writeWord a w).read b = m.read b := by
  rw [read_writeWord]
  split_ifs <;> first | rfl | omega

@[simp] theorem readWord_writeWord_same (m : Memory) (a : Nat) (w : Word) : (m.writeWord a w).readWord a = w := by
  simp [Memory.readWord, read_writeWord]

/-- A word write leaves every disjoint word alone. -/
theorem readWord_writeWord_disjoint {a b : Nat} (m : Memory) (w : Word) (h : b + 4 ≤ a ∨ a + 4 ≤ b) :
    (m.writeWord a w).readWord b = m.readWord b := by
  simp only [Memory.readWord]
  rw [read_writeWord_outside _ _ (by omega), read_writeWord_outside _ _ (by omega), read_writeWord_outside _ _ (by omega),
    read_writeWord_outside _ _ (by omega)]

theorem wf_writeWord {m : Memory} (a : Nat) (w : Word) (h : m.wf = true) : (m.writeWord a w).wf = true :=
  wf_write _ _ (wf_write _ _ (wf_write _ _ (wf_write _ _ h)))

theorem mem_writeWord {m : Memory} {a : Nat} {w : Word} {c : Host.Cell} (h : c ∈ m.writeWord a w) :
    (a ≤ c.1 ∧ c.1 < a + 4) ∨ c ∈ m := by
  rcases mem_write h with h | h
  · omega
  rcases mem_write h with h | h
  · omega
  rcases mem_write h with h | h
  · omega
  rcases mem_write h with h | h
  · omega
  · exact Or.inr h

theorem readWord_congr {m m' : Memory} {a : Nat} (h : ∀ b, a ≤ b → b < a + 4 → m.read b = m'.read b) :
    m.readWord a = m'.readWord a := by
  simp only [Memory.readWord]
  rw [h _ (by omega) (by omega), h _ (by omega) (by omega), h _ (by omega) (by omega), h _ (by omega) (by omega)]

/-! ### Runs of words -/

@[simp] theorem length_readWords (m : Memory) (a n : Nat) : (m.readWords a n).length = n := by
  induction n generalizing a with
  | zero => rfl
  | succ n ih => simp [Memory.readWords, ih]

theorem getElem_readWords (m : Memory) (a n i : Nat) (h : i < (m.readWords a n).length) :
    (m.readWords a n)[i] = m.readWord (a + 4 * i) := by
  induction n generalizing a i with
  | zero => simp at h
  | succ n ih =>
    cases i with
    | zero => simp [Memory.readWords]
    | succ i =>
      simp only [Memory.readWords, List.getElem_cons_succ]
      rw [ih]
      congr 1
      omega

theorem getD_readWords {n i : Nat} (m : Memory) (a : Nat) (d : Word) (h : i < n) :
    (m.readWords a n).getD i d = m.readWord (a + 4 * i) := by
  rw [List.getD_eq_getElem _ _ (by simpa using h), getElem_readWords]

theorem readWords_congr {m m' : Memory} {a n : Nat} (h : ∀ b, a ≤ b → b < a + 4 * n → m.read b = m'.read b) :
    m.readWords a n = m'.readWords a n := by
  apply List.ext_getElem (by simp)
  intro i h1 h2
  rw [getElem_readWords, getElem_readWords]
  simp at h1
  exact readWord_congr fun b _ _ => h b (by omega) (by omega)

/-- Writing a run of words leaves every byte outside it alone. -/
theorem read_writeWords_outside {a b : Nat} (m : Memory) (ws : List Word) (h : b < a ∨ a + 4 * ws.length ≤ b) :
    (m.writeWords a ws).read b = m.read b := by
  induction ws generalizing m a with
  | nil => rfl
  | cons w ws ih =>
    simp only [List.length_cons] at h
    rw [Memory.writeWords, ih _ (by omega), read_writeWord_outside _ _ (by omega)]

theorem readWord_writeWords (m : Memory) (a : Nat) (ws : List Word) (i : Nat) (h : i < ws.length) :
    (m.writeWords a ws).readWord (a + 4 * i) = ws[i] := by
  induction ws generalizing m a i with
  | nil => simp at h
  | cons w ws ih =>
    rw [Memory.writeWords]
    cases i with
    | zero =>
      rw [readWord_congr (m' := m.writeWord a w)]
      · simp
      · intro b _ _
        exact read_writeWords_outside _ _ (by omega)
    | succ i =>
      simp at h
      rw [show a + 4 * (i + 1) = a + 4 + 4 * i by omega, ih _ _ _ h]
      simp

/-- Reading back a written run gives the words written. -/
theorem readWords_writeWords (m : Memory) (a : Nat) (ws : List Word) :
    (m.writeWords a ws).readWords a ws.length = ws := by
  apply List.ext_getElem (by simp)
  intro i h1 h2
  rw [getElem_readWords, readWord_writeWords _ _ _ _ h2]

theorem wf_writeWords {m : Memory} (a : Nat) (ws : List Word) (h : m.wf = true) : (m.writeWords a ws).wf = true := by
  induction ws generalizing m a with
  | nil => exact h
  | cons w ws ih => exact ih _ (wf_writeWord _ _ h)

theorem mem_writeWords {m : Memory} {a : Nat} {ws : List Word} {c : Host.Cell} (h : c ∈ m.writeWords a ws) :
    (a ≤ c.1 ∧ c.1 < a + 4 * ws.length) ∨ c ∈ m := by
  induction ws generalizing m a with
  | nil => exact Or.inr h
  | cons w ws ih =>
    rw [List.length_cons]
    rcases ih h with h | h
    · exact Or.inl (by omega)
    · rcases mem_writeWord h with h | h
      · exact Or.inl (by omega)
      · exact Or.inr h

/-! ### Building -/

theorem wf_foldl_write {m : Memory} (cells : List Host.Cell) (h : m.wf = true) :
    (cells.foldl (fun m c => Memory.write m c.1 c.2) m).wf = true := by
  induction cells generalizing m with
  | nil => exact h
  | cons c cells ih => exact ih (wf_write _ _ h)

/-- A memory built from cells is canonical, whatever the cells. -/
theorem wf_ofCells (cells : List Host.Cell) : (Memory.ofCells cells).wf = true := wf_foldl_write cells rfl

theorem mem_foldl_write {m : Memory} {cells : List Host.Cell} {c : Host.Cell}
    (h : c ∈ cells.foldl (fun m c => Memory.write m c.1 c.2) m) : (∃ d ∈ cells, d.1 = c.1) ∨ c ∈ m := by
  induction cells generalizing m with
  | nil => exact Or.inr h
  | cons d cells ih =>
    rcases ih h with ⟨e, he, heq⟩ | h
    · exact Or.inl ⟨e, by simp [he], heq⟩
    · rcases mem_write h with h | h
      · exact Or.inl ⟨d, by simp, h.symm⟩
      · exact Or.inr h

theorem mem_ofCells {cells : List Host.Cell} {c : Host.Cell} (h : c ∈ Memory.ofCells cells) : ∃ d ∈ cells, d.1 = c.1 := by
  rcases mem_foldl_write h with h | h
  · exact h
  · simp at h

end Sys2Proof.Machine.Memory
end

