-- ==== Sys2Proof/Laws/State.lean ====
section
/-! SUPPORT. One lemma per field and state update, each true by unfolding the update once: later proofs never unfold a record
update. Where an update leaves a field alone the lemma says so (its frame). -/

namespace Sys2Proof.Machine.State

variable (s : State)

/-! ### raise -/

@[simp] theorem raise_params (e : ErrorBit) : (s.raise e).params = s.params := rfl
@[simp] theorem raise_rom (e : ErrorBit) : (s.raise e).rom = s.rom := rfl
@[simp] theorem raise_mem (e : ErrorBit) : (s.raise e).mem = s.mem := rfl
@[simp] theorem raise_magActive (e : ErrorBit) : (s.raise e).magActive = s.magActive := rfl
@[simp] theorem raise_magValid (e : ErrorBit) : (s.raise e).magValid = s.magValid := rfl
@[simp] theorem raise_magLen (e : ErrorBit) : (s.raise e).magLen = s.magLen := rfl
@[simp] theorem raise_inWr (e : ErrorBit) : (s.raise e).inWr = s.inWr := rfl
@[simp] theorem raise_outWr (e : ErrorBit) : (s.raise e).outWr = s.outWr := rfl
@[simp] theorem raise_outRd (e : ErrorBit) : (s.raise e).outRd = s.outRd := rfl
@[simp] theorem raise_hopCnt (e : ErrorBit) : (s.raise e).hopCnt = s.hopCnt := rfl
@[simp] theorem raise_gain (e : ErrorBit) : (s.raise e).gain = s.gain := rfl
@[simp] theorem raise_phaseBound (e : ErrorBit) : (s.raise e).phaseBound = s.phaseBound := rfl
@[simp] theorem raise_lastCmd (e : ErrorBit) : (s.raise e).lastCmd = s.lastCmd := rfl
@[simp] theorem raise_done (e : ErrorBit) : (s.raise e).done = s.done := rfl
@[simp] theorem raise_err (e : ErrorBit) : (s.raise e).err = s.err ||| e.mask := rfl
@[simp] theorem raise_seq (e : ErrorBit) : (s.raise e).seq = s.seq := rfl
@[simp] theorem raise_agenda (e : ErrorBit) : (s.raise e).agenda = s.agenda := rfl
@[simp] theorem raise_draws (e : ErrorBit) : (s.raise e).draws = s.draws := rfl
@[simp] theorem raise_busOut (e : ErrorBit) : (s.raise e).busOut = s.busOut := rfl
@[simp] theorem raise_ready (e : ErrorBit) : (s.raise e).ready = s.ready := rfl
@[simp] theorem raise_num (e : ErrorBit) : (s.raise e).num = s.num := rfl
@[simp] theorem raise_busy (e : ErrorBit) : (s.raise e).busy = s.busy := rfl

/-! ### clearErrors -/

@[simp] theorem clearErrors_params (v : Word) : (s.clearErrors v).params = s.params := rfl
@[simp] theorem clearErrors_rom (v : Word) : (s.clearErrors v).rom = s.rom := rfl
@[simp] theorem clearErrors_mem (v : Word) : (s.clearErrors v).mem = s.mem := rfl
@[simp] theorem clearErrors_magActive (v : Word) : (s.clearErrors v).magActive = s.magActive := rfl
@[simp] theorem clearErrors_magValid (v : Word) : (s.clearErrors v).magValid = s.magValid := rfl
@[simp] theorem clearErrors_magLen (v : Word) : (s.clearErrors v).magLen = s.magLen := rfl
@[simp] theorem clearErrors_inWr (v : Word) : (s.clearErrors v).inWr = s.inWr := rfl
@[simp] theorem clearErrors_outWr (v : Word) : (s.clearErrors v).outWr = s.outWr := rfl
@[simp] theorem clearErrors_outRd (v : Word) : (s.clearErrors v).outRd = s.outRd := rfl
@[simp] theorem clearErrors_hopCnt (v : Word) : (s.clearErrors v).hopCnt = s.hopCnt := rfl
@[simp] theorem clearErrors_gain (v : Word) : (s.clearErrors v).gain = s.gain := rfl
@[simp] theorem clearErrors_phaseBound (v : Word) : (s.clearErrors v).phaseBound = s.phaseBound := rfl
@[simp] theorem clearErrors_lastCmd (v : Word) : (s.clearErrors v).lastCmd = s.lastCmd := rfl
@[simp] theorem clearErrors_done (v : Word) : (s.clearErrors v).done = s.done := rfl
@[simp] theorem clearErrors_err (v : Word) : (s.clearErrors v).err = s.err &&& ~~~(v.setWidth 7 &&& 0x7E#7) := rfl
@[simp] theorem clearErrors_seq (v : Word) : (s.clearErrors v).seq = s.seq := rfl
@[simp] theorem clearErrors_agenda (v : Word) : (s.clearErrors v).agenda = s.agenda := rfl
@[simp] theorem clearErrors_draws (v : Word) : (s.clearErrors v).draws = s.draws := rfl
@[simp] theorem clearErrors_busOut (v : Word) : (s.clearErrors v).busOut = s.busOut := rfl
@[simp] theorem clearErrors_ready (v : Word) : (s.clearErrors v).ready = s.ready := rfl
@[simp] theorem clearErrors_num (v : Word) : (s.clearErrors v).num = s.num := rfl
@[simp] theorem clearErrors_busy (v : Word) : (s.clearErrors v).busy = s.busy := rfl

/-! ### setWord -/

@[simp] theorem setWord_params (A : Arr) (i : Nat) (v : Word) : (s.setWord A i v).params = s.params := rfl
@[simp] theorem setWord_rom (A : Arr) (i : Nat) (v : Word) : (s.setWord A i v).rom = s.rom := rfl
@[simp] theorem setWord_mem (A : Arr) (i : Nat) (v : Word) : (s.setWord A i v).mem = s.mem.writeWord (A.addr i) v := rfl
@[simp] theorem setWord_magActive (A : Arr) (i : Nat) (v : Word) : (s.setWord A i v).magActive = s.magActive := rfl
@[simp] theorem setWord_magValid (A : Arr) (i : Nat) (v : Word) : (s.setWord A i v).magValid = s.magValid := rfl
@[simp] theorem setWord_magLen (A : Arr) (i : Nat) (v : Word) : (s.setWord A i v).magLen = s.magLen := rfl
@[simp] theorem setWord_inWr (A : Arr) (i : Nat) (v : Word) : (s.setWord A i v).inWr = s.inWr := rfl
@[simp] theorem setWord_outWr (A : Arr) (i : Nat) (v : Word) : (s.setWord A i v).outWr = s.outWr := rfl
@[simp] theorem setWord_outRd (A : Arr) (i : Nat) (v : Word) : (s.setWord A i v).outRd = s.outRd := rfl
@[simp] theorem setWord_hopCnt (A : Arr) (i : Nat) (v : Word) : (s.setWord A i v).hopCnt = s.hopCnt := rfl
@[simp] theorem setWord_gain (A : Arr) (i : Nat) (v : Word) : (s.setWord A i v).gain = s.gain := rfl
@[simp] theorem setWord_phaseBound (A : Arr) (i : Nat) (v : Word) : (s.setWord A i v).phaseBound = s.phaseBound := rfl
@[simp] theorem setWord_lastCmd (A : Arr) (i : Nat) (v : Word) : (s.setWord A i v).lastCmd = s.lastCmd := rfl
@[simp] theorem setWord_done (A : Arr) (i : Nat) (v : Word) : (s.setWord A i v).done = s.done := rfl
@[simp] theorem setWord_err (A : Arr) (i : Nat) (v : Word) : (s.setWord A i v).err = s.err := rfl
@[simp] theorem setWord_seq (A : Arr) (i : Nat) (v : Word) : (s.setWord A i v).seq = s.seq := rfl
@[simp] theorem setWord_agenda (A : Arr) (i : Nat) (v : Word) : (s.setWord A i v).agenda = s.agenda := rfl
@[simp] theorem setWord_draws (A : Arr) (i : Nat) (v : Word) : (s.setWord A i v).draws = s.draws := rfl
@[simp] theorem setWord_busOut (A : Arr) (i : Nat) (v : Word) : (s.setWord A i v).busOut = s.busOut := rfl
@[simp] theorem setWord_ready (A : Arr) (i : Nat) (v : Word) : (s.setWord A i v).ready = s.ready := rfl
@[simp] theorem setWord_num (A : Arr) (i : Nat) (v : Word) : (s.setWord A i v).num = s.num := rfl
@[simp] theorem setWord_busy (A : Arr) (i : Nat) (v : Word) : (s.setWord A i v).busy = s.busy := rfl

/-! ### setWords -/

@[simp] theorem setWords_params (A : Arr) (ws : List Word) : (s.setWords A ws).params = s.params := rfl
@[simp] theorem setWords_rom (A : Arr) (ws : List Word) : (s.setWords A ws).rom = s.rom := rfl
@[simp] theorem setWords_mem (A : Arr) (ws : List Word) : (s.setWords A ws).mem = s.mem.writeWords A.base ws := rfl
@[simp] theorem setWords_magActive (A : Arr) (ws : List Word) : (s.setWords A ws).magActive = s.magActive := rfl
@[simp] theorem setWords_magValid (A : Arr) (ws : List Word) : (s.setWords A ws).magValid = s.magValid := rfl
@[simp] theorem setWords_magLen (A : Arr) (ws : List Word) : (s.setWords A ws).magLen = s.magLen := rfl
@[simp] theorem setWords_inWr (A : Arr) (ws : List Word) : (s.setWords A ws).inWr = s.inWr := rfl
@[simp] theorem setWords_outWr (A : Arr) (ws : List Word) : (s.setWords A ws).outWr = s.outWr := rfl
@[simp] theorem setWords_outRd (A : Arr) (ws : List Word) : (s.setWords A ws).outRd = s.outRd := rfl
@[simp] theorem setWords_hopCnt (A : Arr) (ws : List Word) : (s.setWords A ws).hopCnt = s.hopCnt := rfl
@[simp] theorem setWords_gain (A : Arr) (ws : List Word) : (s.setWords A ws).gain = s.gain := rfl
@[simp] theorem setWords_phaseBound (A : Arr) (ws : List Word) : (s.setWords A ws).phaseBound = s.phaseBound := rfl
@[simp] theorem setWords_lastCmd (A : Arr) (ws : List Word) : (s.setWords A ws).lastCmd = s.lastCmd := rfl
@[simp] theorem setWords_done (A : Arr) (ws : List Word) : (s.setWords A ws).done = s.done := rfl
@[simp] theorem setWords_err (A : Arr) (ws : List Word) : (s.setWords A ws).err = s.err := rfl
@[simp] theorem setWords_seq (A : Arr) (ws : List Word) : (s.setWords A ws).seq = s.seq := rfl
@[simp] theorem setWords_agenda (A : Arr) (ws : List Word) : (s.setWords A ws).agenda = s.agenda := rfl
@[simp] theorem setWords_draws (A : Arr) (ws : List Word) : (s.setWords A ws).draws = s.draws := rfl
@[simp] theorem setWords_busOut (A : Arr) (ws : List Word) : (s.setWords A ws).busOut = s.busOut := rfl
@[simp] theorem setWords_ready (A : Arr) (ws : List Word) : (s.setWords A ws).ready = s.ready := rfl
@[simp] theorem setWords_num (A : Arr) (ws : List Word) : (s.setWords A ws).num = s.num := rfl
@[simp] theorem setWords_busy (A : Arr) (ws : List Word) : (s.setWords A ws).busy = s.busy := rfl

/-! ### tick -/

@[simp] theorem tick_params : (s.tick).params = s.params := rfl
@[simp] theorem tick_rom : (s.tick).rom = s.rom := rfl
@[simp] theorem tick_mem : (s.tick).mem = s.mem := rfl
@[simp] theorem tick_magActive : (s.tick).magActive = s.magActive := rfl
@[simp] theorem tick_magValid : (s.tick).magValid = s.magValid := rfl
@[simp] theorem tick_magLen : (s.tick).magLen = s.magLen := rfl
@[simp] theorem tick_inWr : (s.tick).inWr = s.inWr := rfl
@[simp] theorem tick_outWr : (s.tick).outWr = s.outWr := rfl
@[simp] theorem tick_outRd : (s.tick).outRd = s.outRd := rfl
@[simp] theorem tick_hopCnt : (s.tick).hopCnt = s.hopCnt := rfl
@[simp] theorem tick_gain : (s.tick).gain = s.gain := rfl
@[simp] theorem tick_phaseBound : (s.tick).phaseBound = s.phaseBound := rfl
@[simp] theorem tick_lastCmd : (s.tick).lastCmd = s.lastCmd := rfl
@[simp] theorem tick_done : (s.tick).done = s.done := rfl
@[simp] theorem tick_err : (s.tick).err = s.err := rfl
@[simp] theorem tick_seq : (s.tick).seq = s.seq := rfl
@[simp] theorem tick_agenda : (s.tick).agenda = s.agenda := rfl
@[simp] theorem tick_draws : (s.tick).draws = s.draws + 1 := rfl
@[simp] theorem tick_busOut : (s.tick).busOut = s.busOut := rfl
@[simp] theorem tick_ready : (s.tick).ready = s.ready := rfl
@[simp] theorem tick_num : (s.tick).num = s.num := rfl
@[simp] theorem tick_busy : (s.tick).busy = s.busy := rfl

/-! ### accept -/

@[simp] theorem accept_params (w : Word) (i : Instr) : (s.accept w i).params = s.params := rfl
@[simp] theorem accept_rom (w : Word) (i : Instr) : (s.accept w i).rom = s.rom := rfl
@[simp] theorem accept_mem (w : Word) (i : Instr) : (s.accept w i).mem = s.mem := rfl
@[simp] theorem accept_magActive (w : Word) (i : Instr) : (s.accept w i).magActive = s.magActive := rfl
@[simp] theorem accept_magValid (w : Word) (i : Instr) : (s.accept w i).magValid = s.magValid := rfl
@[simp] theorem accept_magLen (w : Word) (i : Instr) : (s.accept w i).magLen = s.magLen := rfl
@[simp] theorem accept_inWr (w : Word) (i : Instr) : (s.accept w i).inWr = s.inWr := rfl
@[simp] theorem accept_outWr (w : Word) (i : Instr) : (s.accept w i).outWr = s.outWr := rfl
@[simp] theorem accept_outRd (w : Word) (i : Instr) : (s.accept w i).outRd = s.outRd := rfl
@[simp] theorem accept_hopCnt (w : Word) (i : Instr) : (s.accept w i).hopCnt = s.hopCnt := rfl
@[simp] theorem accept_gain (w : Word) (i : Instr) : (s.accept w i).gain = s.gain := rfl
@[simp] theorem accept_phaseBound (w : Word) (i : Instr) : (s.accept w i).phaseBound = s.phaseBound := rfl
@[simp] theorem accept_lastCmd (w : Word) (i : Instr) : (s.accept w i).lastCmd = w := rfl
@[simp] theorem accept_done (w : Word) (i : Instr) : (s.accept w i).done = false := rfl
@[simp] theorem accept_err (w : Word) (i : Instr) : (s.accept w i).err = s.err := rfl
@[simp] theorem accept_seq (w : Word) (i : Instr) : (s.accept w i).seq = .run i (firstPhase i) := rfl
@[simp] theorem accept_agenda (w : Word) (i : Instr) : (s.accept w i).agenda = s.agenda := rfl
@[simp] theorem accept_draws (w : Word) (i : Instr) : (s.accept w i).draws = s.draws := rfl
@[simp] theorem accept_busOut (w : Word) (i : Instr) : (s.accept w i).busOut = s.busOut := rfl
@[simp] theorem accept_ready (w : Word) (i : Instr) : (s.accept w i).ready = s.ready := rfl
@[simp] theorem accept_num (w : Word) (i : Instr) : (s.accept w i).num = s.num := rfl

/-! ### finish -/

@[simp] theorem finish_params : (s.finish).params = s.params := rfl
@[simp] theorem finish_rom : (s.finish).rom = s.rom := rfl
@[simp] theorem finish_mem : (s.finish).mem = s.mem := rfl
@[simp] theorem finish_magActive : (s.finish).magActive = s.magActive := rfl
@[simp] theorem finish_magValid : (s.finish).magValid = s.magValid := rfl
@[simp] theorem finish_magLen : (s.finish).magLen = s.magLen := rfl
@[simp] theorem finish_inWr : (s.finish).inWr = s.inWr := rfl
@[simp] theorem finish_outWr : (s.finish).outWr = s.outWr := rfl
@[simp] theorem finish_outRd : (s.finish).outRd = s.outRd := rfl
@[simp] theorem finish_hopCnt : (s.finish).hopCnt = s.hopCnt := rfl
@[simp] theorem finish_gain : (s.finish).gain = s.gain := rfl
@[simp] theorem finish_phaseBound : (s.finish).phaseBound = s.phaseBound := rfl
@[simp] theorem finish_lastCmd : (s.finish).lastCmd = s.lastCmd := rfl
@[simp] theorem finish_done : (s.finish).done = true := rfl
@[simp] theorem finish_err : (s.finish).err = s.err := rfl
@[simp] theorem finish_seq : (s.finish).seq = .idle := rfl
@[simp] theorem finish_agenda : (s.finish).agenda = s.agenda := rfl
@[simp] theorem finish_draws : (s.finish).draws = s.draws := rfl
@[simp] theorem finish_busOut : (s.finish).busOut = s.busOut := rfl
@[simp] theorem finish_ready : (s.finish).ready = s.ready := rfl
@[simp] theorem finish_num : (s.finish).num = s.num := rfl

/-! ### publish -/

@[simp] theorem publish_params (v : Word) : (s.publish v).params = s.params := rfl
@[simp] theorem publish_rom (v : Word) : (s.publish v).rom = s.rom := rfl
@[simp] theorem publish_mem (v : Word) : (s.publish v).mem = s.mem := rfl
@[simp] theorem publish_magActive (v : Word) : (s.publish v).magActive = !s.magActive := rfl
@[simp] theorem publish_magValid (v : Word) : (s.publish v).magValid = true := rfl
@[simp] theorem publish_magLen (v : Word) : (s.publish v).magLen = v.setWidth 24 := rfl
@[simp] theorem publish_inWr (v : Word) : (s.publish v).inWr = s.inWr := rfl
@[simp] theorem publish_outWr (v : Word) : (s.publish v).outWr = s.outWr := rfl
@[simp] theorem publish_outRd (v : Word) : (s.publish v).outRd = s.outRd := rfl
@[simp] theorem publish_hopCnt (v : Word) : (s.publish v).hopCnt = s.hopCnt := rfl
@[simp] theorem publish_gain (v : Word) : (s.publish v).gain = s.gain := rfl
@[simp] theorem publish_phaseBound (v : Word) : (s.publish v).phaseBound = s.phaseBound := rfl
@[simp] theorem publish_lastCmd (v : Word) : (s.publish v).lastCmd = s.lastCmd := rfl
@[simp] theorem publish_done (v : Word) : (s.publish v).done = s.done := rfl
@[simp] theorem publish_err (v : Word) : (s.publish v).err = s.err := rfl
@[simp] theorem publish_seq (v : Word) : (s.publish v).seq = s.seq := rfl
@[simp] theorem publish_agenda (v : Word) : (s.publish v).agenda = s.agenda := rfl
@[simp] theorem publish_draws (v : Word) : (s.publish v).draws = s.draws := rfl
@[simp] theorem publish_busOut (v : Word) : (s.publish v).busOut = s.busOut := rfl
@[simp] theorem publish_ready (v : Word) : (s.publish v).ready = s.ready := rfl
@[simp] theorem publish_num (v : Word) : (s.publish v).num = s.num := rfl
@[simp] theorem publish_busy (v : Word) : (s.publish v).busy = s.busy := rfl

/-! ### inPush -/

@[simp] theorem inPush_params (v : Word) : (s.inPush v).params = s.params := rfl
@[simp] theorem inPush_rom (v : Word) : (s.inPush v).rom = s.rom := rfl
@[simp] theorem inPush_mem (v : Word) : (s.inPush v).mem = s.mem.writeWord (Arr.addr .inring s.inWr) v := rfl
@[simp] theorem inPush_magActive (v : Word) : (s.inPush v).magActive = s.magActive := rfl
@[simp] theorem inPush_magValid (v : Word) : (s.inPush v).magValid = s.magValid := rfl
@[simp] theorem inPush_magLen (v : Word) : (s.inPush v).magLen = s.magLen := rfl
@[simp] theorem inPush_inWr (v : Word) : (s.inPush v).inWr = ringIndex s.inWr 1 s.params.cIn := rfl
@[simp] theorem inPush_outWr (v : Word) : (s.inPush v).outWr = s.outWr := rfl
@[simp] theorem inPush_outRd (v : Word) : (s.inPush v).outRd = s.outRd := rfl
@[simp] theorem inPush_hopCnt (v : Word) : (s.inPush v).hopCnt = s.hopCnt := rfl
@[simp] theorem inPush_gain (v : Word) : (s.inPush v).gain = s.gain := rfl
@[simp] theorem inPush_phaseBound (v : Word) : (s.inPush v).phaseBound = s.phaseBound := rfl
@[simp] theorem inPush_lastCmd (v : Word) : (s.inPush v).lastCmd = s.lastCmd := rfl
@[simp] theorem inPush_done (v : Word) : (s.inPush v).done = s.done := rfl
@[simp] theorem inPush_err (v : Word) : (s.inPush v).err = s.err := rfl
@[simp] theorem inPush_seq (v : Word) : (s.inPush v).seq = s.seq := rfl
@[simp] theorem inPush_agenda (v : Word) : (s.inPush v).agenda = s.agenda := rfl
@[simp] theorem inPush_draws (v : Word) : (s.inPush v).draws = s.draws := rfl
@[simp] theorem inPush_busOut (v : Word) : (s.inPush v).busOut = s.busOut := rfl
@[simp] theorem inPush_ready (v : Word) : (s.inPush v).ready = s.ready := rfl
@[simp] theorem inPush_num (v : Word) : (s.inPush v).num = s.num := rfl
@[simp] theorem inPush_busy (v : Word) : (s.inPush v).busy = s.busy := rfl

/-! ### outSkip -/

@[simp] theorem outSkip_params : (s.outSkip).params = s.params := rfl
@[simp] theorem outSkip_rom : (s.outSkip).rom = s.rom := rfl
@[simp] theorem outSkip_mem : (s.outSkip).mem = s.mem := rfl
@[simp] theorem outSkip_magActive : (s.outSkip).magActive = s.magActive := rfl
@[simp] theorem outSkip_magValid : (s.outSkip).magValid = s.magValid := rfl
@[simp] theorem outSkip_magLen : (s.outSkip).magLen = s.magLen := rfl
@[simp] theorem outSkip_inWr : (s.outSkip).inWr = s.inWr := rfl
@[simp] theorem outSkip_outWr : (s.outSkip).outWr = ringIndex s.outWr s.params.h s.params.cOut := rfl
@[simp] theorem outSkip_outRd : (s.outSkip).outRd = s.outRd := rfl
@[simp] theorem outSkip_hopCnt : (s.outSkip).hopCnt = s.hopCnt := rfl
@[simp] theorem outSkip_gain : (s.outSkip).gain = s.gain := rfl
@[simp] theorem outSkip_phaseBound : (s.outSkip).phaseBound = s.phaseBound := rfl
@[simp] theorem outSkip_lastCmd : (s.outSkip).lastCmd = s.lastCmd := rfl
@[simp] theorem outSkip_done : (s.outSkip).done = s.done := rfl
@[simp] theorem outSkip_err : (s.outSkip).err = s.err := rfl
@[simp] theorem outSkip_seq : (s.outSkip).seq = s.seq := rfl
@[simp] theorem outSkip_agenda : (s.outSkip).agenda = s.agenda := rfl
@[simp] theorem outSkip_draws : (s.outSkip).draws = s.draws := rfl
@[simp] theorem outSkip_busOut : (s.outSkip).busOut = s.busOut := rfl
@[simp] theorem outSkip_ready : (s.outSkip).ready = s.ready := rfl
@[simp] theorem outSkip_num : (s.outSkip).num = s.num := rfl
@[simp] theorem outSkip_busy : (s.outSkip).busy = s.busy := rfl

/-! ### outAddFrame -/

@[simp] theorem outAddFrame_params (k : Site) (f : List Word) : (s.outAddFrame k f).params = s.params := rfl
@[simp] theorem outAddFrame_rom (k : Site) (f : List Word) : (s.outAddFrame k f).rom = s.rom := rfl
@[simp] theorem outAddFrame_mem (k : Site) (f : List Word) : (s.outAddFrame k f).mem = (List.range s.params.n).foldl (fun m n => s.outAddSample k f n m) s.mem := rfl
@[simp] theorem outAddFrame_magActive (k : Site) (f : List Word) : (s.outAddFrame k f).magActive = s.magActive := rfl
@[simp] theorem outAddFrame_magValid (k : Site) (f : List Word) : (s.outAddFrame k f).magValid = s.magValid := rfl
@[simp] theorem outAddFrame_magLen (k : Site) (f : List Word) : (s.outAddFrame k f).magLen = s.magLen := rfl
@[simp] theorem outAddFrame_inWr (k : Site) (f : List Word) : (s.outAddFrame k f).inWr = s.inWr := rfl
@[simp] theorem outAddFrame_outWr (k : Site) (f : List Word) : (s.outAddFrame k f).outWr = ringIndex s.outWr s.params.h s.params.cOut := rfl
@[simp] theorem outAddFrame_outRd (k : Site) (f : List Word) : (s.outAddFrame k f).outRd = s.outRd := rfl
@[simp] theorem outAddFrame_hopCnt (k : Site) (f : List Word) : (s.outAddFrame k f).hopCnt = s.hopCnt := rfl
@[simp] theorem outAddFrame_gain (k : Site) (f : List Word) : (s.outAddFrame k f).gain = s.gain := rfl
@[simp] theorem outAddFrame_phaseBound (k : Site) (f : List Word) : (s.outAddFrame k f).phaseBound = s.phaseBound := rfl
@[simp] theorem outAddFrame_lastCmd (k : Site) (f : List Word) : (s.outAddFrame k f).lastCmd = s.lastCmd := rfl
@[simp] theorem outAddFrame_done (k : Site) (f : List Word) : (s.outAddFrame k f).done = s.done := rfl
@[simp] theorem outAddFrame_err (k : Site) (f : List Word) : (s.outAddFrame k f).err = s.err := rfl
@[simp] theorem outAddFrame_seq (k : Site) (f : List Word) : (s.outAddFrame k f).seq = s.seq := rfl
@[simp] theorem outAddFrame_agenda (k : Site) (f : List Word) : (s.outAddFrame k f).agenda = s.agenda := rfl
@[simp] theorem outAddFrame_draws (k : Site) (f : List Word) : (s.outAddFrame k f).draws = s.draws := rfl
@[simp] theorem outAddFrame_busOut (k : Site) (f : List Word) : (s.outAddFrame k f).busOut = s.busOut := rfl
@[simp] theorem outAddFrame_ready (k : Site) (f : List Word) : (s.outAddFrame k f).ready = s.ready := rfl
@[simp] theorem outAddFrame_num (k : Site) (f : List Word) : (s.outAddFrame k f).num = s.num := rfl
@[simp] theorem outAddFrame_busy (k : Site) (f : List Word) : (s.outAddFrame k f).busy = s.busy := rfl

/-! ### outDrain -/

@[simp] theorem outDrain_params (k : Site) (g : List Word) : (s.outDrain k g).params = s.params := rfl
@[simp] theorem outDrain_rom (k : Site) (g : List Word) : (s.outDrain k g).rom = s.rom := rfl
@[simp] theorem outDrain_mem (k : Site) (g : List Word) : (s.outDrain k g).mem = (List.range s.params.b).foldl (fun m j => s.outTakeSample k (g.getD j 0) j m) s.mem := rfl
@[simp] theorem outDrain_magActive (k : Site) (g : List Word) : (s.outDrain k g).magActive = s.magActive := rfl
@[simp] theorem outDrain_magValid (k : Site) (g : List Word) : (s.outDrain k g).magValid = s.magValid := rfl
@[simp] theorem outDrain_magLen (k : Site) (g : List Word) : (s.outDrain k g).magLen = s.magLen := rfl
@[simp] theorem outDrain_inWr (k : Site) (g : List Word) : (s.outDrain k g).inWr = s.inWr := rfl
@[simp] theorem outDrain_outWr (k : Site) (g : List Word) : (s.outDrain k g).outWr = s.outWr := rfl
@[simp] theorem outDrain_outRd (k : Site) (g : List Word) : (s.outDrain k g).outRd = ringIndex s.outRd s.params.b s.params.cOut := rfl
@[simp] theorem outDrain_hopCnt (k : Site) (g : List Word) : (s.outDrain k g).hopCnt = s.hopCnt := rfl
@[simp] theorem outDrain_gain (k : Site) (g : List Word) : (s.outDrain k g).gain = s.gain := rfl
@[simp] theorem outDrain_phaseBound (k : Site) (g : List Word) : (s.outDrain k g).phaseBound = s.phaseBound := rfl
@[simp] theorem outDrain_lastCmd (k : Site) (g : List Word) : (s.outDrain k g).lastCmd = s.lastCmd := rfl
@[simp] theorem outDrain_done (k : Site) (g : List Word) : (s.outDrain k g).done = s.done := rfl
@[simp] theorem outDrain_err (k : Site) (g : List Word) : (s.outDrain k g).err = s.err := rfl
@[simp] theorem outDrain_seq (k : Site) (g : List Word) : (s.outDrain k g).seq = s.seq := rfl
@[simp] theorem outDrain_agenda (k : Site) (g : List Word) : (s.outDrain k g).agenda = s.agenda := rfl
@[simp] theorem outDrain_draws (k : Site) (g : List Word) : (s.outDrain k g).draws = s.draws := rfl
@[simp] theorem outDrain_busOut (k : Site) (g : List Word) : (s.outDrain k g).busOut = s.busOut := rfl
@[simp] theorem outDrain_ready (k : Site) (g : List Word) : (s.outDrain k g).ready = s.ready := rfl
@[simp] theorem outDrain_num (k : Site) (g : List Word) : (s.outDrain k g).num = s.num := rfl
@[simp] theorem outDrain_busy (k : Site) (g : List Word) : (s.outDrain k g).busy = s.busy := rfl

/-! ### withAgenda -/

@[simp] theorem withAgenda_params (rest : List Event) : (s.withAgenda rest).params = s.params := rfl
@[simp] theorem withAgenda_rom (rest : List Event) : (s.withAgenda rest).rom = s.rom := rfl
@[simp] theorem withAgenda_mem (rest : List Event) : (s.withAgenda rest).mem = s.mem := rfl
@[simp] theorem withAgenda_magActive (rest : List Event) : (s.withAgenda rest).magActive = s.magActive := rfl
@[simp] theorem withAgenda_magValid (rest : List Event) : (s.withAgenda rest).magValid = s.magValid := rfl
@[simp] theorem withAgenda_magLen (rest : List Event) : (s.withAgenda rest).magLen = s.magLen := rfl
@[simp] theorem withAgenda_inWr (rest : List Event) : (s.withAgenda rest).inWr = s.inWr := rfl
@[simp] theorem withAgenda_outWr (rest : List Event) : (s.withAgenda rest).outWr = s.outWr := rfl
@[simp] theorem withAgenda_outRd (rest : List Event) : (s.withAgenda rest).outRd = s.outRd := rfl
@[simp] theorem withAgenda_hopCnt (rest : List Event) : (s.withAgenda rest).hopCnt = s.hopCnt := rfl
@[simp] theorem withAgenda_gain (rest : List Event) : (s.withAgenda rest).gain = s.gain := rfl
@[simp] theorem withAgenda_phaseBound (rest : List Event) : (s.withAgenda rest).phaseBound = s.phaseBound := rfl
@[simp] theorem withAgenda_lastCmd (rest : List Event) : (s.withAgenda rest).lastCmd = s.lastCmd := rfl
@[simp] theorem withAgenda_done (rest : List Event) : (s.withAgenda rest).done = s.done := rfl
@[simp] theorem withAgenda_err (rest : List Event) : (s.withAgenda rest).err = s.err := rfl
@[simp] theorem withAgenda_seq (rest : List Event) : (s.withAgenda rest).seq = s.seq := rfl
@[simp] theorem withAgenda_agenda (rest : List Event) : (s.withAgenda rest).agenda = rest := rfl
@[simp] theorem withAgenda_draws (rest : List Event) : (s.withAgenda rest).draws = s.draws := rfl
@[simp] theorem withAgenda_busOut (rest : List Event) : (s.withAgenda rest).busOut = s.busOut := rfl
@[simp] theorem withAgenda_ready (rest : List Event) : (s.withAgenda rest).ready = s.ready := rfl
@[simp] theorem withAgenda_num (rest : List Event) : (s.withAgenda rest).num = s.num := rfl
@[simp] theorem withAgenda_busy (rest : List Event) : (s.withAgenda rest).busy = s.busy := rfl

/-! ### resetInput -/

@[simp] theorem resetInput_params (c : Memory) : (s.resetInput c).params = s.params := rfl
@[simp] theorem resetInput_rom (c : Memory) : (s.resetInput c).rom = s.rom := rfl
@[simp] theorem resetInput_mem (c : Memory) : (s.resetInput c).mem = resetMemory s.params c := rfl
@[simp] theorem resetInput_magActive (c : Memory) : (s.resetInput c).magActive = false := rfl
@[simp] theorem resetInput_magValid (c : Memory) : (s.resetInput c).magValid = false := rfl
@[simp] theorem resetInput_magLen (c : Memory) : (s.resetInput c).magLen = 0 := rfl
@[simp] theorem resetInput_inWr (c : Memory) : (s.resetInput c).inWr = 0 := rfl
@[simp] theorem resetInput_outWr (c : Memory) : (s.resetInput c).outWr = 0 := rfl
@[simp] theorem resetInput_outRd (c : Memory) : (s.resetInput c).outRd = 0 := rfl
@[simp] theorem resetInput_hopCnt (c : Memory) : (s.resetInput c).hopCnt = 0 := rfl
@[simp] theorem resetInput_gain (c : Memory) : (s.resetInput c).gain = 0x3E99999A#32 := rfl
@[simp] theorem resetInput_phaseBound (c : Memory) : (s.resetInput c).phaseBound = s.params.phiReset := rfl
@[simp] theorem resetInput_lastCmd (c : Memory) : (s.resetInput c).lastCmd = 0 := rfl
@[simp] theorem resetInput_done (c : Memory) : (s.resetInput c).done = false := rfl
@[simp] theorem resetInput_err (c : Memory) : (s.resetInput c).err = if s.params.Valid then 0 else 1 := rfl
@[simp] theorem resetInput_seq (c : Memory) : (s.resetInput c).seq = .idle := rfl
@[simp] theorem resetInput_agenda (c : Memory) : (s.resetInput c).agenda = s.agenda := rfl
@[simp] theorem resetInput_draws (c : Memory) : (s.resetInput c).draws = s.draws := rfl
@[simp] theorem resetInput_busOut (c : Memory) : (s.resetInput c).busOut = none := rfl
@[simp] theorem resetInput_ready (c : Memory) : (s.resetInput c).ready = s.ready := rfl
@[simp] theorem resetInput_num (c : Memory) : (s.resetInput c).num = s.num := rfl

/-! ### Derived flags and the reset state -/

@[simp] theorem accept_busy (w : Word) (i : Instr) : (s.accept w i).busy = true := by simp [State.busy]

@[simp] theorem finish_busy : s.finish.busy = false := by simp [State.busy]

@[simp] theorem resetInput_busy (c : Memory) : (s.resetInput c).busy = false := by simp [State.busy]

theorem busy_eq_false_iff : s.busy = false ↔ s.seq = .idle := by simp [State.busy]

theorem busy_of_run {i : Instr} {p : Phase} (h : s.seq = .run i p) : s.busy = true := by simp [State.busy, h]

theorem num_of_binary32 (h : s.params.num = .binary32) : s.num = Num.binary32 := by rw [State.num, h]; rfl

theorem valid_of_ready (h : s.ready = true) : s.params.Valid := by simpa [State.ready] using h

end Sys2Proof.Machine.State
end

