-- ==== Sys2Proof/Laws/Arrays.lean ====
section
/-! SUPPORT. The block's arrays do not overlap, and reading a word after a write to an array gives the word written or what
was there before. -/

namespace Sys2Proof.Machine

/-- The number of words a region has room for (R62). -/
theorem Arr.size_le {p : Params} (h : p.Valid) (A : Arr) : A.size p ≤ 262144 := by
  obtain ⟨⟨-, -, h1⟩, -, -, -, h2, h3, h4⟩ := h
  cases A <;> simp only [Arr.size] <;> omega

/-- Two different arrays lie in two different regions. -/
theorem Arr.base_apart {A B : Arr} (h : A ≠ B) : A.base + 0x100000 ≤ B.base ∨ B.base + 0x100000 ≤ A.base := by
  cases A <;> cases B <;> first | exact absurd rfl h | decide

/-- Words of two different arrays do not overlap. -/
theorem Arr.addr_apart {A B : Arr} {i j : Nat} (h : A ≠ B) (hi : i < 262144) (hj : j < 262144) :
    A.addr i + 4 ≤ B.addr j ∨ B.addr j + 4 ≤ A.addr i := by
  have := Arr.base_apart h
  simp only [Arr.addr]
  omega

/-- An address held by one array is held by no other. -/
theorem Arr.holds_unique {p : Params} {A B : Arr} {a : Nat} (h : p.Valid) (hA : A.holds p a = true) (hB : B.holds p a = true) :
    A = B := by
  by_contra hne
  have h1 := Arr.base_apart hne
  have h2 := Arr.size_le h A
  have h3 := Arr.size_le h B
  simp only [Arr.holds, decide_eq_true_eq] at hA hB
  omega

namespace State

variable (s : State)

theorem word_setWord_same (A : Arr) (i : Nat) (v : Word) : (s.setWord A i v).word A i = v := by
  simp [State.word]

theorem word_setWord_ne {i j : Nat} (A : Arr) (v : Word) (h : j ≠ i) : (s.setWord A i v).word A j = s.word A j := by
  simp only [State.word, setWord_mem]
  exact Memory.readWord_writeWord_disjoint _ _ (by simp only [Arr.addr]; omega)

theorem word_setWord_other {A B : Arr} {i j : Nat} (v : Word) (h : B ≠ A) (hi : i < 262144) (hj : j < 262144) :
    (s.setWord A i v).word B j = s.word B j := by
  simp only [State.word, setWord_mem]
  exact Memory.readWord_writeWord_disjoint _ _ (Arr.addr_apart h hj hi)

@[simp] theorem length_words (A : Arr) (n : Nat) : (s.words A n).length = n := by simp [State.words]

theorem getD_words {n i : Nat} (A : Arr) (d : Word) (h : i < n) : (s.words A n).getD i d = s.word A i :=
  Memory.getD_readWords _ _ _ h

theorem words_setWords_same (A : Arr) (ws : List Word) : (s.setWords A ws).words A ws.length = ws := by
  simp [State.words, Memory.readWords_writeWords]

theorem words_setWords_other {A B : Arr} {n : Nat} (ws : List Word) (h : B ≠ A) (hw : ws.length ≤ 262144)
    (hn : n ≤ 262144) : (s.setWords A ws).words B n = s.words B n := by
  simp only [State.words, setWords_mem]
  refine Memory.readWords_congr fun b _ _ => Memory.read_writeWords_outside _ _ ?_
  have := Arr.base_apart h
  omega

theorem read_setWord_outside {A : Arr} {i a : Nat} (v : Word) (h : a < A.addr i ∨ A.addr i + 4 ≤ a) :
    (s.setWord A i v).mem.read a = s.mem.read a := by
  simpa using Memory.read_writeWord_outside s.mem v h

theorem read_setWords_outside {A : Arr} {a : Nat} (ws : List Word) (h : a < A.base ∨ A.base + 4 * ws.length ≤ a) :
    (s.setWords A ws).mem.read a = s.mem.read a := by
  simpa using Memory.read_writeWords_outside s.mem ws h

end State

/-- Memory that lies in the arrays still does after a word of an array is written. -/
theorem Memory.InArrays.writeWord {p : Params} {m : Memory} {A : Arr} {i : Nat} (w : Word) (h : m.InArrays p)
    (hi : i < A.size p) : (m.writeWord (A.addr i) w).InArrays p := by
  intro c hc
  rcases Memory.mem_writeWord hc with hc | hc
  · refine ⟨A, by cases A <;> decide, ?_⟩
    simp only [Arr.holds, Arr.addr, decide_eq_true_eq] at *
    omega
  · exact h c hc

/-- Memory that lies in the arrays still does after a run of words from an array's start is written. -/
theorem Memory.InArrays.writeWords {p : Params} {m : Memory} {A : Arr} {ws : List Word} (h : m.InArrays p)
    (hw : ws.length ≤ A.size p) : (m.writeWords A.base ws).InArrays p := by
  intro c hc
  rcases Memory.mem_writeWords hc with hc | hc
  · refine ⟨A, by cases A <;> decide, ?_⟩
    simp only [Arr.holds, decide_eq_true_eq]
    omega
  · exact h c hc

/-- The memory after a reset is canonical and lies in the arrays R46 leaves unspecified: no ring word is listed. -/
theorem wf_resetMemory (p : Params) (contents : Memory) : (resetMemory p contents).wf = true := Memory.wf_ofCells _

theorem mem_resetMemory {p : Params} {contents : Memory} {c : Host.Cell} (h : c ∈ resetMemory p contents) :
    ∃ A ∈ Arr.unspecified, A.holds p c.1 = true := by
  obtain ⟨d, hd, hdc⟩ := Memory.mem_ofCells h
  have := (List.mem_filter.1 hd).2
  rw [List.any_eq_true] at this
  rwa [hdc] at this

/-- The memory of `State.reset` is canonical. -/
theorem wf_reset : State.reset.mem.wf = true := wf_resetMemory _ _

end Sys2Proof.Machine
end

