-- ==== Sys2Proof/Laws/PerInstr.lean ====
section
/-! SUPPORT. The family RowMatch: every command's word selects its own row of the opcode table (R83), one lemma per
constructor of Instr. -/

namespace Sys2Proof.Laws.RowMatch

/-- `(match, mask)` of a command's row, as spec/opcode_table.json has them. -/
def row : Instr → Word × Word
  | .nop => (0x00000000#32, 0xFFFFFFFF#32)
  | .fftF _ _ => (0x01000000#32, 0xFFFFFFEE#32)
  | .fftI _ _ => (0x02000000#32, 0xFFFFFFEE#32)
  | .rfftF _ _ => (0x03000000#32, 0xFFFFFFEE#32)
  | .rfftI _ _ => (0x04000000#32, 0xFFFFFFEE#32)
  | .block => (0x10000000#32, 0xFFFFFFFF#32)
  | .blockv => (0x11000000#32, 0xFFFFFFFF#32)

/-- The command's word selects its row, and its fields are those of a legal word. -/
def Statement (i : Instr) : Prop := encode i &&& (row i).2 = (row i).1 ∧ i.WellFormed

theorem nop : Statement .nop := by unfold Statement; decide

theorem fftF (dst src : Buf) : Statement (.fftF dst src) := by
  unfold Statement; cases dst <;> cases src <;> decide

theorem fftI (dst src : Buf) : Statement (.fftI dst src) := by
  unfold Statement; cases dst <;> cases src <;> decide

theorem rfftF (dst src : Buf) : Statement (.rfftF dst src) := by
  unfold Statement; cases dst <;> cases src <;> decide

theorem rfftI (dst src : Buf) : Statement (.rfftI dst src) := by
  unfold Statement; cases dst <;> cases src <;> decide

theorem block : Statement .block := by unfold Statement; decide

theorem blockv : Statement .blockv := by unfold Statement; decide

end Sys2Proof.Laws.RowMatch
end

