-- ==== Sys2Proof/Laws/Reference.lean ====
section
/-! SUPPORT. A word whose value is exactly the real number is its rounding (R15), and the record over a field is plain
field arithmetic. -/

namespace Sys2Proof

/-- A real number that a finite word has exactly has that word as a nearest word. -/
theorem F32.isNearest_of_value_eq {r : ℝ} {w : Word} (hf : F32.isFinite w = true) (hv : (F32.value w : ℝ) = r) :
    F32.IsNearest r w := by
  refine ⟨hf, fun v _ => ?_, fun v _ hne h => ?_⟩
  · rw [hv, sub_self, abs_zero]
    exact abs_nonneg _
  · rw [hv, sub_self, abs_zero, abs_eq_zero, sub_eq_zero, ← hv] at h
    exact absurd (by exact_mod_cast h) hne

/-- With the sign bit R15 asks for, it rounds to that word. -/
theorem F32.isRounding_of_value_eq {r : ℝ} {w : Word} (hf : F32.isFinite w = true) (hv : (F32.value w : ℝ) = r)
    (hs : F32.sign w = true ↔ r < 0) : F32.IsRounding r w :=
  ⟨isNearest_of_value_eq hf hv, hs⟩

section
variable (K : Type) [Field K]
@[simp] theorem Num.exact_add (k : Site) (a b : K) : (Num.exact K).add k a b = a + b := rfl
@[simp] theorem Num.exact_sub (k : Site) (a b : K) : (Num.exact K).sub k a b = a - b := rfl
@[simp] theorem Num.exact_mul (k : Site) (a b : K) : (Num.exact K).mul k a b = a * b := rfl
@[simp] theorem Num.exact_div (k : Site) (a b : K) : (Num.exact K).div k a b = a / b := rfl
@[simp] theorem Num.exact_neg (a : K) : (Num.exact K).neg a = -a := rfl
@[simp] theorem Num.exact_zero : (Num.exact K).zero = 0 := rfl
@[simp] theorem Num.exact_half : (Num.exact K).half = 1 / 2 := rfl
end

end Sys2Proof
end

