-- ==== Sys2Proof/Laws/Transforms.lean ====
section
/-! SUPPORT. The transforms keep the length of what they work on, and what a butterfly, an exchange and the interleaving do
to each complex element. -/

namespace Sys2Proof

@[simp] theorem Num.binary32_add : Num.binary32.add = F32.add := rfl
@[simp] theorem Num.binary32_sub : Num.binary32.sub = F32.sub := rfl
@[simp] theorem Num.binary32_mul : Num.binary32.mul = F32.mul := rfl
@[simp] theorem Num.binary32_div : Num.binary32.div = F32.div := rfl
@[simp] theorem Num.binary32_neg : Num.binary32.neg = F32.neg := rfl
@[simp] theorem Num.binary32_zero : Num.binary32.zero = 0#32 := rfl
@[simp] theorem Num.binary32_half : Num.binary32.half = 0x3F000000#32 := rfl
@[simp] theorem Num.binary32_ofNat (n : Nat) : Num.binary32.ofNat n = F32.ofRatio false n 1 := rfl
@[simp] theorem Numerics.record_binary32 : Numerics.binary32.record = Num.binary32 := rfl
@[simp] theorem Numerics.record_zero (c : Numerics) : c.record.zero = 0#32 := by cases c <;> rfl
@[simp] theorem Numerics.record_half (c : Numerics) : c.record.half = 0x3F000000#32 := by cases c <;> rfl
@[simp] theorem Numerics.record_ofNat (c : Numerics) (n : Nat) : c.record.ofNat n = F32.ofRatio false n 1 := by
  cases c <;> rfl

end Sys2Proof

namespace Sys2Proof.Machine

variable {α : Type} (num : Num α)

/-- A fold of length-keeping operations keeps the length. -/
theorem length_foldl_of_step {α β : Type} (f : List α → β → List α) (h : ∀ A b, (f A b).length = A.length) (l : List β)
    (A : List α) : (l.foldl f A).length = A.length := by
  induction l generalizing A with
  | nil => rfl
  | cons b l ih => rw [List.foldl_cons, ih, h]

@[simp] theorem length_setComplex (A : List α) (k : Nat) (z : α × α) : (setComplex A k z).length = A.length := by
  simp [setComplex]

theorem complexAt_setComplex_same {A : List α} {k : Nat} (z : α × α) (h : 2 * k + 1 < A.length) :
    complexAt num (setComplex A k z) k = z := by
  have h0 : 2 * k < A.length := by omega
  simp [complexAt, setComplex, List.getD_eq_getElem?_getD, h, h0]

theorem complexAt_setComplex_ne {A : List α} {k j : Nat} (z : α × α) (h : j ≠ k) :
    complexAt num (setComplex A k z) j = complexAt num A j := by
  have h1 : 2 * k ≠ 2 * j := by omega
  have h2 : 2 * k + 1 ≠ 2 * j := by omega
  have h3 : 2 * k ≠ 2 * j + 1 := by omega
  simp [complexAt, setComplex, List.getD_eq_getElem?_getD, h1, h2, h3]

theorem getD_setComplex_of_ge {A : List α} {k i : Nat} (z : α × α) (d : α) (h : 2 * k + 2 ≤ i) :
    (setComplex A k z).getD i d = A.getD i d := by
  have h1 : 2 * k ≠ i := by omega
  have h2 : 2 * k + 1 ≠ i := by omega
  simp [setComplex, List.getD_eq_getElem?_getD, h1, h2]

@[simp] theorem length_butterfly (k : Site) (w : α × α) (s a : Nat) (A : List α) :
    (butterfly num k w s a A).length = A.length := by
  simp [butterfly]

@[simp] theorem length_stage (k : Site) (tw : List α) (d : Dir) (m s : Nat) (A : List α) :
    (stage num k tw d m s A).length = A.length :=
  length_foldl_of_step _ (fun A _ => length_foldl_of_step _ (fun A _ => length_butterfly num _ _ _ _ A) _ A) _ A

@[simp] theorem length_exchange (p q : Nat) (A : List α) : (exchange num p q A).length = A.length := by
  simp [exchange]

@[simp] theorem length_permute (br : List Word) (A : List α) : (permute num br A).length = A.length :=
  length_foldl_of_step _ (fun A _ => length_exchange num _ _ A) _ A

/-- `CFFT` keeps the length of its array (R105). -/
@[simp] theorem length_cfft (k : Site) (tw : List α) (br : List Word) (m : Nat) (d : Dir) (A : List α) :
    (cfft num k tw br m d A).length = A.length := by
  rw [cfft, length_permute]
  exact length_foldl_of_step _ (fun A s => length_stage num k tw d m s A) _ A

@[simp] theorem length_interleave (zs : List (α × α)) : (interleave zs).length = 2 * zs.length := by
  induction zs with
  | nil => rfl
  | cons z zs ih => simp only [interleave, List.flatMap_cons, List.length_append, List.length_cons, List.length_nil] at *; omega

theorem complexAt_interleave {zs : List (α × α)} {k : Nat} (h : k < zs.length) :
    complexAt num (interleave zs) k = zs[k] := by
  induction zs generalizing k with
  | nil => simp at h
  | cons z zs ih =>
    cases k with
    | zero => rfl
    | succ k => simpa [complexAt, interleave, Nat.mul_add] using ih (by simpa using h)

/-- A packed spectrum of `n` reals has `n` words (R116), `n` even. -/
theorem length_realForward {n : Nat} (k : Site) (tw : List α) (brh : List Word) (rtw x : List α) (h : 2 ∣ n) (h0 : 0 < n) :
    (realForward num k tw brh rtw n x).length = n := by
  simp only [realForward, length_interleave, List.length_cons, List.length_map, List.length_range]
  omega

theorem length_realInverse {n : Nat} (k : Site) (tw : List α) (brh : List Word) (rtw P : List α) (h : 2 ∣ n) (h0 : 0 < n) :
    (realInverse num k tw brh rtw n P).length = n := by
  simp only [realInverse, length_cfft, length_interleave, List.length_cons, List.length_map, List.length_range]
  omega

@[simp] theorem length_hopFrame (k : Site) (tw : List α) (br : List Word) (win : List α) (n : Nat) (bound : α)
    (mag u : List α) : (hopFrame num k tw br win n bound mag u).length = n := by
  simp [hopFrame]

/-- A valid transform size is even. -/
theorem size_even_of_valid {p : Params} (h : p.Valid) : 2 ∣ p.n := by
  obtain ⟨⟨h1, h2, -⟩, -⟩ := h
  rcases hl : Nat.log2 p.n with _ | t
  · rw [hl] at h1; omega
  · rw [hl, pow_succ] at h1
    exact ⟨2 ^ t, by omega⟩

end Sys2Proof.Machine
end

