-- ==== Sys2Proof/Laws/Rings.lean ====
section
/-! SUPPORT. What the ring primitives and the block steps can do to memory: which bytes they leave alone, the canonical form,
and that they stay inside the arrays. -/

namespace Sys2Proof.Machine

/-- Positions of one pass over a ring are different while the pass is no longer than the ring. -/
theorem ringIndex_inj {c d e cap : Nat} (hd : d < cap) (he : e < cap) (h : ringIndex c d cap = ringIndex c e cap) : d = e := by
  have h' : c + d ≡ c + e [MOD cap] := h
  exact Nat.ModEq.eq_of_lt_of_lt (Nat.ModEq.add_left_cancel' c h') hd he

theorem ringIndex_lt {c d cap : Nat} (h : 0 < cap) : ringIndex c d cap < cap := Nat.mod_lt _ h

/-- A property of memory that every pass of a loop keeps holds after the loop. -/
theorem foldl_keeps {β : Type} (P : Memory → Prop) (f : Memory → β → Memory) (l : List β) {m : Memory} (h0 : P m)
    (h : ∀ m, ∀ x ∈ l, P m → P (f m x)) : P (l.foldl f m) := by
  induction l generalizing m with
  | nil => exact h0
  | cons x l ih => exact ih (h m x (by simp) h0) fun m y hy => h m y (by simp [hy])

/-- A loop that updates one word per pass, at addresses that do not overlap: each word is updated once, from what it held
before the loop. -/
theorem readWord_foldl_update {f : Memory → Nat → Memory} {addr : Nat → Nat} {g : Nat → Word → Word}
    (hf : ∀ m n, f m n = m.writeWord (addr n) (g n (m.readWord (addr n)))) {l : List Nat} (hl : l.Nodup)
    (hd : ∀ i ∈ l, ∀ j ∈ l, i ≠ j → addr i + 4 ≤ addr j ∨ addr j + 4 ≤ addr i) (m : Memory) :
    ∀ n ∈ l, (l.foldl f m).readWord (addr n) = g n (m.readWord (addr n)) := by
  induction l generalizing m with
  | nil => simp
  | cons x l ih =>
    obtain ⟨hx, hl⟩ := List.nodup_cons.1 hl
    intro n hn
    rw [List.foldl_cons]
    have keep : ∀ j ∈ x :: l, j ≠ x → (f m x).readWord (addr j) = m.readWord (addr j) := fun j hj hne => by
      rw [hf]
      exact Memory.readWord_writeWord_disjoint _ _ (hd j hj x (by simp) hne)
    rcases List.mem_cons.1 hn with rfl | hn'
    · refine foldl_keeps (fun m' => m'.readWord (addr n) = g n (m.readWord (addr n))) f l ?_ fun m' y hy hm => ?_
      · rw [hf, Memory.readWord_writeWord_same]
      · have hne : n ≠ y := fun h => hx (h ▸ hy)
        rw [hf, Memory.readWord_writeWord_disjoint _ _ (hd n (by simp) y (by simp [hy]) hne), hm]
    · have hne : n ≠ x := fun h => hx (h ▸ hn')
      rw [ih hl (fun i hi j hj => hd i (by simp [hi]) j (by simp [hj])) _ n hn', keep n hn hne]

namespace State

variable (s : State)

theorem wf_inPush (v : Word) (h : s.mem.wf = true) : (s.inPush v).mem.wf = true := by
  simpa using Memory.wf_writeWord _ _ h

theorem wf_outAddFrame (k : Site) (f : List Word) (h : s.mem.wf = true) : (s.outAddFrame k f).mem.wf = true := by
  rw [outAddFrame_mem]
  exact foldl_keeps (fun m => m.wf = true) _ _ h fun m n _ hm => Memory.wf_writeWord _ _ hm

theorem wf_outDrain (k : Site) (g : List Word) (h : s.mem.wf = true) : (s.outDrain k g).mem.wf = true := by
  rw [outDrain_mem]
  exact foldl_keeps (fun m => m.wf = true) _ _ h fun m n _ hm => Memory.wf_writeWord _ _ (Memory.wf_writeWord _ _ hm)

/-- `OutAddFrame` changes no byte outside the output ring (R126). -/
theorem read_outAddFrame_outside {a : Nat} (k : Site) (f : List Word) (hc : 0 < s.params.cOut)
    (h : a < Arr.base .outring ∨ Arr.base .outring + 4 * s.params.cOut ≤ a) :
    (s.outAddFrame k f).mem.read a = s.mem.read a := by
  rw [outAddFrame_mem]
  refine foldl_keeps (fun m => m.read a = s.mem.read a) _ _ rfl fun m n _ hm => ?_
  have := ringIndex_lt (c := s.outWr) (d := n) hc
  rw [State.outAddSample, Memory.read_writeWord_outside _ _ (by simp only [Arr.addr]; omega), hm]

/-- The drain changes no byte outside the output ring and the output block (R143). -/
theorem read_outDrain_outside {a : Nat} (k : Site) (g : List Word) (hc : 0 < s.params.cOut)
    (h : a < Arr.base .outring ∨ Arr.base .outring + 4 * s.params.cOut ≤ a)
    (h' : a < Arr.base .outblk ∨ Arr.base .outblk + 4 * s.params.b ≤ a) :
    (s.outDrain k g).mem.read a = s.mem.read a := by
  rw [outDrain_mem]
  refine foldl_keeps (fun m => m.read a = s.mem.read a) _ _ rfl fun m j hj hm => ?_
  have := ringIndex_lt (c := s.outRd) (d := j) hc
  have hj := List.mem_range.1 hj
  rw [State.outTakeSample, Memory.read_writeWord_outside _ _ (by simp only [Arr.addr]; omega),
    Memory.read_writeWord_outside _ _ (by simp only [Arr.addr]; omega), hm]

theorem inArrays_inPush (v : Word) (h : s.mem.InArrays s.params) (hi : s.inWr < s.params.cIn) :
    (s.inPush v).mem.InArrays s.params := by
  simpa using h.writeWord v (A := .inring) hi

theorem inArrays_outAddFrame (k : Site) (f : List Word) (h : s.mem.InArrays s.params) (hc : 0 < s.params.cOut) :
    (s.outAddFrame k f).mem.InArrays s.params := by
  rw [outAddFrame_mem]
  exact foldl_keeps (fun m => m.InArrays s.params) _ _ h fun m n _ hm => hm.writeWord _ (A := .outring) (ringIndex_lt hc)

theorem inArrays_outDrain (k : Site) (g : List Word) (h : s.mem.InArrays s.params) (hc : 0 < s.params.cOut) :
    (s.outDrain k g).mem.InArrays s.params := by
  rw [outDrain_mem]
  exact foldl_keeps (fun m => m.InArrays s.params) _ _ h fun m j hj hm =>
    (hm.writeWord _ (A := .outblk) (List.mem_range.1 hj)).writeWord _ (A := .outring) (ringIndex_lt hc)

/-- What `Resynth()` can do: the frame is added, or the bit is set and the cursor moves (R135, R136). -/
theorem resynth_cases :
    (s.feedAvailable = true ∧ s.resynth = s.outAddFrame (s.site.sub 4) s.frame) ∨
    (s.feedAvailable = false ∧ s.resynth = (s.raise .hopskip).outSkip) := by
  unfold State.resynth
  cases s.feedAvailable <;> simp

/-- What counting a sample can do: count on, or fire a hop with the counter back at 0 (R133). -/
theorem countHop_cases :
    (s.hopCnt + 1 ≠ s.params.h ∧ s.countHop = { s with hopCnt := s.hopCnt + 1 }) ∨
    (s.hopCnt + 1 = s.params.h ∧ s.countHop = State.resynth { s with hopCnt := 0 }) := by
  unfold State.countHop
  by_cases h : s.hopCnt + 1 = s.params.h <;> simp [h]

end State

end Sys2Proof.Machine
end

