-- ==== Sys2Proof/Laws/Step.lean ====
section
/-! SUPPORT. Inversion lemmas: everything a bus transaction, a command, a turn of the engine and a step can do. -/

namespace Sys2Proof.Machine

namespace State

variable (s : State)

/-- What a word offered to `CMD` can do (R84). -/
theorem offerCommand_cases (w : Word) :
    (s.ready = false ∧ s.offerCommand w = s.raise .notready) ∨
    (s.ready = true ∧ s.busy = true ∧ s.offerCommand w = s.raise .busycmd) ∨
    (s.ready = true ∧ s.busy = false ∧ (∃ e, decode w = .error e) ∧ s.offerCommand w = s.raise .illcmd) ∨
    (s.ready = true ∧ s.busy = false ∧ ∃ i, decode w = .ok i ∧ s.offerCommand w = s.accept w i) := by
  unfold State.offerCommand
  cases hr : s.ready <;> cases hb : s.busy <;> cases hd : decode w <;> simp

/-- What a bus read can do (R63): one error bit and a free word, or the word and nothing else. -/
theorem busRead_cases (width : Width) (a : BusAddr) :
    (s.badAddress width (Target.ofAddr s.params a) = true ∧
      s.busRead width a = { s.raise .badaddr with busOut := some (Config.refusedReadData s.draws) }) ∨
    (s.badAddress width (Target.ofAddr s.params a) = false ∧ s.busyRefused (Target.ofAddr s.params a) = true ∧
      s.busRead width a = { s.raise .busyacc with busOut := some (Config.refusedReadData s.draws) }) ∨
    (s.badAddress width (Target.ofAddr s.params a) = false ∧ s.busyRefused (Target.ofAddr s.params a) = false ∧
      s.busRead width a = { s with busOut := some (s.peek (Target.ofAddr s.params a)) }) := by
  simp only [State.busRead]
  split_ifs with h1 h2
  · exact Or.inl ⟨h1, rfl⟩
  · exact Or.inr (Or.inl ⟨by simpa using h1, h2, rfl⟩)
  · exact Or.inr (Or.inr ⟨by simpa using h1, by simpa using h2, rfl⟩)

/-- What a bus write can do (R64): one error bit, or the write rule of the target. -/
theorem busWrite_cases (width : Width) (a : BusAddr) (v : Word) :
    ((s.badAddress width (Target.ofAddr s.params a) || !(Target.ofAddr s.params a).writable) = true ∧
      s.busWrite width a v = s.raise .badaddr) ∨
    (s.badAddress width (Target.ofAddr s.params a) = false ∧ (Target.ofAddr s.params a).writable = true ∧
      s.busyRefused (Target.ofAddr s.params a) = true ∧ s.busWrite width a v = s.raise .busyacc) ∨
    (s.badAddress width (Target.ofAddr s.params a) = false ∧ (Target.ofAddr s.params a).writable = true ∧
      s.busyRefused (Target.ofAddr s.params a) = false ∧ s.busWrite width a v = s.poke (Target.ofAddr s.params a) v) := by
  simp only [State.busWrite]
  split_ifs with h1 h2
  · exact Or.inl ⟨h1, rfl⟩
  all_goals
    simp only [Bool.or_eq_true, Bool.not_eq_true', not_or, Bool.not_eq_true, Bool.not_eq_false] at h1
  · exact Or.inr (Or.inl ⟨h1.1, h1.2, h2, rfl⟩)
  · exact Or.inr (Or.inr ⟨h1.1, h1.2, by simpa using h2, rfl⟩)

/-- What a write that passed its checks can do (R64 case 3). -/
theorem poke_cases (t : Target) (v : Word) :
    (∃ g, t = .reg g ∧ s.poke t v = s.writeReg g v) ∨
    (∃ r i A, t = .word r i ∧ s.windowArr r = some A ∧ s.poke t v = s.setWord A i v) ∨ s.poke t v = s := by
  cases t with
  | reg g => exact Or.inl ⟨g, rfl, rfl⟩
  | unmapped => exact Or.inr (Or.inr rfl)
  | word r i =>
    simp only [State.poke]
    cases h : s.windowArr r with
    | none => exact Or.inr (Or.inr rfl)
    | some A => exact Or.inr (Or.inl ⟨r, i, A, rfl, h, rfl⟩)

/-- What a register write can do. -/
theorem writeReg_cases (r : Reg) (v : Word) :
    (r = .err ∧ s.writeReg r v = s.clearErrors v) ∨ (r = .cmd ∧ s.writeReg r v = s.offerCommand v) ∨
    (r = .gain ∧ s.ready = true ∧ s.writeReg r v = { s with gain := v }) ∨
    (r = .phaseBound ∧ s.ready = true ∧ s.writeReg r v = { s with phaseBound := v }) ∨
    (r = .magCtrl ∧ s.ready = true ∧ s.writeReg r v = s.publish v) ∨ s.writeReg r v = s := by
  cases h : s.ready <;> cases r <;> simp [State.writeReg, h]

/-- When the engine has a step (R69 item c, R84, R172). -/
theorem enabled_eq_some_iff {i : Instr} : s.enabled = some i ↔ s.ready = true ∧ ∃ p, s.seq = .run i p := by
  unfold State.enabled
  cases h : s.seq with
  | idle => simp
  | run j p => cases hr : s.ready <;> simp

theorem enabled_eq_none_iff : s.enabled = none ↔ s.ready = false ∨ s.seq = .idle := by
  unfold State.enabled
  cases h : s.seq with
  | idle => simp
  | run j p => cases hr : s.ready <;> simp

end State

/-- What one engine step of a block command can do (R84, R133, R143). -/
theorem blockStep_next_cases {s t : State} {i : Instr} {g : List Word} (h : s.blockStep i g = .next t) :
    (∃ c j, s.seq = .run c (.sample j) ∧ j < s.params.b ∧
      t = { s.sampleStep j with seq := .run i (nextPhase s.params.b j) }) ∨
    (∃ c, s.seq = .run c .drain ∧ t = (s.outDrain s.site g).finish) := by
  unfold State.blockStep at h
  split at h
  · rename_i c j hseq
    split at h
    · rename_i hj
      exact Or.inl ⟨c, j, hseq, hj, (Host.Outcome.next.inj h).symm⟩
    · cases h
  · rename_i c hseq
    exact Or.inr ⟨c, hseq, (Host.Outcome.next.inj h).symm⟩
  · cases h
  · cases h

/-- What one engine step can do, command by command. -/
theorem exec_next_cases {s t : State} {i : Instr} (h : exec i s = .next t) :
    (i = .nop ∧ t = s.finish) ∨
    (∃ dst src, i = .fftF dst src ∧ t = (s.complexTransform .forward dst src).finish) ∨
    (∃ dst src, i = .fftI dst src ∧ t = (s.complexTransform .inverse dst src).finish) ∨
    (∃ dst src, i = .rfftF dst src ∧ t = (s.realForwardTransform dst src).finish) ∨
    (∃ dst src, i = .rfftI dst src ∧ t = (s.realInverseTransform dst src).finish) ∨
    (isBlockCommand i = true ∧ ∃ c j, s.seq = .run c (.sample j) ∧ j < s.params.b ∧
      t = { s.sampleStep j with seq := .run i (nextPhase s.params.b j) }) ∨
    (isBlockCommand i = true ∧ ∃ c g, s.seq = .run c .drain ∧ t = (s.outDrain s.site g).finish) := by
  cases i with
  | nop => exact Or.inl ⟨rfl, (Host.Outcome.next.inj h).symm⟩
  | fftF dst src => exact Or.inr (Or.inl ⟨dst, src, rfl, (Host.Outcome.next.inj h).symm⟩)
  | fftI dst src => exact Or.inr (Or.inr (Or.inl ⟨dst, src, rfl, (Host.Outcome.next.inj h).symm⟩))
  | rfftF dst src => exact Or.inr (Or.inr (Or.inr (Or.inl ⟨dst, src, rfl, (Host.Outcome.next.inj h).symm⟩)))
  | rfftI dst src => exact Or.inr (Or.inr (Or.inr (Or.inr (Or.inl ⟨dst, src, rfl, (Host.Outcome.next.inj h).symm⟩))))
  | block =>
    rcases blockStep_next_cases h with ⟨c, j, hseq, hj, ht⟩ | ⟨c, hseq, ht⟩
    · exact Or.inr (Or.inr (Or.inr (Or.inr (Or.inr (Or.inl ⟨rfl, c, j, hseq, hj, ht⟩)))))
    · exact Or.inr (Or.inr (Or.inr (Or.inr (Or.inr (Or.inr ⟨rfl, c, _, hseq, ht⟩)))))
  | blockv =>
    rcases blockStep_next_cases h with ⟨c, j, hseq, hj, ht⟩ | ⟨c, hseq, ht⟩
    · exact Or.inr (Or.inr (Or.inr (Or.inr (Or.inr (Or.inl ⟨rfl, c, j, hseq, hj, ht⟩)))))
    · exact Or.inr (Or.inr (Or.inr (Or.inr (Or.inr (Or.inr ⟨rfl, c, _, hseq, ht⟩)))))

/-- What a turn of the engine can do (R69 item c, R84, R169). -/
theorem engineTurn_next_cases {s t : State} (h : s.engineTurn = .next t) :
    (∃ i p, s.ready = true ∧ s.seq = .run i p ∧ exec i s.tick = .next t) ∨
    ((s.ready = false ∨ s.seq = .idle) ∧ t = s) := by
  unfold State.engineTurn at h
  cases he : s.enabled with
  | none =>
    rw [he] at h
    exact Or.inr ⟨(State.enabled_eq_none_iff s).1 he, (Host.Outcome.next.inj h).symm⟩
  | some i =>
    rw [he] at h
    obtain ⟨hr, p, hs⟩ := (State.enabled_eq_some_iff s).1 he
    exact Or.inl ⟨i, p, hr, hs, h⟩

/-- What a step can do: a transaction, a reset, or a turn of the engine, which the agenda names or which comes when it is
used up (R12, R69). -/
theorem step_next_cases {s t : State} (h : step s = .next t) :
    (∃ tr rest, (s.agenda = .host tr :: rest ∨ s.agenda = .producer tr :: rest) ∧
      t = (s.withAgenda rest).tick.transact tr) ∨
    (∃ c rest, s.agenda = .reset c :: rest ∧ t = (s.withAgenda rest).tick.resetInput c) ∨
    (∃ rest, (s.agenda = .engine :: rest ∨ s.agenda = [] ∧ rest = []) ∧ (s.withAgenda rest).engineTurn = .next t) := by
  unfold step at h
  split at h
  · rename_i ha
    refine Or.inr (Or.inr ⟨[], Or.inr ⟨ha, rfl⟩, ?_⟩)
    rwa [show s.withAgenda [] = s by rw [← ha]; rfl]
  · rename_i e rest ha
    cases e with
    | host tr => exact Or.inl ⟨tr, rest, Or.inl ha, (Host.Outcome.next.inj h).symm⟩
    | producer tr => exact Or.inl ⟨tr, rest, Or.inr ha, (Host.Outcome.next.inj h).symm⟩
    | engine => exact Or.inr (Or.inr ⟨rest, Or.inl ha, h⟩)
    | reset c => exact Or.inr (Or.inl ⟨c, rest, ha, (Host.Outcome.next.inj h).symm⟩)

end Sys2Proof.Machine
end

