-- ==== Sys2Proof/Tests/Slice0.lean ====
section
/-! SUPPORT. Tests and witnesses. Expected results are those of 95_test_vectors.md (T1 to T15) or written out by hand from the
encoding tables of 30_encoding.md. For each statement with hypotheses a theorem `witness_…` gives a state and operands
that meet all of them, and for each clause over a range one at its boundary. -/

namespace Sys2Proof.Tests

open Sys2Proof.Machine

/-! ### Small states -/

/-- Configuration K4 with `PHI_RESET = +0`. -/
def k4 : Params := { n := 4, h := 2, b := 4, cIn := 4, cOut := 8, phiReset := 0, num := .binary32 }

/-- K4 after reset, with the unspecified arrays all zero words. -/
def ready : State := State.resetWith k4 (Rom.build 4) []

/-- A refused instance: `N = 6` (T14). -/
def refused : State := State.resetWith { k4 with n := 6 } (Rom.build 6) []

/-- A command accepted and not yet complete. -/
def running (i : Instr) (p : Phase) : State := { ready with seq := .run i p }

/-- All-ones magnitudes published (T8). -/
def fed : State :=
  ({ ready with magValid := true, magLen := 4, magActive := true, gain := 0x3F800000 }).setWords .mag1
    [0x3F800000, 0x3F800000, 0x3F800000, 0x3F800000]

def bus (a : BusAddr) (v : Word) : Event := .host (.write .word a v)

/-- Reads something off the state a step answers. -/
def after {α : Type} (o : Host.Outcome State Fault Refusal) (f : State → α) : Option α :=
  match o with
  | .next t => some (f t)
  | .fault _ => none
  | .refused _ => none

/-! ### Well-formedness: one ill-formed term for each check -/

theorem test_wf_opcode : (CommandFields.mk 0x05 0 0 0).fault = some .opcode := by decide
theorem test_wf_reserved : (CommandFields.mk 0x01 0x8000 0 0).fault = some .reservedBits := by decide
theorem test_wf_operand : (CommandFields.mk 0x10 0 0 1).fault = some .operandBits := by decide
theorem test_wf_selector : (CommandFields.mk 0x01 0 2 0).fault = some .selector ∧
    (CommandFields.mk 0x04 0 0 15).fault = some .selector := by decide
theorem test_wf_good : (CommandFields.mk 0x04 0 1 1).WellFormed ∧ ∀ d s, (Instr.rfftI d s).WellFormed := by
  constructor
  · decide
  · intro d s
    cases d <;> cases s <;> decide

/-! ### Decoding: words written out bit by bit from R81 to R83 (op 31:24, zero 23:8, dst 7:4, src 3:0) -/

theorem test_decode_nop : decode 0b00000000000000000000000000000000#32 = .ok .nop := by rfl
theorem test_decode_fftF : decode 0b00000001000000000000000000010000#32 = .ok (.fftF .y .x) := by rfl
theorem test_decode_fftI : decode 0b00000010000000000000000000000001#32 = .ok (.fftI .x .y) := by rfl
theorem test_decode_rfftF : decode 0b00000011000000000000000000010001#32 = .ok (.rfftF .y .y) := by rfl
theorem test_decode_rfftI : decode 0b00000100000000000000000000010000#32 = .ok (.rfftI .y .x) := by rfl
theorem test_decode_block : decode 0b00010000000000000000000000000000#32 = .ok .block := by rfl
theorem test_decode_blockv : decode 0b00010001000000000000000000000000#32 = .ok .blockv := by rfl

/-- The illegal words of T7, each by the cause T7 gives. -/
theorem test_decode_illegal :
    (∀ w ∈ [0x05000000#32, 0x0F000000, 0x12000000, 0xFF000000, 0x80000000], decode w = .error .opcode) ∧
    (∀ w ∈ [0x00000001#32, 0x10000001, 0x11000010], decode w = .error .operandBits) ∧
    (∀ w ∈ [0x01000002#32, 0x01000020, 0x010000F0, 0x0100000F], decode w = .error .selector) ∧
    (∀ w ∈ [0x10000100#32, 0x01000100, 0x01010000, 0x01800000], decode w = .error .reservedBits) := by
  simp only [List.forall_mem_cons, List.not_mem_nil, false_implies, implies_true, and_true]
  refine ⟨⟨?_, ?_, ?_, ?_, ?_⟩, ⟨?_, ?_, ?_⟩, ⟨?_, ?_, ?_, ?_⟩, ⟨?_, ?_, ?_, ?_⟩⟩ <;> rfl

/-! ### One step of each command -/

/-- R86, worked example. -/
theorem test_nop : after (exec .nop (running .nop .exec)) (fun t => (t.busy, t.done)) = some (false, true) := by decide

/-- T2 (a). -/
theorem test_fftF :
    after (exec (.fftF .x .x) (ready.setWords .x [0x3F800000, 0, 0x40000000, 0, 0x40400000, 0, 0x40800000, 0]))
      (fun t => t.words .x 8) =
    some [0x41200000, 0, 0xC0000000, 0xC0000000, 0xC0000000, 0, 0xC0000000, 0x40000000] := by decide +kernel

/-- T2 (c): `1+1j, -1j, 2+0.5j, -3+0.25j` gives `0.75j, 0.25+3.5j, 6+2.25j, -2.25-2.5j`. -/
theorem test_fftF_complex :
    after (exec (.fftF .y .x) (ready.setWords .x
      [0x3F800000, 0x3F800000, 0, 0xBF800000, 0x40000000, 0x3F000000, 0xC0400000, 0x3E800000]))
      (fun t => t.words .y 8) =
    some [0, 0x3F400000, 0x3E800000, 0x40600000, 0x40C00000, 0x40100000, 0xC0100000, 0xC0200000] := by decide +kernel

/-- T2 (b). -/
theorem test_fftI :
    after (exec (.fftI .x .y) (ready.setWords .y
      [0x41200000, 0, 0xC0000000, 0xC0000000, 0xC0000000, 0, 0xC0000000, 0x40000000])) (fun t => t.words .x 8) =
    some [0x40800000, 0, 0x41000000, 0, 0x41400000, 0, 0x41800000, 0] := by decide +kernel

/-- T5: `1, 2, 3, 4` in place; words 4 to 7 keep their values (R121 e). -/
theorem test_rfftF :
    after (exec (.rfftF .x .x) (ready.setWords .x [0x3F800000, 0x40000000, 0x40400000, 0x40800000, 1, 2, 3, 4]))
      (fun t => t.words .x 8) = some [0x41200000, 0xC0000000, 0xC0000000, 0xC0000000, 1, 2, 3, 4] := by decide +kernel

/-- T5. -/
theorem test_rfftI :
    after (exec (.rfftI .y .x) (ready.setWords .x [0x41200000, 0xC0000000, 0xC0000000, 0xC0000000]))
      (fun t => t.words .y 4) = some [0x40800000, 0x41000000, 0x41400000, 0x41800000] := by decide +kernel

/-- T8: the hop of `Sample(1)` moves the overlap-add cursor by `H`, with no error (its frame: `test_frame_without_phase`). -/
theorem test_block_hop :
    after (exec .block { fed with hopCnt := 1, inWr := 1, seq := .run .block (.sample 1) })
      (fun t => (t.outWr, t.hopCnt, t.inWr, t.err)) = some (2, 0, 2, 0) := by decide +kernel

/-- T8: the drain of a ring that holds `0.5, -0.25, 0.5, -0.5, 0, -0.25` with gain 1. -/
theorem test_block_drain :
    after (exec .block ({ fed with outWr := 4, seq := .run .block .drain }.setWords .outring
      [0x3F000000, 0xBE800000, 0x3F000000, 0xBF000000, 0, 0xBE800000]))
      (fun t => (t.words .outblk 4, t.words .outring 6, t.outRd)) =
    some ([0x3F000000, 0xBE800000, 0x3F000000, 0xBF000000], [0, 0, 0, 0, 0, 0xBE800000], 4) := by decide +kernel

/-- T8 (d): the same drain with `GAINV = 1, 0.5, 0, 2`. -/
theorem test_blockv_drain :
    after (exec .blockv (({ fed with outWr := 4, seq := .run .blockv .drain }.setWords .outring
      [0x3F000000, 0xBE800000, 0x3F000000, 0xBF000000, 0, 0xBE800000]).setWords .gainv [0x3F800000, 0x3F000000, 0, 0x40000000]))
      (fun t => (t.words .outblk 4, t.seq, t.done)) =
    some ([0x3F000000, 0xBE000000, 0, 0xBF800000], .idle, true) := by decide +kernel

/-- P4: a hop with no vector published sets `HOPSKIP` (code 5) and moves the cursor all the same. -/
theorem test_blockv_skip :
    after (exec .blockv { ready with hopCnt := 1, seq := .run .blockv (.sample 3) }) (fun t => (t.err, t.outWr, t.seq)) =
    some (0b0100000, 2, .run .blockv .drain) := by decide +kernel

/-! ### Arithmetic, tables, rings, frames -/

/-- T15 (d): the sum overflows to infinity; by hand, half of three units is a tie and goes to two; infinity minus itself is a NaN. -/
theorem test_arithmetic :
    let k : Site := ⟨0, []⟩
    F32.add k 0x7F61B1E6 0x7F61B1E6 = 0x7F800000 ∧ F32.mul k 0x3F000000 0x00000003 = 0x00000002 ∧
    F32.sub k 0x7F800000 0x7F800000 = F32.quietNaN k := by
  refine ⟨by decide +kernel, by decide +kernel, by rfl⟩

/-- Every NaN an operation gives is one, whatever its free bits (R10). -/
theorem test_quiet_nan (k : Site) : F32.isNaN (F32.quietNaN k) = true := by
  have h2 := Nat.mod_lt (Config.nanBits k).toNat (show 0 < 2 ^ 22 by decide)
  simp only [F32.quietNaN, F32.isNaN, F32.mag, F32.pack, F32.infMag, BitVec.toNat_ofNat, decide_eq_true_eq]
  split <;> omega

/-- T3: words of the tables of `N = 16`. -/
theorem test_tables : (Rom.build 16).tw.getD 18 0 = 0x3F6C835E ∧ (Rom.build 16).tw.getD 31 0 = 0x3EC3EF15 ∧
    (Rom.build 16).brn = [6, 1, 8, 2, 4, 3, 12, 5, 10, 7, 14, 11, 13] ∧ (Rom.build 16).win.getD 15 0 = 0x3D1BE50C := by
  decide +kernel

/-- T6 (b). -/
theorem test_out_add_frame :
    let t := { ready with outWr := 6 }.outAddFrame ⟨0, []⟩ [0x3F000000, 0xBE800000, 0, 0xBE800000]
    t.words .outring 8 = [0, 0xBE800000, 0, 0, 0, 0, 0x3F000000, 0xBE800000] ∧ t.outWr = 0 := by decide +kernel

/-- T8: the frame of all-ones magnitudes with every phase value `+0`. -/
theorem test_frame_without_phase :
    hopFrame Num.binary32 ⟨0, []⟩ (Rom.build 4).tw (Rom.build 4).brn (Rom.build 4).win 4 0
      [0x3F800000, 0x3F800000, 0x3F800000, 0x3F800000] [0, 0x3F000000, 0x3E800000, 0x3F400000] =
    [0x3F000000, 0xBE800000, 0, 0xBE800000] := by decide +kernel

/-- T13: draws `0, 0.5, 0.25, 0.75`, bound 0.5, magnitudes `1, 2, 3, 4`. -/
theorem test_frame_with_phase :
    hopFrame Num.binary32 ⟨0, []⟩ (Rom.build 4).tw (Rom.build 4).brn (Rom.build 4).win 4 0x3F000000
      [0x3F800000, 0x40000000, 0x40400000, 0x40800000] [0, 0x3F000000, 0x3E800000, 0x3F400000] =
    [0x3FC00000, 0xBF480000, 0, 0xBF380000] := by decide +kernel

/-! ### Bus and errors (T14) -/

theorem test_bus_errors :
    (ready.busWrite .word 0x000000 1).err = 0b0010000 ∧ (ready.busRead .word 0x100002).err = 0b0010000 ∧
    (ready.busRead .word 0x10001C).err = 0 ∧ (ready.busRead .word 0x100020).err = 0b0010000 ∧
    (ready.busRead .word 0xA0000C).err = 0b0010000 ∧ (ready.busRead .word 0x000040).err = 0b0010000 ∧
    (ready.busWrite .word 0x800000 0).err = 0b0010000 ∧ (ready.busWrite .word 0x000020 0x05000000).err = 0b0000010 := by
  decide +kernel

/-- T10 (b), (c): `MAG_CTRL` after `PUBLISH 3` to bank 1, and after `PUBLISH 4` back to bank 0. -/
theorem test_mag_ctrl :
    let s := ready.busWrite .word 0x00003C 0x55000003
    (s.busRead .word 0x00003C).busOut = some 0xC0000003 ∧
    ((s.busWrite .word 0x00003C 4).busRead .word 0x00003C).busOut = some 0x40000004 := by decide +kernel

theorem test_busy_errors :
    let s := running .block (.sample 0)
    (s.busWrite .word 0x000020 0x05000000).err = 0b0000100 ∧ (s.busRead .word 0x100000).err = 0b0001000 ∧
    (s.busWrite .word 0x400000 7).err = 0b0001000 ∧ (s.busRead .word 0x100002).err = 0b0010000 ∧
    (s.busWrite .word 0x300000 7).err = 0 ∧ (s.busRead .word 0x000018).busOut = some 0x00000003 := by decide +kernel

theorem test_refused_instance :
    (refused.busRead .word 0x00001C).busOut = some 1 ∧ (refused.busRead .word 0x000004).busOut = some 6 ∧
    (refused.busWrite .word 0x000020 0).err = 0b1000001 ∧ (refused.busRead .word 0x100000).err = 0b0010001 ∧
    ((refused.raise .notready).busWrite .word 0x00001C 0x7F).err = 0b0000001 := by decide +kernel

/-- The host's interface: each row's word is read and runs as the first step after reset. -/
theorem test_fetch_block : step (State.reset.withFetchWord 32 0x10000000) =
    exec .block (State.reset.accept 0x10000000 .block).tick := by rfl

theorem test_fetch_illegal : after (step (State.reset.withFetchWord 32 0x10000020)) (fun t => (t.err, t.seq)) =
    some (0b0000010, .idle) := by decide +kernel

/-! ### Witnesses: states and operands that meet the hypotheses of the statements -/

/-- The invariant after reset. -/
theorem inv_ready : ready.Inv where
  memWf := by decide
  memInArrays := by intro c hc; simp [ready, State.resetWith, resetMemory, Memory.ofCells] at hc
  seqLegal := trivial
  cfgBit := by decide
  idleIfRefused := fun _ => rfl
  cursors := fun _ => ⟨by decide, by decide, by decide, by decide, by decide, by decide⟩

/-- It holds with a command running, in each state of the sequencer that `SEQ` allows, and with events to come. -/
theorem inv_running (q : Seq) (es : List Event) (h : q.Legal 4) : { ready with seq := q, agenda := es }.Inv where
  memWf := inv_ready.memWf
  memInArrays := inv_ready.memInArrays
  seqLegal := h
  cfgBit := inv_ready.cfgBit
  idleIfRefused := fun hr => absurd (show ready.ready = false from hr) (by decide)
  cursors := fun _ =>
    have c := inv_ready.cursors (by decide)
    ⟨c.inWr_lt, c.outWr_lt, c.outRd_lt, c.hopCnt_lt, c.outWr_dvd, c.outRd_dvd⟩

/-- IllegalWordsAreThoseOfTheFourCauses, RefusedCommandsSetOneErrorBit: one input for each clause. -/
theorem witness_refused_commands :
    (ready.ready = true ∧ ready.seq = .idle ∧ Spec.illegal 0x05000000#32 ∧ ∀ i, decode 0x05000000#32 ≠ .ok i) ∧
    (running .block .drain).ready = true ∧ (running .block .drain).seq ≠ .idle ∧ refused.ready = false := by
  refine ⟨⟨by decide, by decide, Or.inl (by decide), fun i h => ?_⟩, by decide, by decide, by decide⟩
  have h' : decode 0x05000000#32 = .error .opcode := by rfl
  rw [h'] at h
  cases h

/-- The causes of R85 at the edges of their fields: bits 23 and 8, bits 7 and 0, selectors 2 and 15; and words just inside. -/
theorem witness_illegal_edges :
    Spec.illegal 0x01800000#32 ∧ Spec.illegal 0x01000100#32 ∧ Spec.illegal 0x10000080#32 ∧ Spec.illegal 0x00000001#32 ∧
    Spec.illegal 0x01000020#32 ∧ Spec.illegal 0x0400000F#32 ∧ Spec.illegal 0x12000000#32 ∧ ¬ Spec.illegal 0x04000011#32 ∧
    ¬ Spec.illegal 0x11000000#32 := by
  dsimp only [Spec.illegal]
  refine ⟨?_, ?_, ?_, ?_, ?_, ?_, ?_, ?_, ?_⟩ <;> decide

/-- AcceptedCommandStartsAtItsFirstPhase, NopChangesOnlySeqAndDone, StepRunsTheDecodedCommand clauses 2 and 3. -/
theorem witness_acceptance :
    ready.ready = true ∧ ready.seq = .idle ∧ decode 0x11000000#32 = .ok .blockv ∧ decode 0x01000001#32 = .ok (.fftF .x .y) ∧
    { ready with agenda := [.producer (.write .word cmdAddr 0x11000000), .engine] }.agenda =
      .producer (.write .word cmdAddr 0x11000000#32) :: .engine :: [] := by
  refine ⟨by decide, by decide, by rfl, by rfl, by rfl⟩

/-- StepRunsTheDecodedCommand clause 1, in both forms of the schedule. -/
theorem witness_engine_turn :
    (running (.fftF .x .y) .exec).ready = true ∧ (running (.fftF .x .y) .exec).seq = .run (.fftF .x .y) .exec ∧
    (running (.fftF .x .y) .exec).agenda = [] ∧ { running .nop .exec with agenda := [.engine] }.agenda = .engine :: [] := by
  refine ⟨by decide, by rfl, by rfl, by rfl⟩

/-- TransactionsAreStepsOfEitherMaster, IdleEngineKeepsItsState, ResetGivesTheStateOfTheTable. -/
theorem witness_schedule :
    { ready with agenda := [.host (.read .half 1)] }.agenda = .host (.read .half 1) :: [] ∧
    { ready with agenda := [.reset []] }.agenda = .reset [] :: [] ∧ ready.seq = .idle ∧ ready.agenda = [] ∧
    ready.params.Valid := by
  refine ⟨by rfl, by rfl, by rfl, by rfl, by decide⟩

/-- BlockCommandsStopOutsideTheirPhases: each form of the condition, and states on the other side. -/
theorem witness_no_engine_step :
    exec .block ready = .fault .noEngineStep ∧ exec .blockv (running .nop .exec) = .fault .noEngineStep ∧
    exec .block (running .block (.sample 4)) = .fault .noEngineStep ∧
    (after (exec .block (running .block (.sample 3))) fun t => t.seq) = some (.run .block .drain) ∧
    (after (exec .block (running .block .drain)) fun t => t.seq) = some .idle := by
  refine ⟨by rfl, by rfl, by rfl, by rfl, by rfl⟩

/-- RoundingIsToNearestEven: both sides of its overflow bound, and a tie at the largest finite number. -/
theorem witness_rounding :
    F32.roundUnits ((2 ^ 25 - 1) * 2 ^ 252 - 1) 1 = 0x7F7FFFFF ∧ F32.roundUnits ((2 ^ 25 - 1) * 2 ^ 252) 1 = F32.infMag ∧
    F32.roundUnits 3 2 = 2 ∧ F32.roundUnits 5 2 = 2 ∧ F32.roundUnits 0 1 = 0 := by decide +kernel

/-- RoundingIsToNearestEven: finite operands whose sum and product overflow, whose difference is zero, and a divisor that is no
zero. -/
theorem witness_rounded_operations :
    F32.isFinite 0x7F7FFFFF#32 = true ∧ F32.isFinite 0x80000001#32 = true ∧ F32.isZero 0x80000001#32 = false ∧
    F32.add ⟨0, []⟩ 0x7F7FFFFF 0x7F7FFFFF = 0x7F800000 ∧ F32.sub ⟨0, []⟩ 0x80000001 0x80000001 = 0 ∧
    F32.mul ⟨0, []⟩ 0x80000001 0x00000001 = 0x80000000 ∧ F32.div ⟨0, []⟩ 0x7F7FFFFF 0x80000001 = 0xFF800000 := by
  decide +kernel

/-- The statements that compute with the instance's numerics: one of another instance than binary32 (R6). -/
theorem witness_numerics :
    let s := { running .block .drain with params := { k4 with num := .custom 7 } }
    s.ready = true ∧ s.seq = .run .block .drain ∧ s.num.toArith = Config.customArith 7 ∧ ready.num = Num.binary32 := by
  refine ⟨by decide, by rfl, by rfl, by rfl⟩

/-- IdentityAndParameterRegistersRead: a word that is accepted, and the three reasons why one is not. -/
theorem witness_offer :
    ready.ready = true ∧ ready.seq = .idle ∧ (∃ i, decode 0x10000000#32 = .ok i) ∧ refused.ready = false ∧
    (running .nop .exec).seq ≠ .idle ∧ ∃ e, decode 0x05000000#32 = .error e :=
  ⟨by decide, rfl, ⟨.block, rfl⟩, by decide, by decide, ⟨.opcode, rfl⟩⟩

/-- NanResultsAreQuiet, AddingZeroKeepsANonzeroWord, DividingByTheSizeLowersTheExponent, PhaseValuesLieWithinTheBound: operands of
each clause, the quotient at the edge of the normal range. -/
theorem witness_operands :
    F32.isNaN 0x7FC00000#32 = true ∧ F32.isNaN 0xFF800001#32 = true ∧ F32.isNaN 0x7F800000#32 = false ∧
    F32.isNaN (F32.sub ⟨0, []⟩ 0x7F800000#32 0x7F800000#32) = true ∧
    F32.isZero 0x80000000#32 = true ∧ F32.isZero 0x00000001#32 = false ∧
    F32.isFinite 0x08800000#32 = true ∧ 16 < F32.mag 0x08800000#32 / 2 ^ 23 ∧ F32.isFinite 0x7F7FFFFF#32 = true := by
  refine ⟨by decide, by decide, by decide, ?_, by decide, by decide, by decide, by decide, by decide⟩
  have h : F32.sub ⟨0, []⟩ 0x7F800000#32 0x7F800000#32 = F32.quietNaN ⟨0, []⟩ := test_arithmetic.2.2
  rw [h]
  exact test_quiet_nan _

/-- The tables of `N = 4` have the formulas of R22 to R26: every value is 0, a half or 1, and exact. -/
theorem witness_formula : (Rom.build 4).Formula (2 ^ 2) := by
  have hb : Rom.build 4 =
      { tw := [0x3F800000, 0, 0x3F800000, 0, 0x3F800000, 0, 0, 0x3F800000], brn := [1, 1, 2], brh := [0],
        rtw := [0x3F800000, 0, 0, 0x3F800000], win := [0, 0x3F000000, 0x3F800000, 0x3F000000] } := by decide +kernel
  have r0 : F32.IsRounding 0 0x00000000#32 := F32.isRounding_of_value_eq (by decide)
    (by norm_num [F32.value, show F32.ival 0x00000000#32 = 0 by decide]) (by simp [show F32.sign 0x00000000#32 = false by decide])
  have rh : F32.IsRounding (1 / 2) 0x3F000000#32 := F32.isRounding_of_value_eq (by decide)
    (by norm_num [F32.value, show F32.ival 0x3F000000#32 = 2 ^ 148 by decide +kernel])
    (by norm_num [show F32.sign 0x3F000000#32 = false by decide])
  have r1 : F32.IsRounding 1 0x3F800000#32 := F32.isRounding_of_value_eq (by decide)
    (by norm_num [F32.value, show F32.ival 0x3F800000#32 = 2 ^ 149 by decide +kernel])
    (by norm_num [show F32.sign 0x3F800000#32 = false by decide])
  have q : (2 * Real.pi / 4 : ℝ) = Real.pi / 2 := by ring
  rw [hb]
  refine ⟨rfl, ⟨rfl, rfl⟩, fun t i hi ht => ?_, by decide +kernel, by decide +kernel, rfl, fun i hi => ?_, rfl, fun k hk => ?_⟩
  · have : t < 2 := (Nat.pow_lt_pow_iff_right (by decide : 1 < 2)).1 (by omega : 2 ^ t < 2 ^ 2)
    interval_cases t <;> interval_cases i <;> simp [tableWord] <;> first | exact ⟨r1, r0⟩ | exact ⟨r0, r1⟩
  · norm_num at hi
    interval_cases i <;> norm_num [tableWord, q] <;> first | exact ⟨r1, r0⟩ | exact ⟨r0, r1⟩
  · norm_num at hk
    have h2 : (2 * Real.pi * 2 / 4 : ℝ) = Real.pi := by ring
    have h3 : Real.cos (2 * Real.pi * 3 / 4) = 0 := by
      rw [show (2 * Real.pi * 3 / 4 : ℝ) = Real.pi / 2 + Real.pi by ring, Real.cos_add_pi, Real.cos_pi_div_two, neg_zero]
    interval_cases k <;> norm_num [tableWord, q, h2, h3] <;> first | exact r0 | simpa using rh | exact r1

/-- CfftComputesTheFourierSum, RealForwardComputesTheFourierBins, RealInverseComputesTheSynthesisSum: exact tables of size 4. -/
theorem witness_exact_tables :
    ExactTwiddles (2 ^ 2) [0, 0, 1, 0, 1, 0, 0, 1] ∧ ExactRotations (2 ^ 2) [1, 0, 0, 1] ∧
    2 * 2 ^ 2 ≤ ([1, 2, 3, 4, 5, 6, 7, 8] : List ℝ).length ∧ ([1, 2, 3, 4] : List ℝ).length = 2 ^ 2 := by
  have q : (2 * Real.pi / 4 : ℝ) = Real.pi / 2 := by ring
  refine ⟨fun t i hi ht => ?_, fun i hi => ?_, by simp, by simp⟩
  · have : t < 2 := (Nat.pow_lt_pow_iff_right (by decide : 1 < 2)).1 ht
    interval_cases t <;> interval_cases i <;> norm_num [complexAt]
  · norm_num at hi
    interval_cases i <;> norm_num [complexAt, q]

/-- ReversalPairsAreDisjointAndComplete, ButterflyUpdatesItsTwoElements, PermutationPutsEachElementAtItsBitReversal,
CfftReadsAndWritesOnlyItsWords, RealTransformsCombineTheHalfSizeBins, FrameIsTheNormalisedInverseOfTheSpectrum: sizes in range. -/
theorem witness_sizes :
    (1, 2) ∈ reversalPairs (2 ^ 2) ∧ bitReverse 2 1 ≠ 1 ∧ 1 < 2 ^ 2 ∧ 2 * (1 + 2) + 1 < (List.replicate 8 (0 : Word)).length ∧
    complexAt Num.binary32 (List.replicate 8 (0 : Word)) 1 = (0, 0) ∧
    2 * 2 ^ 2 ≤ (List.replicate 9 (0 : Word)).length ∧ (List.replicate 8 (0 : Word)).length = 2 * 2 ^ 2 ∧
    (1 : Nat) ≤ 3 ∧ 3 < 8 / 2 := by
  refine ⟨by decide, by decide, by decide, by decide, by rfl, by decide, by decide, by decide, by decide⟩

/-- ComplexTransformsStoreTheTransformOfTheSource, OutOfPlaceTransformsKeepTheSource, RealTransformsStoreInTheFirstWords,
TransformResultDependsOnlyOnSourceAndRoms: two states that differ in a ring word and agree on the source. -/
theorem witness_transforms :
    let s' := ready.setWord .outring 0 1
    ready.ready = true ∧ Buf.x ≠ Buf.y ∧ ready.params = s'.params ∧ ready.rom = s'.rom ∧ ready.draws = s'.draws ∧
    (∀ j, j < 2 * ready.params.n → ready.word .x j = s'.word .x j) ∧ ready ≠ s' ∧
    Spec.outside .x 8 0x0FFFFF ∧ Spec.outside .x 8 0x100020 ∧ ¬ Spec.outside .x 8 0x10001F := by
  refine ⟨by decide, by decide, by rfl, by rfl, by rfl, by decide +kernel, by decide +kernel, ?_⟩
  unfold Spec.outside
  decide

/-- InPushStoresAtTheWriteCursor, FramesAreAddedAtTheOverlapAddCursor: the cursor at the end of the ring. -/
theorem witness_rings :
    { ready with inWr := 3 }.ready = true ∧ { ready with inWr := 3 }.inWr < { ready with inWr := 3 }.params.cIn ∧
    [0x3F000000#32, 0xBE800000, 0, 0xBE800000].length = ready.params.n := by decide

/-- DrainScalesAndZeroesTheRing, ZeroGainGivesZeroOutput. -/
theorem witness_drain :
    let s := { running .block .drain with gain := 0 }
    s.ready = true ∧ s.params.num = .binary32 ∧ s.seq = .run .block .drain ∧ s.gain = 0 ∧
    ∀ j, j < s.params.b → F32.isFinite (s.word .outring ((s.outRd + j) % s.params.cOut)) = true := by
  decide +kernel

/-- SampleStepPushesAndCounts, HopWithoutAVectorIsSkipped (both reasons), HopAddsTheFrameOfTheActiveBank: the first and the last
sample. -/
theorem witness_samples :
    let s0 := running .block (.sample 0)
    let s1 := { ready with hopCnt := 1, inWr := 3, seq := .run .blockv (.sample 3) }
    let s2 := { s1 with magValid := true, magLen := 3 }
    let s3 := { fed with hopCnt := 1, inWr := 3, seq := .run .block (.sample 3) }
    (s0.ready = true ∧ s0.seq = .run .block (.sample 0) ∧ 0 < s0.params.b ∧ s0.inWr < s0.params.cIn ∧ s0.hopCnt + 1 ≠ s0.params.h) ∧
    (s1.ready = true ∧ s1.seq = .run .blockv (.sample 3) ∧ 3 < s1.params.b ∧ s1.inWr < s1.params.cIn ∧
      s1.hopCnt + 1 = s1.params.h ∧ s1.magValid = false) ∧
    (s2.hopCnt + 1 = s2.params.h ∧ s2.magValid = true ∧ s2.magLen.toNat ≠ s2.params.n) ∧
    (s3.ready = true ∧ s3.seq = .run .block (.sample 3) ∧ 3 < s3.params.b ∧ s3.inWr < s3.params.cIn ∧
      s3.hopCnt + 1 = s3.params.h ∧ s3.magValid = true ∧ s3.magLen.toNat = s3.params.n) := by
  decide +kernel

/-- SilentFeedKeepsTheRingSilent. -/
theorem witness_silent_feed :
    let s := { ready with magValid := true, magLen := 4, phaseBound := 0 }
    s.ready = true ∧ s.params.num = .binary32 ∧ (∀ w, w ∈ s.rom.tw ∨ w ∈ s.rom.win → F32.isFinite w = true) ∧ s.magValid = true ∧
    s.magLen.toNat = s.params.n ∧ s.phaseBound = 0 ∧
    (∀ j, j < s.params.n → s.word (Arr.bank s.magActive) j = 0) ∧ ∀ j, j < s.params.cOut → s.word .outring j = 0 := by
  refine ⟨by decide, by rfl, ?_, by rfl, by decide, by rfl, by decide +kernel, by decide +kernel⟩
  have h : (ready.rom.tw ++ ready.rom.win).all F32.isFinite = true := by decide +kernel
  exact fun w hw => List.all_eq_true.1 h w (List.mem_append.2 hw)

/-- BlockCommandRunsToItsEnd. -/
theorem witness_block_run :
    (running .blockv (.sample 0)).Inv ∧ (running .blockv (.sample 0)).ready = true ∧
    (running .blockv (.sample 0)).seq = .run .blockv (.sample 0) ∧ (running .blockv (.sample 0)).agenda = [] :=
  ⟨inv_running _ [] ⟨rfl, by decide⟩, by decide, rfl, rfl⟩

/-- EveryStepKeepsTheInvariant, NoStepEverStops, ActiveBankIsNeverWritten, ConstantsNeverChange: a state with a write of the shadow
bank next, and one with the engine's turn next (of a transform). -/
theorem witness_invariant :
    (∃ t, { ready with agenda := [bus 0x300000 0x3F800000] }.Inv ∧
      step { ready with agenda := [bus 0x300000 0x3F800000] } = .next t ∧ t.word .mag1 0 = 0x3F800000) ∧
    (∃ t, (running (.rfftI .x .y) .exec).Inv ∧ step (running (.rfftI .x .y) .exec) = .next t) ∧
    { ready with magValid := true }.magValid = true := by
  refine ⟨⟨_, inv_running .idle _ trivial, by rfl, by decide +kernel⟩, ⟨_, inv_running _ [] (by rfl), by rfl⟩, by rfl⟩

/-- RefusedInstanceDoesNothing, RefusedInstanceAnswersOnlyRegionZero: a transaction and a reset on a refused instance, and the first
address outside region 0. -/
theorem witness_refused_instance :
    refused.ready = false ∧ refused.errorBit .cfg = true ∧
    (∃ t, step { refused with agenda := [bus 0x000020 0] } = .next t ∧ t.err = 0b1000001) ∧
    (∃ t, step { refused with agenda := [.reset []] } = .next t ∧ t.seq = .idle) ∧ 0x100000 ≤ (0x100000 : BusAddr).toNat ∧
    (15 : Nat) < 16 := by
  refine ⟨by decide, by decide, ⟨_, by rfl, by decide +kernel⟩, ⟨_, by rfl, by rfl⟩, by decide, by decide⟩

/-- ErrorBitsAreSticky: a set bit and a step, and the write that clears it. -/
theorem witness_sticky :
    let s := ready.raise .hopskip
    s.errorBit .hopskip = true ∧ (∃ t, step s = .next t) ∧ (0x20 : Word).getLsbD ErrorBit.hopskip.code = true ∧
    ErrorBit.hopskip ≠ .cfg := by
  refine ⟨by decide, ⟨_, by rfl⟩, by decide, by decide⟩

/-- BusReadFollowsItsThreeCases, BusWriteFollowsItsThreeCases: the last word of a region is mapped and the next is not, for region 0,
a buffer, an exact ROM and region 15; a narrow access and a misaligned one are bad. -/
theorem witness_bus_bad :
    (¬ Spec.badAddress ready .word 0 15 0 ∧ Spec.badAddress ready .word 0 16 0) ∧
    (¬ Spec.badAddress ready .word 1 7 0 ∧ Spec.badAddress ready .word 1 8 0) ∧
    (¬ Spec.badAddress ready .word 10 2 0 ∧ Spec.badAddress ready .word 10 3 0) ∧ Spec.badAddress ready .word 15 0 0 ∧
    Spec.badAddress ready .half 1 0 0 ∧ Spec.badAddress ready .word 1 0 1 ∧ Spec.badAddress refused .word 1 0 0 ∧
    ¬ Spec.badAddress refused .word 0 0 0 := by
  unfold Spec.badAddress
  refine ⟨⟨?_, ?_⟩, ⟨?_, ?_⟩, ⟨?_, ?_⟩, ?_, ?_, ?_, ?_, ?_⟩ <;> decide +kernel

/-- The same: read-only and writable neighbours, protected and unprotected neighbours. -/
theorem witness_bus_regions :
    (¬ Spec.readOnly 6 0 ∧ Spec.readOnly 7 0 ∧ Spec.readOnly 14 0 ∧ ¬ Spec.readOnly 15 0) ∧
    (Spec.readOnly 0 6 ∧ ¬ Spec.readOnly 0 7 ∧ ¬ Spec.readOnly 0 10 ∧ Spec.readOnly 0 11 ∧ Spec.readOnly 0 14 ∧ ¬ Spec.readOnly 0 15) ∧
    (¬ Spec.busyProtected 0 ∧ Spec.busyProtected 1 ∧ ¬ Spec.busyProtected 3 ∧ Spec.busyProtected 8 ∧ ¬ Spec.busyProtected 9) ∧
    (running .block .drain).seq ≠ .idle ∧ ready.seq = .idle := by
  unfold Spec.readOnly Spec.busyProtected
  refine ⟨⟨?_, ?_, ?_, ?_⟩, ⟨?_, ?_, ?_, ?_, ?_, ?_⟩, ⟨?_, ?_, ?_, ?_, ?_⟩, ?_, ?_⟩ <;> decide

/-- BusyProtectionRefusesExactlyItsRegions: addresses of a protected array, the shadow bank, a register and a ROM. -/
theorem witness_busy_protection :
    (running .block .drain).ready = true ∧ (running .block .drain).seq ≠ .idle ∧
    (∀ a ∈ [0x10001C#24, 0x80001C, 0x30000C, 0x00003C, 0xE00000], a.extractLsb' 0 2 = 0 ∧
      (a.extractLsb' 2 18).toNat < Spec.regionSize (running .block .drain).params (a.extractLsb' 20 4).toNat) := by
  simp only [List.forall_mem_cons, List.not_mem_nil, false_implies, implies_true, and_true]
  refine ⟨by decide, by decide, ⟨?_, ?_⟩, ⟨?_, ?_⟩, ⟨?_, ?_⟩, ⟨?_, ?_⟩, ⟨?_, ?_⟩⟩ <;> decide +kernel

/-- NarrowAndMisalignedAccessesAreRefused, IdentityAndParameterRegistersRead, GainAndPhaseBoundTakeAnyPattern. -/
theorem witness_accesses :
    Width.byte ≠ .word ∧ (0x100003 : BusAddr).toNat % 4 ≠ 0 ∧ (5 : Nat) < 6 ∧ ready.ready = true := by decide

end Sys2Proof.Tests
end

/-! PROOFS. Family 00_scope: the fields of a binary32 word and what each operation on them gives (R10, R15), the one rounding as the
choice between two neighbours, a transaction as one step (R12, R69) and `ConfigValid` (R7). -/

/-! ### The fields of a packed word, a negated word and a free NaN -/

namespace Sys2Proof.F32

section Fields
variable {s : Bool} {m : Nat} (k : Site) (w : Word)

theorem mag_pack (h : m < 2 ^ 31) : mag (pack s m) = m := by
  cases s <;> simp [mag, pack] <;> omega

theorem sign_pack (h : m < 2 ^ 31) : sign (pack s m) = s := by
  cases s <;> simp [sign, pack] <;> omega

theorem mag_eq_toNat_setWidth : mag w = (w.setWidth 31).toNat := by simp [mag]

theorem sign_eq_msb : sign w = w.msb := by simp [sign, BitVec.msb_eq_decide]

@[simp] theorem mag_neg : mag (neg w) = mag w := by
  simp only [mag_eq_toNat_setWidth, neg, BitVec.setWidth_xor]
  simp

@[simp] theorem sign_neg : sign (neg w) = !sign w := by
  simp only [sign_eq_msb, neg, BitVec.msb_xor]
  simp [BitVec.msb_eq_decide]

@[simp] theorem isNaN_neg : isNaN (neg w) = isNaN w := by simp [isNaN]

@[simp] theorem isFinite_neg : isFinite (neg w) = isFinite w := by simp [isFinite]

theorem isFinite_iff : isFinite w = true ↔ mag w < infMag := by simp [isFinite]

theorem isNaN_pack (h : m ≤ infMag) : isNaN (pack s m) = false := by
  rw [isNaN, mag_pack (by unfold infMag at h; omega)]
  simpa using h

theorem mag_quietNaN : mag (quietNaN k) = 0x7FC00000 + (Config.nanBits k).toNat % 2 ^ 22 :=
  mag_pack (by omega)

@[simp] theorem isNaN_quietNaN : isNaN (quietNaN k) = true := by
  rw [isNaN, mag_quietNaN, infMag, decide_eq_true_eq]
  omega

theorem getLsbD_eq_testBit_mag {i : Nat} (h : i < 31) : w.getLsbD i = (mag w).testBit i := by
  rw [mag, Nat.testBit_mod_two_pow, BitVec.getLsbD]
  simp [h]

theorem getLsbD_quietNaN : (quietNaN k).getLsbD 22 = true := by
  rw [getLsbD_eq_testBit_mag _ (by decide), mag_quietNaN, Nat.testBit_eq_decide_div_mod_eq, decide_eq_true_eq]
  omega

end Fields

/-! ### Which results are NaN (R10, U3) -/

theorem roundUnits_le_infMag (num den : Nat) : roundUnits num den ≤ infMag := Nat.min_le_right _ _

/-- The NaN rule of one operation: a NaN operand gives the free quiet NaN, and no other NaN is ever produced. -/
def NaNRule (op : Site → Word → Word → Word) : Prop :=
  ∀ k a b, ((isNaN a || isNaN b) = true → op k a b = quietNaN k) ∧
    ((isNaN a || isNaN b) = false → op k a b = quietNaN k ∨ isNaN (op k a b) = false)

theorem nanRule_add : NaNRule add := by
  refine fun k a b => ⟨fun h => if_pos h, fun h => ?_⟩
  obtain ⟨ha, hb⟩ := Bool.or_eq_false_iff.1 h
  unfold add
  rw [if_neg (by simp [h])]
  dsimp only
  split_ifs
  · exact .inl rfl
  · exact .inr ha
  · exact .inr hb
  · exact .inr (isNaN_pack (Nat.zero_le _))
  · exact .inr (isNaN_pack (roundUnits_le_infMag _ _))

theorem nanRule_sub : NaNRule sub := fun k a b => by
  simpa [sub] using nanRule_add k a (neg b)

theorem nanRule_mul : NaNRule mul := by
  refine fun k a b => ⟨fun h => if_pos h, fun h => ?_⟩
  unfold mul
  rw [if_neg (by simp [h])]
  split_ifs
  · exact .inl rfl
  · exact .inr (isNaN_pack le_rfl)
  · exact .inl rfl
  · exact .inr (isNaN_pack le_rfl)
  · exact .inr (isNaN_pack (roundUnits_le_infMag _ _))

theorem nanRule_div : NaNRule div := by
  refine fun k a b => ⟨fun h => if_pos h, fun h => ?_⟩
  unfold div
  rw [if_neg (by simp [h])]
  split_ifs
  · exact .inl rfl
  · exact .inr (isNaN_pack le_rfl)
  · exact .inr (isNaN_pack (Nat.zero_le _))
  · exact .inl rfl
  · exact .inr (isNaN_pack le_rfl)
  · exact .inr (isNaN_pack (roundUnits_le_infMag _ _))

/-! ### Magnitudes in units of `2^-149`, and the neighbours between which the rounding chooses -/

/-- The units of the magnitude pattern `m`; patterns beyond bits 30:0 go on in the same way. -/
def magUnits (m : Nat) : Nat :=
  if m / 2 ^ 23 = 0 then m % 2 ^ 23 else (2 ^ 23 + m % 2 ^ 23) * 2 ^ (m / 2 ^ 23 - 1)

theorem units_eq_magUnits (w : Word) : units w = magUnits (mag w) := rfl

theorem units_pack {s : Bool} {m : Nat} (h : m < 2 ^ 31) : units (pack s m) = magUnits m := by
  rw [units_eq_magUnits, mag_pack h]

/-- The significand `c` at last place `2^t`, its upper end `2^24` included, is the pattern `t * 2^23 + c`. -/
theorem magUnits_shift_add {t c : Nat} (hc : c ≤ 2 ^ 24) (h : t = 0 ∨ 2 ^ 23 ≤ c) : magUnits (t * 2 ^ 23 + c) = c * 2 ^ t := by
  obtain hlt | hmid | rfl : c < 2 ^ 23 ∨ (2 ^ 23 ≤ c ∧ c < 2 ^ 24) ∨ c = 2 ^ 24 := by omega
  · obtain rfl : t = 0 := by omega
    rw [magUnits, if_pos (by omega)]
    omega
  · have hdiv : (t * 2 ^ 23 + c) / 2 ^ 23 = t + 1 := by omega
    have hmod : 2 ^ 23 + (t * 2 ^ 23 + c) % 2 ^ 23 = c := by omega
    rw [magUnits, hdiv, hmod, if_neg t.succ_ne_zero, Nat.add_sub_cancel]
  · have hdiv : (t * 2 ^ 23 + 2 ^ 24) / 2 ^ 23 = t + 1 + 1 := by omega
    have hmod : (t * 2 ^ 23 + 2 ^ 24) % 2 ^ 23 = 0 := by omega
    rw [magUnits, hdiv, hmod, if_neg (t + 1).succ_ne_zero, Nat.add_sub_cancel]
    ring

theorem magUnits_strictMono : StrictMono magUnits := by
  refine strictMono_nat_of_lt_succ fun m => ?_
  obtain ⟨t, c, rfl, hc, h⟩ : ∃ t c, m = t * 2 ^ 23 + c ∧ c < 2 ^ 24 ∧ (t = 0 ∨ 2 ^ 23 ≤ c) :=
    ⟨m / 2 ^ 23 - 1, m - (m / 2 ^ 23 - 1) * 2 ^ 23, by omega, by omega, by omega⟩
  rw [magUnits_shift_add hc.le h, Nat.add_assoc, magUnits_shift_add hc (by omega)]
  exact Nat.mul_lt_mul_of_pos_right c.lt_succ_self (by positivity)

/-- The last place that `roundUnits` picks leaves a significand of at most 24 bits, and of exactly 24 above the subnormals. -/
theorem significand_bounds (n : Nat) :
    n / 2 ^ (n.log2 - 23) < 2 ^ 24 ∧ (n.log2 - 23 = 0 ∨ 2 ^ 23 ≤ n / 2 ^ (n.log2 - 23)) := by
  have hlt : n < 2 ^ (n.log2 + 1) := Nat.lt_log2_self
  rcases Nat.le_total n.log2 23 with h | h
  · have := Nat.pow_le_pow_right (show 0 < 2 by decide) (show n.log2 + 1 ≤ 24 by omega)
    rw [Nat.sub_eq_zero_of_le h]
    omega
  · have hle : 2 ^ n.log2 ≤ n := Nat.log2_self_le (by rintro rfl; simp at h)
    obtain ⟨t, ht⟩ := Nat.exists_eq_add_of_le h
    rw [ht, Nat.add_sub_cancel_left]
    rw [ht] at hle hlt
    refine ⟨(Nat.div_lt_iff_lt_mul (by positivity)).2 (hlt.trans_eq (by ring)), .inr ?_⟩
    exact (Nat.le_div_iff_mul_le (by positivity)).2 (hle.trans_eq' (by ring))

/-- `r` is that one of the neighbours `p` and `p + 1` of `num/den` units which is nearer, the even one at the midpoint. -/
structure NearerNeighbour (num den p r : Nat) : Prop where
  lower : magUnits p * den ≤ num
  upper : num < magUnits (p + 1) * den
  nearer : (r = p ∧ 2 * num ≤ (magUnits p + magUnits (p + 1)) * den) ∨
    (r = p + 1 ∧ (magUnits p + magUnits (p + 1)) * den ≤ 2 * num)
  tieEven : 2 * num = (magUnits p + magUnits (p + 1)) * den → r % 2 = 0

/-- `roundUnits` is the nearer neighbour, cut off at infinity. -/
theorem roundUnits_eq_min (num : Nat) {den : Nat} (hden : 0 < den) :
    ∃ p r, NearerNeighbour num den p r ∧ roundUnits num den = min r infMag := by
  obtain ⟨hc, ht⟩ := significand_bounds (num / den)
  set t := (num / den).log2 - 23 with ht_def
  rw [Nat.div_div_eq_div_mul] at hc ht
  set c := num / (den * 2 ^ t) with hc_def
  have hp : magUnits (t * 2 ^ 23 + c) = c * 2 ^ t := magUnits_shift_add hc.le ht
  have hp' : magUnits (t * 2 ^ 23 + c + 1) = (c + 1) * 2 ^ t := by
    rw [Nat.add_assoc, magUnits_shift_add hc (by omega)]
  have hlower : magUnits (t * 2 ^ 23 + c) * den = den * 2 ^ t * c := by rw [hp]; ring
  have hupper : magUnits (t * 2 ^ 23 + c + 1) * den = den * 2 ^ t * c + den * 2 ^ t := by rw [hp']; ring
  have hdm : den * 2 ^ t * c + num % (den * 2 ^ t) = num := Nat.div_add_mod _ _
  have hlt : num % (den * 2 ^ t) < den * 2 ^ t := Nat.mod_lt _ (by positivity)
  refine ⟨t * 2 ^ 23 + c, _, ⟨by omega, by omega, ?_, ?_⟩, rfl⟩
  all_goals
    simp only [← ht_def, ← hc_def, Nat.add_mul, hlower, hupper]
    split_ifs <;> omega

end Sys2Proof.F32

/-! ### Nearest, ties to even, and the overflow bound (R10, R15) -/

namespace Sys2Proof.F32

theorem magUnits_mul_le {m m' : Nat} (h : m ≤ m') (den : Nat) : magUnits m * den ≤ magUnits m' * den :=
  Nat.mul_le_mul_right den (magUnits_strictMono.monotone h)

namespace NearerNeighbour
variable {num den p r : Nat}

/-- No pattern is nearer: every other one lies at or beyond a neighbour. -/
theorem dist_le (h : NearerNeighbour num den p r) (m : Nat) :
    |(magUnits r : ℤ) * den - num| ≤ |(magUnits m : ℤ) * den - num| := by
  obtain ⟨hlo, hup, hnear, -⟩ := h
  have hside : magUnits m * den ≤ magUnits p * den ∨ magUnits (p + 1) * den ≤ magUnits m * den :=
    (Nat.lt_or_ge p m).symm.imp (magUnits_mul_le · den) (magUnits_mul_le · den)
  rw [Nat.add_mul] at hnear
  rcases hnear with ⟨rfl, hhalf⟩ | ⟨rfl, hhalf⟩ <;>
    zify at hlo hup hhalf hside <;> grind

/-- Another pattern at the same distance is the other neighbour, at the midpoint: beyond a neighbour distances grow strictly. -/
theorem even_of_dist_eq (h : NearerNeighbour num den p r) (hden : 0 < den) {m : Nat} (hne : m ≠ r)
    (heq : |(magUnits m : ℤ) * den - num| = |(magUnits r : ℤ) * den - num|) : r % 2 = 0 := by
  obtain ⟨hlo, hup, hnear, htie⟩ := h
  refine htie ?_
  have hside : m < p ∧ magUnits m * den < magUnits p * den ∨ m = p ∨ m = p + 1 ∨
      p + 1 < m ∧ magUnits (p + 1) * den < magUnits m * den := by
    have hlt : ∀ {i j}, i < j → magUnits i * den < magUnits j * den := fun h =>
      Nat.mul_lt_mul_of_pos_right (magUnits_strictMono h) hden
    rcases Nat.lt_trichotomy m p with hm | hm | hm
    · exact .inl ⟨hm, hlt hm⟩
    · exact .inr (.inl hm)
    · exact .inr (.inr ((Nat.eq_or_lt_of_le hm).imp Eq.symm fun hm => ⟨hm, hlt hm⟩))
  rw [Nat.add_mul] at hnear ⊢
  rcases hnear with ⟨rfl, hhalf⟩ | ⟨rfl, hhalf⟩ <;>
    zify at hlo hup hhalf hside ⊢ <;> grind

/-- The midpoint above the largest finite magnitude is where the rounding reaches infinity. -/
theorem infMag_le_iff (h : NearerNeighbour num den p r) : infMag ≤ r ↔ (2 ^ 25 - 1) * 2 ^ 252 * den ≤ num := by
  obtain ⟨hlo, hup, hnear, htie⟩ := h
  have hmax : magUnits (infMag - 1) = (2 ^ 24 - 1) * 2 ^ 253 := by decide
  have hinf : magUnits infMag = 2 ^ 25 * 2 ^ 252 := by decide
  rcases Nat.lt_trichotomy (p + 1) infMag with hp | hp | hp
  · have hle := magUnits_mul_le (Nat.le_sub_one_of_lt hp) den
    rw [hmax] at hle
    constructor <;> intro <;> omega
  · obtain rfl : p = infMag - 1 := by omega
    have hodd : (infMag - 1) % 2 = 1 := by decide
    have hmid : (magUnits (infMag - 1) + magUnits (infMag - 1 + 1)) * den = 2 * ((2 ^ 25 - 1) * 2 ^ 252 * den) := by
      rw [hp, hmax, hinf]
      ring
    rw [hmid] at hnear htie
    omega
  · have hle := magUnits_mul_le (Nat.lt_succ_iff.1 hp) den
    rw [hinf] at hle
    constructor <;> intro <;> omega

end NearerNeighbour

section Rounding
variable {num den : Nat} (hden : 0 < den)
include hden

theorem roundUnits_eq_infMag_iff : roundUnits num den = infMag ↔ (2 ^ 25 - 1) * 2 ^ 252 * den ≤ num := by
  obtain ⟨p, r, h, heq⟩ := roundUnits_eq_min num hden
  rw [heq, ← h.infMag_le_iff, min_eq_right_iff]

theorem exists_nearerNeighbour (hr : roundUnits num den < infMag) : ∃ p, NearerNeighbour num den p (roundUnits num den) := by
  obtain ⟨p, r, h, heq⟩ := roundUnits_eq_min num hden
  obtain rfl : roundUnits num den = r := by omega
  exact ⟨p, h⟩

theorem roundUnits_dist_le (hr : roundUnits num den < infMag) (m : Nat) :
    |(magUnits (roundUnits num den) : ℤ) * den - num| ≤ |(magUnits m : ℤ) * den - num| :=
  let ⟨_, h⟩ := exists_nearerNeighbour hden hr
  h.dist_le m

theorem roundUnits_even_of_dist_eq (hr : roundUnits num den < infMag) {m : Nat} (hne : m ≠ roundUnits num den)
    (heq : |(magUnits m : ℤ) * den - num| = |(magUnits (roundUnits num den) : ℤ) * den - num|) :
    roundUnits num den % 2 = 0 :=
  let ⟨_, h⟩ := exists_nearerNeighbour hden hr
  h.even_of_dist_eq hden hne heq

end Rounding

end Sys2Proof.F32

/-! ### The four operations on finite operands as one rounding of the exact real result (R10, R15) -/

namespace Sys2Proof.F32

/-- The real number with this sign bit and this magnitude. -/
noncomputable def signed (s : Bool) (x : ℝ) : ℝ := if s then -x else x

theorem abs_signed (s : Bool) (x : ℝ) : |signed s x| = |x| := by cases s <;> simp [signed]

theorem abs_signed_sub (s : Bool) (x y : ℝ) : |signed s x - signed s y| = |x - y| := by
  cases s
  · rfl
  · exact (congrArg abs (neg_sub_neg x y)).trans (abs_sub_comm y x)

theorem abs_signed_not_sub (s : Bool) (x y : ℝ) : |signed (!s) x - signed s y| = |x + y| := by
  cases s
  · exact (congrArg abs (by simp [signed]; ring)).trans (abs_neg (x + y))
  · simp [signed]

theorem signed_mul (s s' : Bool) (x y : ℝ) : signed s x * signed s' y = signed (s != s') (x * y) := by
  cases s <;> cases s' <;> simp [signed]

theorem signed_div (s s' : Bool) (x y : ℝ) : signed s x / signed s' y = signed (s != s') (x / y) := by
  cases s <;> cases s' <;> simp [signed, neg_div, div_neg]

theorem signed_div_right (s : Bool) (x y : ℝ) : signed s (x / y) = signed s x / y := by
  cases s <;> simp [signed, neg_div]

theorem signed_natAbs (v : ℤ) : signed (decide (v < 0)) v.natAbs = v := by
  rcases lt_or_ge v 0 with h | h
  · simp [signed, h, Nat.cast_natAbs, abs_of_neg h]
  · simp [signed, h.not_gt, Nat.cast_natAbs, abs_of_nonneg h]

theorem value_eq_signed (w : Word) : (value w : ℝ) = signed (sign w) (magUnits (mag w) / 2 ^ 149) := by
  cases h : sign w <;> simp [value, ival, signed, h, units_eq_magUnits, neg_div]

theorem abs_value (w : Word) : |(value w : ℝ)| = magUnits (mag w) / 2 ^ 149 := by
  rw [value_eq_signed, abs_signed, abs_of_nonneg (by positivity)]

theorem value_pack (s : Bool) {m : Nat} (h : m < 2 ^ 31) : (value (pack s m) : ℝ) = signed s (magUnits m / 2 ^ 149) := by
  rw [value_eq_signed, sign_pack h, mag_pack h]

/-- Two numbers lie no nearer to each other than their magnitudes. -/
theorem dist_magUnits_le_dist_value (s : Bool) {r : ℝ} (hr : 0 ≤ r) (v : Word) :
    |(magUnits (mag v) : ℝ) / 2 ^ 149 - r| ≤ |(value v : ℝ) - signed s r| := by
  simpa only [abs_value, abs_signed, abs_of_nonneg hr] using abs_abs_sub_abs_le (value v : ℝ) (signed s r)

/-- Flipping the sign of a nearest word keeps the distance only for a zero, so it gives no other value at that distance. -/
theorem value_eq_of_mag_eq {s : Bool} {m : Nat} (hm : m < 2 ^ 31) {v : Word} (hv : mag v = m) {r : ℝ} (hr : 0 ≤ r)
    (hnear : |(magUnits m : ℝ) / 2 ^ 149 - r| ≤ |0 - r|)
    (heq : |(value v : ℝ) - signed s r| = |(value (pack s m) : ℝ) - signed s r|) : value v = value (pack s m) := by
  have hvalue := value_eq_signed v
  rw [hv] at hvalue
  rw [← Rat.cast_inj (α := ℝ), value_pack s hm, hvalue]
  obtain hs | hs : sign v = s ∨ sign v = !s := by cases s <;> simp
  · rw [hs]
  · rw [value_pack s hm, hvalue, hs, abs_signed_not_sub, abs_signed_sub, abs_of_nonneg (by positivity)] at heq
    rw [← heq, zero_sub, abs_neg, abs_of_nonneg hr] at hnear
    have hzero : (magUnits m : ℝ) / 2 ^ 149 = 0 := le_antisymm (by linarith) (by positivity)
    simp [hzero, signed]

theorem value_eq_ival (w : Word) : (value w : ℝ) = ival w / 2 ^ 149 := by simp [value]

theorem ival_neg (w : Word) : ival (neg w) = -ival w := by
  cases h : sign w <;> simp [ival, h, units_eq_magUnits]

theorem value_neg (w : Word) : (value (neg w) : ℝ) = -value w := by
  rw [value_eq_ival, value_eq_ival, ival_neg, Int.cast_neg, neg_div]

theorem cast_one_units : ((one : ℕ) : ℝ) = 2 ^ 149 := by rw [one, Nat.cast_pow, Nat.cast_ofNat]

section Rounded
variable {num den : Nat} (hden : 0 < den) (s : Bool)
include hden

/-- Distances of magnitudes as reals are the integer distances that `roundUnits` compares, scaled. -/
theorem dist_magUnits (m : Nat) :
    |(magUnits m : ℝ) / 2 ^ 149 - num / den / 2 ^ 149| = ((|(magUnits m : ℤ) * den - num| : ℤ) : ℝ) / (den * 2 ^ 149) := by
  have hpos : (0 : ℝ) < den * 2 ^ 149 := by positivity
  have hne : (den : ℝ) ≠ 0 := by positivity
  rw [← abs_of_pos hpos, Int.cast_abs, ← abs_div]
  congr 1
  push_cast
  field_simp

theorem overflow_bound_iff :
    ((2 ^ 25 - 1) * 2 ^ 103 : ℝ) ≤ num / den / 2 ^ 149 ↔ (2 ^ 25 - 1) * 2 ^ 252 * den ≤ num := by
  have hpos : (0 : ℝ) < den := by positivity
  rw [div_div, le_div_iff₀ (by positivity), ← Nat.cast_le (α := ℝ)]
  push_cast
  constructor <;> intro h <;> linarith

theorem roundUnits_dist_real_le (hr : roundUnits num den < infMag) (m : Nat) :
    |(magUnits (roundUnits num den) : ℝ) / 2 ^ 149 - num / den / 2 ^ 149| ≤
      |(magUnits m : ℝ) / 2 ^ 149 - num / den / 2 ^ 149| := by
  rw [dist_magUnits hden, dist_magUnits hden, div_le_div_iff_of_pos_right (by positivity)]
  exact_mod_cast roundUnits_dist_le hden hr m

theorem roundUnits_even_of_dist_real_eq (hr : roundUnits num den < infMag) {m : Nat} (hne : m ≠ roundUnits num den)
    (heq : |(magUnits m : ℝ) / 2 ^ 149 - num / den / 2 ^ 149| =
      |(magUnits (roundUnits num den) : ℝ) / 2 ^ 149 - num / den / 2 ^ 149|) : roundUnits num den % 2 = 0 := by
  rw [dist_magUnits hden, dist_magUnits hden, div_left_inj' (by positivity)] at heq
  exact roundUnits_even_of_dist_eq hden hr hne (by exact_mod_cast heq)

/-- Below the overflow bound the rounded magnitude with the sign of the exact value is a nearest word of it. -/
theorem isNearest_pack_roundUnits (hr : roundUnits num den < infMag) :
    IsNearest (signed s (num / den / 2 ^ 149)) (pack s (roundUnits num den)) := by
  have hlt : roundUnits num den < 2 ^ 31 := hr.trans (by decide)
  have hpos : (0 : ℝ) ≤ num / den / 2 ^ 149 := by positivity
  have hself : |(value (pack s (roundUnits num den)) : ℝ) - signed s (num / den / 2 ^ 149)| =
      |(magUnits (roundUnits num den) : ℝ) / 2 ^ 149 - num / den / 2 ^ 149| := by
    rw [value_pack s hlt, abs_signed_sub]
  have hmag (v : Word) := dist_magUnits_le_dist_value s hpos v
  have hnearest (m : Nat) := roundUnits_dist_real_le hden hr m
  refine ⟨by rwa [isFinite_iff, mag_pack hlt], fun v _ => ?_, fun v _ hne heq => ?_⟩
  · exact hself.trans_le ((hnearest _).trans (hmag v))
  · rw [mag_pack hlt]
    have hv : mag v ≠ roundUnits num den := fun hv =>
      hne (value_eq_of_mag_eq hlt hv hpos (by simpa [magUnits] using hnearest 0) heq)
    exact roundUnits_even_of_dist_real_eq hden hr hv (((hmag v).trans_eq (heq.trans hself)).antisymm (hnearest _))

/-- The one rounding (R10, R15), its overflow to infinity included. -/
theorem rounded_pack_roundUnits : Spec.rounded s (signed s (num / den / 2 ^ 149)) (pack s (roundUnits num den)) := by
  have hle := roundUnits_le_infMag num den
  have hlt : roundUnits num den < 2 ^ 31 := hle.trans_lt (by decide)
  have habs : |signed s (num / den / 2 ^ 149 : ℝ)| = num / den / 2 ^ 149 := by
    rw [abs_signed, abs_of_nonneg (by positivity)]
  refine ⟨sign_pack hlt, fun h => isNearest_pack_roundUnits hden s (lt_of_le_of_ne hle fun heq => ?_), fun h => ?_⟩
  · rw [habs, ← not_le, overflow_bound_iff hden, ← roundUnits_eq_infMag_iff hden] at h
    exact h heq
  · rw [habs, overflow_bound_iff hden, ← roundUnits_eq_infMag_iff hden] at h
    exact (mag_pack hlt).trans h

end Rounded

section Operations
variable (k : Site) {a b : Word} (ha : isFinite a = true) (hb : isFinite b = true)

theorem isNaN_eq_false_of_isFinite (h : isFinite a = true) : isNaN a = false := by
  simpa [isNaN] using ((isFinite_iff a).1 h).le

theorem isInf_eq_false_of_isFinite (h : isFinite a = true) : isInf a = false := by
  simpa [isInf] using ((isFinite_iff a).1 h).ne

include ha hb

theorem add_of_isFinite : add k a b =
    pack (if ival a + ival b = 0 then sign a && sign b else decide (ival a + ival b < 0))
      (roundUnits (ival a + ival b).natAbs 1) := by
  simp only [add, isNaN_eq_false_of_isFinite, isInf_eq_false_of_isFinite, ha, hb, Bool.or_self, Bool.false_eq_true, if_false]
  split_ifs with h
  · rw [h]; rfl
  · rfl

theorem mul_of_isFinite : mul k a b = pack (sign a != sign b) (roundUnits (units a * units b) one) := by
  simp [mul, isNaN_eq_false_of_isFinite, isInf_eq_false_of_isFinite, ha, hb]

theorem div_of_isFinite (h : isZero b = false) :
    div k a b = pack (sign a != sign b) (roundUnits (units a * one) (units b)) := by
  simp [div, isNaN_eq_false_of_isFinite, isInf_eq_false_of_isFinite, ha, hb, h]

theorem rounded_add :
    let r : ℝ := value a + value b
    Spec.rounded (if r = 0 then sign a && sign b else decide (r < 0)) r (add k a b) := by
  have hr : (value a + value b : ℝ) = ((ival a + ival b : ℤ) : ℝ) / 2 ^ 149 := by
    rw [value_eq_ival, value_eq_ival]
    push_cast
    ring
  have hzero : (value a + value b : ℝ) = 0 ↔ ival a + ival b = 0 := by
    rw [hr, div_eq_zero_iff, or_iff_left (by positivity), Int.cast_eq_zero]
  have hneg : (value a + value b : ℝ) < 0 ↔ ival a + ival b < 0 := by
    rw [hr, div_lt_iff₀ (by positivity), zero_mul, Int.cast_lt_zero]
  simp only [hzero, hneg, add_of_isFinite k ha hb]
  convert rounded_pack_roundUnits (num := (ival a + ival b).natAbs) Nat.one_pos _ using 1
  rw [Nat.cast_one, div_one, signed_div_right, hr]
  split_ifs with h
  · simp [h, signed]
  · rw [signed_natAbs]

theorem rounded_mul : Spec.rounded (sign a != sign b) (value a * value b) (mul k a b) := by
  have hr : (value a * value b : ℝ) =
      signed (sign a != sign b) ((units a * units b : ℕ) / (one : ℕ) / 2 ^ 149) := by
    rw [value_eq_signed, value_eq_signed, signed_mul, Nat.cast_mul, cast_one_units, units_eq_magUnits, units_eq_magUnits]
    congr 1
    ring
  rw [hr, mul_of_isFinite k ha hb]
  exact rounded_pack_roundUnits (by decide) _

theorem rounded_div (h : isZero b = false) : Spec.rounded (sign a != sign b) (value a / value b) (div k a b) := by
  have hpos : 0 < units b := by
    have hm : 0 < mag b := by simpa [isZero, Nat.pos_iff_ne_zero] using h
    exact magUnits_strictMono hm
  have hr : (value a / value b : ℝ) =
      signed (sign a != sign b) ((units a * one : ℕ) / (units b : ℕ) / 2 ^ 149) := by
    rw [value_eq_signed, value_eq_signed, signed_div, Nat.cast_mul, cast_one_units, units_eq_magUnits, units_eq_magUnits]
    congr 1
    field_simp
  rw [hr, div_of_isFinite k ha hb h]
  exact rounded_pack_roundUnits hpos _

theorem rounded_sub :
    let r : ℝ := value a - value b
    Spec.rounded (if r = 0 then sign a && !sign b else decide (r < 0)) r (sub k a b) := by
  simpa only [sub, value_neg, sign_neg, ← sub_eq_add_neg] using rounded_add k ha ((isFinite_neg b).trans hb)

end Operations

end Sys2Proof.F32

/-! ### `ConfigValid` in the words of R7, and the step that takes the next event (R12, R69) -/

namespace Sys2Proof

theorem eq_two_pow_log2_iff (n : Nat) : n = 2 ^ n.log2 ↔ ∃ k, n = 2 ^ k :=
  ⟨fun h => ⟨_, h⟩, by rintro ⟨k, rfl⟩; rw [Nat.log2_two_pow]⟩

/-- "A positive integer multiple" (R7, V3), as the model checks it and as the rule says it. -/
theorem pos_and_dvd_iff {d : Nat} (hd : 1 ≤ d) (c : Nat) : 0 < c ∧ d ∣ c ↔ ∃ q, 0 < q ∧ c = q * d := by
  constructor
  · rintro ⟨hc, q, rfl⟩
    exact ⟨q, Nat.pos_of_mul_pos_left hc, Nat.mul_comm d q⟩
  · rintro ⟨q, hq, rfl⟩
    exact ⟨Nat.mul_pos hq hd, Nat.dvd_mul_left d q⟩

theorem Machine.State.ready_iff (s : Machine.State) : s.ready = true ↔ s.params.Valid := decide_eq_true_iff

theorem Machine.step_of_agenda {s : Machine.State} {e : Machine.Event} {rest : List Machine.Event} (h : s.agenda = e :: rest) :
    Machine.step s = (s.withAgenda rest).perform e := by
  rw [Machine.step, h]

end Sys2Proof

/-! ### The settled statements -/

namespace Sys2Proof

/-- Settles O11: the rounding is the nearer of two neighbours, and each operation packs one rounding of its exact result. -/
theorem roundingIsToNearestEven : Obligations.RoundingIsToNearestEven := by
  refine ⟨fun num den hden => ⟨fun hr => ?_, F32.roundUnits_eq_infMag_iff hden, F32.roundUnits_le_infMag num den⟩,
    fun k a b ha hb => ⟨F32.rounded_add k ha hb, F32.rounded_sub k ha hb, F32.rounded_mul k ha hb, F32.rounded_div k ha hb⟩⟩
  have hunits : ∀ m, m < F32.infMag → F32.units (F32.pack false m) = F32.magUnits m := fun m hm =>
    F32.units_pack (hm.trans (by decide))
  refine ⟨fun m hm => ?_, fun m hm hne heq => ?_⟩
  · simpa only [hunits _ hm, hunits _ hr] using F32.roundUnits_dist_le hden hr m
  · simp only [hunits _ hm, hunits _ hr] at heq
    exact F32.roundUnits_even_of_dist_eq hden hr hne heq

/-- Settles O12, by the NaN rule of each operation. -/
theorem nanResultsAreQuiet : Obligations.NanResultsAreQuiet := by
  intro k a b op hop
  have hrule : F32.NaNRule op := by
    simp only [List.mem_cons, List.not_mem_nil, or_false] at hop
    rcases hop with rfl | rfl | rfl | rfl
    · exact F32.nanRule_add
    · exact F32.nanRule_sub
    · exact F32.nanRule_mul
    · exact F32.nanRule_div
  obtain ⟨hnan, hnone⟩ := hrule k a b
  rw [Bool.or_eq_true] at hnan
  rw [Bool.or_eq_false_iff] at hnone
  refine ⟨fun h => ?_, fun ha hb hres => ?_, fun h => ?_⟩
  · rw [hnan h, F32.isNaN_quietNaN]
  · obtain hq | hq := hnone ⟨ha, hb⟩
    · rw [hq, F32.getLsbD_quietNaN]
    · rw [hq] at hres
      cases hres
  · rw [hnan h, F32.getLsbD_quietNaN]

/-- Settles O56, condition by condition of R7. -/
theorem readyExactlyWhereConfigValid : Obligations.ReadyExactlyWhereConfigValid := by
  intro s
  rw [s.ready_iff]
  constructor
  · rintro ⟨⟨hpow, hmin, hmax⟩, ⟨hh, hb⟩, ⟨hin, hinb, hinh, hout, houtb, houth⟩, hfit, hlim⟩
    exact ⟨(eq_two_pow_log2_iff _).1 hpow, hmin, hmax, hh, hb, (pos_and_dvd_iff hb _).1 ⟨hin, hinb⟩,
      (pos_and_dvd_iff hh _).1 ⟨hin, hinh⟩, (pos_and_dvd_iff hb _).1 ⟨hout, houtb⟩,
      (pos_and_dvd_iff hh _).1 ⟨hout, houth⟩, hfit, hlim⟩
  · rintro ⟨hpow, hmin, hmax, hh, hb, hinb, hinh, houtb, houth, hfit, hlim⟩
    obtain ⟨hin, hinb⟩ := (pos_and_dvd_iff hb _).2 hinb
    obtain ⟨hout, houtb⟩ := (pos_and_dvd_iff hb _).2 houtb
    exact ⟨⟨(eq_two_pow_log2_iff _).2 hpow, hmin, hmax⟩, ⟨hh, hb⟩,
      ⟨hin, hinb, ((pos_and_dvd_iff hh _).2 hinh).2, hout, houtb, ((pos_and_dvd_iff hh _).2 houth).2⟩, hfit, hlim⟩

/-- Settles O7: either master's event is performed by the one `State.transact`, on the state in which the later events wait. -/
theorem transactionsAreStepsOfEitherMaster : Obligations.TransactionsAreStepsOfEitherMaster := by
  intro s t rest h
  rcases h with h | h
  · exact Machine.step_of_agenda h
  · exact Machine.step_of_agenda h

end Sys2Proof

/-! PROOFS. Family 10_state: what a bus transaction, an engine step and a step can do to the state, update by update; the invariant
(R43, R46, R47), the constants and the error bits over every step (R20, R38); the registers (R35 to R41); the reset state (R46);
the bit-reversal pairs (R23) and the tables (R22 to R27). -/

/-! ### What each turn can do to the state -/

namespace Sys2Proof.Machine

/-- What one engine step does to the state: the four kinds of R84, with the four transforms as one store of words. -/
inductive State.EngineEffect (s : State) : State → Prop
  | nop : EngineEffect s s.finish
  | transform (dst : Buf) (ws : List Word) (hws : ws.length ≤ 2 * s.params.n) :
      EngineEffect s (s.setWords (Arr.ofBuf dst) ws).finish
  | sample (i : Instr) (j : Nat) (hi : isBlockCommand i = true) (hj : j < s.params.b) :
      EngineEffect s { s.sampleStep j with seq := .run i (nextPhase s.params.b j) }
  | drain (g : List Word) : EngineEffect s (s.outDrain s.site g).finish

/-- What a bus transaction does to the state (R63, R64): a refusal, a read (or a write that is ignored), or the one write rule that
applies. -/
inductive State.BusEffect (s : State) (tr : Transaction) : State → Prop
  | refuse (e : ErrorBit) (out : Option Word) (he : e ≠ .cfg) : BusEffect s tr { s.raise e with busOut := out }
  | answer (out : Option Word) : BusEffect s tr { s with busOut := out }
  | clear (v : Word) (htr : tr = .write .word 0x00001C#24 v) : BusEffect s tr (s.clearErrors v)
  | accept (w : Word) (i : Instr) (hr : s.ready = true) : BusEffect s tr (s.accept w i)
  | setGain (v : Word) : BusEffect s tr { s with gain := v }
  | setPhaseBound (v : Word) : BusEffect s tr { s with phaseBound := v }
  | publish (v : Word) : BusEffect s tr (s.publish v)
  | store (A : Arr) (i : Nat) (v : Word) (hr : s.ready = true) (hA : A ≠ s.activeBank) (hi : i < A.size s.params) :
      BusEffect s tr (s.setWord A i v)

/-- What one step does to the state: one event of the schedule, or nothing (R12, R69 item c, R169). -/
inductive StepEffect (s : State) : State → Prop
  | transact {t : State} (tr : Transaction) (rest : List Event)
      (ha : s.agenda = .host tr :: rest ∨ s.agenda = .producer tr :: rest)
      (ht : (s.withAgenda rest).tick.BusEffect tr t) : StepEffect s t
  | reset (c : Memory) (rest : List Event) (ha : s.agenda = .reset c :: rest) :
      StepEffect s ((s.withAgenda rest).tick.resetInput c)
  | engine {t : State} (rest : List Event) (hr : s.ready = true) (ht : (s.withAgenda rest).tick.EngineEffect t) : StepEffect s t
  | pass (rest : List Event) : StepEffect s (s.withAgenda rest)

@[simp] theorem Arr.size_ofBuf (p : Params) (b : Buf) : (Arr.ofBuf b).size p = 2 * p.n := by cases b <;> rfl

theorem exec_effect {s t : State} {i : Instr} (hr : s.ready = true) (h : exec i s = .next t) : s.EngineEffect t := by
  have hvalid := s.valid_of_ready hr
  have heven := size_even_of_valid hvalid
  obtain ⟨⟨-, hmin, -⟩, -⟩ := hvalid
  rcases exec_next_cases h with
    ⟨-, rfl⟩ | ⟨dst, src, -, rfl⟩ | ⟨dst, src, -, rfl⟩ | ⟨dst, src, -, rfl⟩ | ⟨dst, src, -, rfl⟩ |
    ⟨hi, c, j, -, hj, rfl⟩ | ⟨-, c, g, -, rfl⟩
  · exact .nop
  · exact .transform dst _ (by simp)
  · exact .transform dst _ (by simp)
  · exact .transform dst _ (by rw [length_realForward _ _ _ _ _ _ heven (by omega)]; omega)
  · exact .transform dst _ (by rw [length_realInverse _ _ _ _ _ _ heven (by omega)]; omega)
  · exact .sample i j hi hj
  · exact .drain g

/-- Where an address can point: a register, by its index in region 0, or a word inside its region (R62). -/
theorem ofAddr_cases (p : Params) (a : BusAddr) :
    (∃ g, Target.ofAddr p a = .reg g ∧ a.toNat % 4 = 0 ∧ Region.ofNumber (a.toNat / 2 ^ 20) = .regs ∧
      Reg.ofIndex (a.toNat % 2 ^ 20 / 4) = some g) ∨
    (∃ r i, Target.ofAddr p a = .word r i ∧ i < r.size p) ∨ Target.ofAddr p a = .unmapped := by
  simp only [Target.ofAddr]
  split_ifs with hlow
  · exact .inr (.inr rfl)
  · rw [not_not] at hlow
    split
    · rename_i hr
      split
      · rename_i g hg
        exact .inl ⟨g, rfl, hlow, hr, hg⟩
      · exact .inr (.inr rfl)
    · split_ifs with hi
      · exact .inr (.inl ⟨_, _, rfl, hi⟩)
      · exact .inr (.inr rfl)

theorem Region.ofNumber_eq_regs {k : Nat} (h : Region.ofNumber k = .regs) : k = 0 := by
  unfold Region.ofNumber at h
  split at h <;> simp at h ⊢

theorem Reg.ofIndex_eq_err {k : Nat} (h : Reg.ofIndex k = some .err) : k = 7 := by
  unfold Reg.ofIndex at h
  split at h <;> simp at h ⊢

/-- Only one address is that of `ERR` (R38). -/
theorem eq_errAddr_of_ofAddr {p : Params} {a : BusAddr} (h : Target.ofAddr p a = .reg .err) : a = 0x00001C#24 := by
  rcases ofAddr_cases p a with ⟨g, hg, hlow, hregion, hindex⟩ | ⟨r, i, hw, -⟩ | hu
  · cases hg.symm.trans h
    have hregion := Region.ofNumber_eq_regs hregion
    have hindex := Reg.ofIndex_eq_err hindex
    apply BitVec.eq_of_toNat_eq
    rw [BitVec.toNat_ofNat]
    omega
  · cases hw.symm.trans h
  · cases hu.symm.trans h

theorem lt_size_of_ofAddr {p : Params} {a : BusAddr} {r : Region} {i : Nat} (h : Target.ofAddr p a = .word r i) :
    i < r.size p := by
  rcases ofAddr_cases p a with ⟨g, hg, -⟩ | ⟨r, i, hw, hi⟩ | hu
  · cases hg.symm.trans h
  · cases hw.symm.trans h
    exact hi
  · cases hu.symm.trans h

theorem Arr.size_bank (p : Params) (b : Bool) : (Arr.bank b).size p = p.n := by cases b <;> rfl

theorem Arr.bank_eq (b : Bool) : Arr.bank b = .mag0 ∨ Arr.bank b = .mag1 := by cases b <;> decide

theorem Arr.bank_not_ne (b : Bool) : Arr.bank (!b) ≠ Arr.bank b := by cases b <;> decide

namespace State

variable (s : State)

/-- A window has the size of the array it maps (R62). -/
theorem size_windowArr {r : Region} {A : Arr} (h : s.windowArr r = some A) : A.size s.params = r.size s.params := by
  cases r <;> cases h
  case magw => exact Arr.size_bank _ _
  case magav => exact Arr.size_bank _ _
  all_goals rfl

/-- No window that can be written maps the active bank (R29). -/
theorem windowArr_ne_activeBank {r : Region} {A : Arr} {i : Nat} (h : s.windowArr r = some A)
    (hw : (Target.word r i).writable = true) : A ≠ s.activeBank := by
  intro hactive
  have hbank : A = .mag0 ∨ A = .mag1 := hactive ▸ Arr.bank_eq s.magActive
  cases r <;> cases h
  case magw => exact Arr.bank_not_ne _ hactive
  case magav => cases hw
  all_goals simp at hbank

/-- The frame of a hop: the ring, its cursor and at most one error bit (R135, R136). -/
theorem resynth_frame : ∃ m, ∃ e ∈ [s.err, s.err ||| ErrorBit.hopskip.mask],
    s.resynth = { s with mem := m, outWr := ringIndex s.outWr s.params.h s.params.cOut, err := e } := by
  rcases s.resynth_cases with ⟨-, h⟩ | ⟨-, h⟩
  · exact ⟨_, _, .head _, h⟩
  · exact ⟨_, _, .tail _ (.head _), h⟩

/-- The frame of a sample step (R133). -/
theorem sampleStep_frame (j : Nat) : ∃ m w c, ∃ e ∈ [s.err, s.err ||| ErrorBit.hopskip.mask],
    s.sampleStep j = { s with mem := m, inWr := ringIndex s.inWr 1 s.params.cIn, outWr := w, hopCnt := c, err := e } := by
  unfold State.sampleStep
  rcases (s.inPush (s.word .inblk j)).countHop_cases with ⟨-, h⟩ | ⟨-, h⟩
  · exact ⟨_, _, _, _, .head _, h⟩
  · obtain ⟨m, e, he, hframe⟩ := resynth_frame { s.inPush (s.word .inblk j) with hopCnt := 0 }
    exact ⟨m, _, _, e, he, h.trans hframe⟩

@[simp] theorem sampleStep_params (j : Nat) : (s.sampleStep j).params = s.params := by
  obtain ⟨m, w, c, e, -, h⟩ := s.sampleStep_frame j
  rw [h]

@[simp] theorem sampleStep_ready (j : Nat) : (s.sampleStep j).ready = s.ready := by
  rw [State.ready, State.ready, sampleStep_params]

/-- The frame of an engine step: the parameters, the ROMs, the feed registers, the host's registers and the model's own fields stay,
and no error bit but `HOPSKIP` changes. -/
theorem EngineEffect.frame {t : State} (h : s.EngineEffect t) : ∃ m inWr outWr outRd hopCnt seq done,
    ∃ e ∈ [s.err, s.err ||| ErrorBit.hopskip.mask],
      t = { s with mem := m, inWr := inWr, outWr := outWr, outRd := outRd, hopCnt := hopCnt, seq := seq, done := done,
                   err := e } := by
  cases h with
  | nop => exact ⟨_, _, _, _, _, _, _, _, .head _, rfl⟩
  | transform dst ws hws => exact ⟨_, _, _, _, _, _, _, _, .head _, rfl⟩
  | drain g => exact ⟨_, _, _, _, _, _, _, _, .head _, rfl⟩
  | sample i j hi hj =>
    obtain ⟨m, w, c, e, he, hframe⟩ := s.sampleStep_frame j
    exact ⟨_, _, _, _, _, _, _, e, he, by rw [hframe]⟩

theorem busRead_effect (width : Width) (a : BusAddr) : s.BusEffect (.read width a) (s.busRead width a) := by
  rcases s.busRead_cases width a with ⟨-, h⟩ | ⟨-, -, h⟩ | ⟨-, -, h⟩
  · rw [h]; exact .refuse .badaddr _ (by decide)
  · rw [h]; exact .refuse .busyacc _ (by decide)
  · rw [h]; exact .answer _

theorem offerCommand_effect (tr : Transaction) (w : Word) : s.BusEffect tr (s.offerCommand w) := by
  rcases s.offerCommand_cases w with ⟨-, h⟩ | ⟨-, -, h⟩ | ⟨-, -, -, h⟩ | ⟨hr, -, i, -, h⟩
  · rw [h]; exact .refuse .notready s.busOut (by decide)
  · rw [h]; exact .refuse .busycmd s.busOut (by decide)
  · rw [h]; exact .refuse .illcmd s.busOut (by decide)
  · rw [h]; exact .accept w i hr

theorem writeReg_effect (r : Reg) (v : Word) {tr : Transaction} (htr : r = .err → tr = .write .word 0x00001C#24 v) :
    s.BusEffect tr (s.writeReg r v) := by
  rcases s.writeReg_cases r v with ⟨hr, h⟩ | ⟨-, h⟩ | ⟨-, -, h⟩ | ⟨-, -, h⟩ | ⟨-, -, h⟩ | h
  · rw [h]; exact .clear v (htr hr)
  · rw [h]; exact s.offerCommand_effect tr v
  · rw [h]; exact .setGain v
  · rw [h]; exact .setPhaseBound v
  · rw [h]; exact .publish v
  · rw [h]; exact .answer s.busOut

theorem width_of_badAddress {width : Width} {t : Target} (h : s.badAddress width t = false) : width = .word := by
  simp only [State.badAddress, Bool.or_eq_false_iff] at h
  simpa using h.1

theorem ready_of_badAddress {width : Width} {r : Region} {i : Nat} (h : s.badAddress width (.word r i) = false) :
    s.ready = true := by
  simp only [State.badAddress, Bool.or_eq_false_iff] at h
  simpa using h.2

theorem busWrite_effect (width : Width) (a : BusAddr) (v : Word) : s.BusEffect (.write width a v) (s.busWrite width a v) := by
  rcases s.busWrite_cases width a v with ⟨-, h⟩ | ⟨-, -, -, h⟩ | ⟨hbad, hw, -, h⟩
  · rw [h]; exact .refuse .badaddr s.busOut (by decide)
  · rw [h]; exact .refuse .busyacc s.busOut (by decide)
  rw [h]
  rcases s.poke_cases (Target.ofAddr s.params a) v with ⟨g, ht, hp⟩ | ⟨r, i, A, ht, hA, hp⟩ | hp
  · rw [hp]
    refine s.writeReg_effect g v fun hg => ?_
    subst hg
    rw [s.width_of_badAddress hbad, eq_errAddr_of_ofAddr ht]
  · rw [hp]
    rw [ht] at hbad hw
    exact .store A i v (s.ready_of_badAddress hbad) (s.windowArr_ne_activeBank hA hw)
      ((lt_size_of_ofAddr ht).trans_eq (s.size_windowArr hA).symm)
  · rw [hp]; exact .answer s.busOut

theorem transact_effect (tr : Transaction) : s.BusEffect tr (s.transact tr) := by
  cases tr with
  | read width a => exact s.busRead_effect width a
  | write width a v => exact s.busWrite_effect width a v

end State

theorem step_effect {s t : State} (h : step s = .next t) : StepEffect s t := by
  rcases step_next_cases h with ⟨tr, rest, ha, rfl⟩ | ⟨c, rest, ha, rfl⟩ | ⟨rest, -, hturn⟩
  · exact .transact tr rest ha (State.transact_effect _ tr)
  · exact .reset c rest ha
  · rcases engineTurn_next_cases hturn with ⟨i, -, hr, -, hexec⟩ | ⟨-, rfl⟩
    · exact .engine rest hr (exec_effect hr hexec)
    · exact .pass rest

end Sys2Proof.Machine

/-! ### The invariant (R43, R46, R47), update by update -/

namespace Sys2Proof.Machine

theorem ringIndex_dvd {d c cap : Nat} (hc : d ∣ c) (hcap : d ∣ cap) : d ∣ ringIndex c d cap :=
  (Nat.dvd_mod_iff hcap).2 (Nat.dvd_add hc (Nat.dvd_refl d))

theorem firstPhase_legal (i : Instr) {b : Nat} (hb : 0 < b) : (Seq.run i (firstPhase i)).Legal b := by
  cases i <;> simp [firstPhase, Seq.Legal, isBlockCommand, hb]

theorem nextPhase_legal {i : Instr} (hi : isBlockCommand i = true) (b j : Nat) : (Seq.run i (nextPhase b j)).Legal b := by
  unfold nextPhase
  split_ifs with h
  · exact ⟨hi, h⟩
  · exact hi

theorem inArrays_resetMemory (p : Params) (contents : Memory) : (resetMemory p contents).InArrays p := fun _ hc =>
  let ⟨A, _, hA⟩ := mem_resetMemory hc
  ⟨A, by cases A <;> decide, hA⟩

namespace State

/-! The sizes that `ConfigValid` makes positive (V2, V3 of R7). -/

theorem hop_pos_of_ready {s : State} (hr : s.ready = true) : 0 < s.params.h := by
  obtain ⟨-, ⟨hh, -⟩, -⟩ := s.valid_of_ready hr
  exact hh

theorem block_pos_of_ready {s : State} (hr : s.ready = true) : 0 < s.params.b := by
  obtain ⟨-, ⟨-, hb⟩, -⟩ := s.valid_of_ready hr
  exact hb

theorem cIn_pos_of_ready {s : State} (hr : s.ready = true) : 0 < s.params.cIn := by
  obtain ⟨-, -, ⟨hin, -⟩, -⟩ := s.valid_of_ready hr
  exact hin

theorem cOut_pos_of_ready {s : State} (hr : s.ready = true) : 0 < s.params.cOut := by
  obtain ⟨-, -, ⟨-, -, -, hout, -⟩, -⟩ := s.valid_of_ready hr
  exact hout

/-- The invariant holds after every reset (R46). -/
theorem inv_resetWith (p : Params) (rom : Rom) (contents : Memory) : (State.resetWith p rom contents).Inv where
  memWf := wf_resetMemory p contents
  memInArrays := inArrays_resetMemory p contents
  seqLegal := trivial
  cfgBit := by
    show (if p.Valid then 0#7 else 1#7).getLsbD 0 = !decide p.Valid
    split_ifs with hvalid
    · rw [decide_eq_true hvalid]; rfl
    · rw [decide_eq_false hvalid]; rfl
  idleIfRefused _ := rfl
  cursors hr :=
    ⟨cIn_pos_of_ready hr, cOut_pos_of_ready hr, cOut_pos_of_ready hr, hop_pos_of_ready hr, Nat.dvd_zero _, Nat.dvd_zero _⟩

namespace Inv

variable {s : State} (h : s.Inv)
include h

/-- The invariant looks at no field but the eight named here. -/
theorem congr {t : State} (hparams : t.params = s.params := by rfl) (hmem : t.mem = s.mem := by rfl)
    (hinWr : t.inWr = s.inWr := by rfl) (houtWr : t.outWr = s.outWr := by rfl) (houtRd : t.outRd = s.outRd := by rfl)
    (hhopCnt : t.hopCnt = s.hopCnt := by rfl) (hcfg : t.err.getLsbD 0 = s.err.getLsbD 0 := by rfl)
    (hseq : t.seq = s.seq := by rfl) : t.Inv := by
  obtain ⟨hwf, harrays, hlegal, hbit, hidle, hcursors⟩ := h
  have hready : t.ready = s.ready := by rw [State.ready, State.ready, hparams]
  refine ⟨by rwa [hmem], by rwa [hmem, hparams], by rwa [hseq, hparams], ?_, by rwa [hready, hseq], fun hr => ?_⟩
  · rw [hready, ← hbit]
    exact hcfg
  · obtain ⟨h1, h2, h3, h4, h5, h6⟩ := hcursors (hready ▸ hr)
    exact ⟨by rwa [hinWr, hparams], by rwa [houtWr, hparams], by rwa [houtRd, hparams], by rwa [hhopCnt, hparams],
      by rwa [houtWr, hparams], by rwa [houtRd, hparams]⟩

theorem withMem {m : Memory} (hwf : m.wf = true) (harrays : m.InArrays s.params) : Inv { s with mem := m } where
  memWf := hwf
  memInArrays := harrays
  seqLegal := h.seqLegal
  cfgBit := h.cfgBit
  idleIfRefused := h.idleIfRefused
  cursors hr := { h.cursors hr with }

theorem withSeq {q : Seq} (hlegal : q.Legal s.params.b) (hidle : s.ready = false → q = .idle) : Inv { s with seq := q } where
  memWf := h.memWf
  memInArrays := h.memInArrays
  seqLegal := hlegal
  cfgBit := h.cfgBit
  idleIfRefused := hidle
  cursors hr := { h.cursors hr with }

theorem withCursors {inWr outWr outRd hopCnt : Nat}
    (hc : s.ready = true → s.CursorsInRange →
      CursorsInRange { s with inWr := inWr, outWr := outWr, outRd := outRd, hopCnt := hopCnt }) :
    Inv { s with inWr := inWr, outWr := outWr, outRd := outRd, hopCnt := hopCnt } where
  memWf := h.memWf
  memInArrays := h.memInArrays
  seqLegal := h.seqLegal
  cfgBit := h.cfgBit
  idleIfRefused := h.idleIfRefused
  cursors hr := hc hr (h.cursors hr)

theorem tick : s.tick.Inv := h.congr

theorem withAgenda (rest : List Event) : (s.withAgenda rest).Inv := h.congr

theorem raise {e : ErrorBit} (he : e ≠ .cfg) : (s.raise e).Inv :=
  h.congr (hcfg := by cases e <;> simp [ErrorBit.mask, ErrorBit.code] at he ⊢)

theorem clearErrors (v : Word) : (s.clearErrors v).Inv := h.congr (hcfg := by simp)

theorem finish : s.finish.Inv := (h.withSeq (q := .idle) trivial fun _ => rfl).congr

theorem setWord {A : Arr} {i : Nat} (v : Word) (hi : i < A.size s.params) : (s.setWord A i v).Inv :=
  h.withMem (Memory.wf_writeWord _ _ h.memWf) (h.memInArrays.writeWord v hi)

theorem setWords {A : Arr} {ws : List Word} (hws : ws.length ≤ A.size s.params) : (s.setWords A ws).Inv :=
  h.withMem (Memory.wf_writeWords _ _ h.memWf) (h.memInArrays.writeWords hws)

section Ready
variable (hr : s.ready = true)
include hr

theorem accept (w : Word) (i : Instr) : (s.accept w i).Inv :=
  (h.withSeq (firstPhase_legal i (block_pos_of_ready hr)) fun hf => by simp [hr] at hf).congr

theorem inPush (v : Word) : (s.inPush v).Inv := by
  have hin := (h.cursors hr).inWr_lt
  refine (h.setWord v (A := .inring) hin).withCursors fun _ hc => { hc with inWr_lt := ?_ }
  exact ringIndex_lt (cIn_pos_of_ready hr)

theorem outSkip : s.outSkip.Inv := by
  obtain ⟨-, -, ⟨-, -, -, hpos, -, hdvd⟩, -⟩ := s.valid_of_ready hr
  exact h.withCursors fun _ hc => { hc with
    outWr_lt := ringIndex_lt hpos
    outWr_dvd := ringIndex_dvd hc.outWr_dvd hdvd }

theorem outAddFrame (k : Site) (f : List Word) : (s.outAddFrame k f).Inv := by
  have hpos := cOut_pos_of_ready hr
  exact (h.withMem (s.wf_outAddFrame k f h.memWf) (s.inArrays_outAddFrame k f h.memInArrays hpos)).outSkip hr

theorem outDrain (k : Site) (g : List Word) : (s.outDrain k g).Inv := by
  obtain ⟨-, -, ⟨-, -, -, hpos, hdvd, -⟩, -⟩ := s.valid_of_ready hr
  refine (h.withMem (s.wf_outDrain k g h.memWf) (s.inArrays_outDrain k g h.memInArrays hpos)).withCursors fun _ hc => { hc with
    outRd_lt := ringIndex_lt hpos
    outRd_dvd := ringIndex_dvd hc.outRd_dvd hdvd }

theorem resynth : s.resynth.Inv := by
  rcases s.resynth_cases with ⟨-, heq⟩ | ⟨-, heq⟩
  · rw [heq]; exact h.outAddFrame hr _ _
  · rw [heq]; exact (h.raise (by decide)).outSkip hr

theorem countHop : s.countHop.Inv := by
  rcases s.countHop_cases with ⟨hne, heq⟩ | ⟨-, heq⟩
  · rw [heq]
    refine h.withCursors fun _ hc => { hc with hopCnt_lt := ?_ }
    have := hc.hopCnt_lt
    show s.hopCnt + 1 < s.params.h
    omega
  · rw [heq]
    refine Inv.resynth (h.withCursors fun _ hc => { hc with hopCnt_lt := ?_ }) hr
    exact hop_pos_of_ready hr

theorem sampleStep (j : Nat) : (s.sampleStep j).Inv := (h.inPush hr _).countHop hr

theorem engineEffect {t : State} (ht : s.EngineEffect t) : t.Inv := by
  cases ht with
  | nop => exact h.finish
  | transform dst ws hws => exact (h.setWords (by simpa using hws)).finish
  | sample i j hi hj => exact (h.sampleStep hr j).withSeq (by simpa using nextPhase_legal hi _ _) (by simp [hr])
  | drain g => exact (h.outDrain hr _ g).finish

end Ready

theorem busEffect {tr : Transaction} {t : State} (ht : s.BusEffect tr t) : t.Inv := by
  cases ht with
  | refuse e out he => exact (h.raise he).congr
  | answer out => exact h.congr
  | clear v htr => exact h.clearErrors v
  | accept w i hr => exact h.accept hr w i
  | setGain v => exact h.congr
  | setPhaseBound v => exact h.congr
  | publish v => exact h.congr
  | store A i v hr hA hi => exact h.setWord v hi

theorem stepEffect {t : State} (ht : StepEffect s t) : t.Inv := by
  cases ht with
  | transact tr rest ha ht => exact (h.withAgenda rest).tick.busEffect ht
  | reset c rest ha => exact (inv_resetWith s.params s.rom c).congr
  | engine rest hr ht => exact (h.withAgenda rest).tick.engineEffect hr ht
  | pass rest => exact h.withAgenda rest

end Inv
end State
end Sys2Proof.Machine

/-! ### What every step keeps: the constants (R20), the error bits (R38) and the active bank (R29) -/

namespace Sys2Proof.Machine

/-- An address one array holds lies outside every other array. -/
theorem Arr.outside_of_holds {p : Params} {A B : Arr} {a : Nat} (hp : p.Valid) (hne : A ≠ B) (h : A.holds p a = true) :
    a < B.base ∨ B.base + 4 * B.size p ≤ a := by
  by_contra hin
  exact hne (Arr.holds_unique hp h (by simp only [Arr.holds, decide_eq_true_eq]; omega))

theorem ErrorBit.code_lt (e : ErrorBit) : e.code < 7 := by cases e <;> decide

theorem ErrorBit.code_ne_zero_iff (e : ErrorBit) : e.code ≠ 0 ↔ e ≠ .cfg := by cases e <;> decide

namespace State

section
variable (s : State)

theorem errorBit_or {e : ErrorBit} (h : s.errorBit e = true) (m : BitVec 7) : (s.err ||| m).getLsbD e.code = true := by
  rw [BitVec.getLsbD_or, Bool.or_eq_true]
  exact .inl h

/-- The write rule of `ERR`, bit by bit (R38). -/
theorem getLsbD_clearErrors (v : Word) {j : Nat} (hj : j < 7) :
    (s.clearErrors v).err.getLsbD j = (s.err.getLsbD j && !(v.getLsbD j && decide (j ≠ 0))) := by
  have hmask : (0x7E#7).getLsbD j = decide (j ≠ 0) := by interval_cases j <;> rfl
  rw [clearErrors_err, BitVec.getLsbD_and, BitVec.getLsbD_not, BitVec.getLsbD_and, BitVec.getLsbD_setWidth, hmask]
  simp [hj]

theorem errorBit_clearErrors (e : ErrorBit) (v : Word) :
    (s.clearErrors v).errorBit e = (s.errorBit e && !(v.getLsbD e.code && decide (e ≠ .cfg))) := by
  rw [State.errorBit, getLsbD_clearErrors s v e.code_lt]
  simp only [ErrorBit.code_ne_zero_iff]
  rfl

theorem word_eq_of_read {t : State} {A : Arr} {j : Nat} (hj : j < A.size s.params)
    (h : ∀ a, A.holds s.params a = true → t.mem.read a = s.mem.read a) : t.word A j = s.word A j := by
  refine Memory.readWord_congr fun a ha ha' => h a ?_
  simp only [Arr.addr] at ha ha'
  simp only [Arr.holds, decide_eq_true_eq]
  omega

/-- A sample step changes no byte outside the two rings (R133). -/
theorem read_sampleStep_outside (j : Nat) {a : Nat} (hr : s.ready = true) (hw : s.inWr < s.params.cIn)
    (hin : a < Arr.base .inring ∨ Arr.base .inring + 4 * s.params.cIn ≤ a)
    (hout : a < Arr.base .outring ∨ Arr.base .outring + 4 * s.params.cOut ≤ a) :
    (s.sampleStep j).mem.read a = s.mem.read a := by
  have hpush : (s.inPush (s.word .inblk j)).mem.read a = s.mem.read a := by
    rw [inPush_mem, Memory.read_writeWord_outside]
    simp only [Arr.addr]
    omega
  rw [← hpush, State.sampleStep]
  set u := s.inPush (s.word .inblk j)
  rcases u.countHop_cases with ⟨-, h⟩ | ⟨-, h⟩
  · rw [h]
  · rw [h]
    rcases resynth_cases { u with hopCnt := 0 } with ⟨-, h⟩ | ⟨-, h⟩
    · rw [h]
      exact read_outAddFrame_outside { u with hopCnt := 0 } _ _ (cOut_pos_of_ready hr) hout
    · rw [h]
      rfl

end

variable {s t : State}

/-- An engine step writes no bank (R29). -/
theorem EngineEffect.read_bank (h : s.EngineEffect t) (hs : s.Inv) (hr : s.ready = true) {b : Bool} {a : Nat}
    (ha : (Arr.bank b).holds s.params a = true) : t.mem.read a = s.mem.read a := by
  have hpos := cOut_pos_of_ready hr
  have hout {B : Arr} (hne : B ≠ .mag0 ∧ B ≠ .mag1) : a < B.base ∨ B.base + 4 * B.size s.params ≤ a := by
    refine Arr.outside_of_holds (s.valid_of_ready hr) ?_ ha
    rcases Arr.bank_eq b with hb | hb <;> rw [hb]
    · exact hne.1.symm
    · exact hne.2.symm
  cases h with
  | nop => rfl
  | transform dst ws hws =>
    have hdst := hout (B := Arr.ofBuf dst) (by cases dst <;> decide)
    rw [Arr.size_ofBuf] at hdst
    exact read_setWords_outside s ws (by omega)
  | sample i j hi hj =>
    exact s.read_sampleStep_outside j hr (hs.cursors hr).inWr_lt (hout (B := .inring) (by decide))
      (hout (B := .outring) (by decide))
  | drain g => exact s.read_outDrain_outside _ g hpos (hout (B := .outring) (by decide)) (hout (B := .outblk) (by decide))

theorem EngineEffect.word_bank (h : s.EngineEffect t) (hs : s.Inv) (hr : s.ready = true) (b : Bool) {j : Nat}
    (hj : j < s.params.n) : t.word (Arr.bank b) j = s.word (Arr.bank b) j :=
  s.word_eq_of_read (by rwa [Arr.size_bank]) fun _ ha => h.read_bank hs hr ha

/-- A bus transaction writes no word of the active bank (R29). -/
theorem BusEffect.word_activeBank {tr : Transaction} (h : s.BusEffect tr t) {j : Nat} (hj : j < s.params.n) :
    t.word s.activeBank j = s.word s.activeBank j := by
  cases h with
  | store A i v hr hA hi =>
    have hvalid := s.valid_of_ready hr
    have hn := Arr.size_le hvalid (Arr.bank s.magActive)
    rw [Arr.size_bank] at hn
    exact s.word_setWord_other v hA.symm (hi.trans_le (Arr.size_le hvalid A)) (hj.trans_le hn)
  | refuse | answer | clear | accept | setGain | setPhaseBound | publish => rfl

theorem EngineEffect.constants (h : s.EngineEffect t) : t.params = s.params ∧ t.rom = s.rom ∧ t.magValid = s.magValid := by
  obtain ⟨m, inWr, outWr, outRd, hopCnt, seq, done, e, -, rfl⟩ := h.frame
  exact ⟨rfl, rfl, rfl⟩

theorem BusEffect.constants {tr : Transaction} (h : s.BusEffect tr t) :
    t.params = s.params ∧ t.rom = s.rom ∧ (s.magValid = true → t.magValid = true) := by
  cases h with
  | publish v => exact ⟨rfl, rfl, fun _ => rfl⟩
  | refuse | answer | clear | accept | setGain | setPhaseBound | store => exact ⟨rfl, rfl, id⟩

/-- An engine step clears no error bit (R150). -/
theorem EngineEffect.errorBit (h : s.EngineEffect t) {e : ErrorBit} (he : s.errorBit e = true) : t.errorBit e = true := by
  obtain ⟨m, inWr, outWr, outRd, hopCnt, seq, done, err, herr, rfl⟩ := h.frame
  rcases List.mem_pair.1 herr with rfl | rfl
  · exact he
  · exact s.errorBit_or he _

/-- A bus transaction clears an error bit only by a write to `ERR` with a one at its place, and never `CFG` (R162). -/
theorem BusEffect.errorBit {tr : Transaction} (h : s.BusEffect tr t) {e : ErrorBit} (he : s.errorBit e = true) :
    t.errorBit e = true ∨ (e ≠ .cfg ∧ ∃ v : Word, v.getLsbD e.code = true ∧ tr = .write .word 0x00001C#24 v) := by
  cases h with
  | refuse e' out he' => exact .inl (s.errorBit_or he _)
  | clear v htr =>
    rw [s.errorBit_clearErrors, he, Bool.true_and]
    cases hv : v.getLsbD e.code
    · exact .inl rfl
    · by_cases hcfg : e = .cfg
      · exact .inl (by simp [hcfg])
      · exact .inr ⟨hcfg, v, hv, htr⟩
  | answer | accept | setGain | setPhaseBound | publish | store => exact .inl he

end State

end Sys2Proof.Machine

/-! ### The registers on the bus (R35 to R41) -/

namespace Sys2Proof.Machine

theorem ofAddr_reg (p : Params) {i : Nat} {g : Reg} (h : Reg.ofIndex i = some g) :
    Target.ofAddr p (BitVec.ofNat 24 (4 * i)) = .reg g := by
  have hi : i < 16 := by
    by_contra hge
    obtain ⟨k, rfl⟩ := Nat.exists_eq_add_of_le (Nat.le_of_not_lt hge)
    rw [Nat.add_comm] at h
    simp [Reg.ofIndex] at h
  interval_cases i <;> cases h <;> rfl

namespace State

variable (s : State) {a : BusAddr} {g : Reg}

/-- Every register can be read, whatever the state (R63). -/
theorem busRead_reg (h : Target.ofAddr s.params a = .reg g) :
    s.busRead .word a = { s with busOut := some (s.readReg g) } := by
  rw [State.busRead, h]
  rfl

/-- A register that can be written follows its own write rule, whatever the state (R64). -/
theorem busWrite_reg (h : Target.ofAddr s.params a = .reg g) (hw : (Target.reg g).writable = true) (v : Word) :
    s.busWrite .word a v = s.writeReg g v := by
  rw [State.busWrite, h]
  simp [hw, State.badAddress, State.busyRefused, State.poke]

theorem busWrite_reg_readOnly (h : Target.ofAddr s.params a = .reg g) (hw : (Target.reg g).writable = false) (v : Word) :
    s.busWrite .word a v = s.raise .badaddr := by
  rw [State.busWrite, h]
  simp [hw]

theorem busOut_busRead_reg (h : Target.ofAddr s.params a = .reg g) : (s.busRead .word a).busOut = some (s.readReg g) := by
  rw [s.busRead_reg h]

theorem writeReg_gain (hr : s.ready = true) (v : Word) : s.writeReg .gain v = { s with gain := v } := if_pos hr

theorem writeReg_phaseBound (hr : s.ready = true) (v : Word) : s.writeReg .phaseBound v = { s with phaseBound := v } :=
  if_pos hr

/-- The five bits of `STATUS` and the zeros above (R37). -/
theorem getLsbD_statusWord (j : Nat) :
    s.statusWord.getLsbD j = [s.ready, s.busy, s.done, s.magValid, s.magActive].getD j false := by
  unfold State.statusWord
  rw [BitVec.getLsbD_append, BitVec.getLsbD_append, BitVec.getLsbD_append, BitVec.getLsbD_append, BitVec.getLsbD_append]
  rcases j with _ | _ | _ | _ | _ | j <;> simp

theorem errWord_eq : s.errWord = 0#25 ++ s.err := BitVec.setWidth_eq_append (w := 32) (v := 7) (x := s.err) (by decide)

/-- An idle ready block accepts a word that decodes (R84 case 4). -/
theorem offerCommand_accepts {w : Word} {i : Instr} (hr : s.ready = true) (hidle : s.seq = .idle) (hw : decode w = .ok i) :
    s.offerCommand w = s.accept w i := by
  simp [State.offerCommand, hr, s.busy_eq_false_iff.2 hidle, hw]

/-- A word that is not accepted sets one error bit (R84 cases 1 to 3). -/
theorem offerCommand_refuses {w : Word} (h : s.ready = false ∨ s.seq ≠ .idle ∨ ∃ e, decode w = .error e) :
    ∃ e, s.offerCommand w = s.raise e := by
  rcases s.offerCommand_cases w with ⟨-, ho⟩ | ⟨-, -, ho⟩ | ⟨-, -, -, ho⟩ | ⟨hr, hidle, i, hw, -⟩
  · exact ⟨_, ho⟩
  · exact ⟨_, ho⟩
  · exact ⟨_, ho⟩
  · simp [hr, s.busy_eq_false_iff.1 hidle, hw] at h

end State

/-- Where a block command has no engine step (R43, R69 item c). -/
theorem State.blockStep_eq_fault_iff (s : State) (i : Instr) (g : List Word) :
    s.blockStep i g = .fault .noEngineStep ↔
      s.seq = .idle ∨ (∃ c, s.seq = .run c .exec) ∨ ∃ c j, s.seq = .run c (.sample j) ∧ s.params.b ≤ j := by
  unfold State.blockStep
  rcases s.seq with _ | ⟨c, _ | j | _⟩
  · simp
  · simp
  · by_cases hj : j < s.params.b
    · simp [hj]
    · simp [hj, Nat.le_of_not_lt hj]
  · simp

end Sys2Proof.Machine

/-! ### The memory after a reset (R46) and what a transform stores (R21) -/

namespace Sys2Proof.Machine

namespace Memory

/-- Two loops of byte writes, one over all cells and one over those that pass a test of the address, agree where the test holds. -/
theorem read_foldl_write_filter {P : Nat → Bool} {a : Nat} (ha : P a = true) (cells : List Host.Cell) {m m' : Memory}
    (h : m.read a = m'.read a) :
    ((cells.filter fun c => P c.1).foldl (fun m c => m.write c.1 c.2) m).read a =
      (cells.foldl (fun m c => Memory.write m c.1 c.2) m').read a := by
  induction cells generalizing m m' with
  | nil => exact h
  | cons c cells ih =>
    rw [List.filter_cons]
    split_ifs with hc
    · exact ih (by simp [h])
    · have hne : a ≠ c.1 := fun hac => hc (hac ▸ ha)
      exact ih (by simp [h, hne])

theorem read_eq_unlisted_of_not_mem {m : Memory} {a : Nat} (h : ∀ c ∈ m, c.1 ≠ a) : m.read a = unlisted := by
  induction m with
  | nil => rfl
  | cons c m ih => rw [read_cons, if_neg (h c (.head _)), ih fun d hd => h d (.tail _ hd)]

theorem readWord_eq_zero {m : Memory} {a : Nat} (h : ∀ b, a ≤ b → b < a + 4 → m.read b = unlisted) : m.readWord a = 0 := by
  rw [readWord_congr (m' := []) h]
  simp only [Memory.readWord, read_nil]
  rfl

end Memory

/-- After a reset an unspecified array holds what the contents say (R46, U1). -/
theorem read_resetMemory_of_holds {p : Params} {contents : Memory} {A : Arr} {a : Nat} (hA : A ∈ Arr.unspecified)
    (ha : A.holds p a = true) : (resetMemory p contents).read a = (Memory.ofCells contents).read a :=
  Memory.read_foldl_write_filter (P := fun a => Arr.unspecified.any fun A => A.holds p a)
    (List.any_eq_true.2 ⟨A, hA, ha⟩) contents rfl

/-- After a reset every word of an array that R46 specifies, which are the rings, is `+0`. -/
theorem word_resetWith_eq_zero {p : Params} (hp : p.Valid) (rom : Rom) (contents : Memory) {A : Arr}
    (hA : A ∉ Arr.unspecified) {j : Nat} (hj : j < A.size p) : (State.resetWith p rom contents).word A j = 0 := by
  refine Memory.readWord_eq_zero fun b hb hb' => Memory.read_eq_unlisted_of_not_mem fun c hc hcb => ?_
  obtain ⟨B, hB, hcB⟩ := mem_resetMemory hc
  simp only [Arr.addr] at hb hb'
  have hbA : A.holds p c.1 = true := by
    rw [hcb]
    simp only [Arr.holds, decide_eq_true_eq]
    omega
  exact hA (Arr.holds_unique hp hbA hcB ▸ hB)

namespace State

variable {s s' : State}

theorem words_congr {A : Arr} {n : Nat} (h : ∀ j, j < n → s.word A j = s'.word A j) : s.words A n = s'.words A n := by
  refine List.ext_getElem (by simp) fun i hi _ => ?_
  rw [length_words] at hi
  simp only [State.words, Memory.getElem_readWords]
  exact h i hi

theorem word_setWords (s : State) (A : Arr) (ws : List Word) {j : Nat} (hj : j < ws.length) :
    (s.setWords A ws).word A j = ws[j] :=
  Memory.readWord_writeWords _ _ _ _ hj

/-- Two transforms that store the same words leave the same words in their destination, whatever was there. -/
theorem word_setWords_congr {dst : Arr} {ws ws' : List Word} (h : ws = ws') {j : Nat} (hj : j < ws.length) :
    (s.setWords dst ws).finish.word dst j = (s'.setWords dst ws').finish.word dst j := by
  subst h
  exact (s.word_setWords dst ws hj).trans (s'.word_setWords dst ws hj).symm

end State

end Sys2Proof.Machine

/-! ### Bit reversal and its pairs (R23) -/

namespace Sys2Proof

theorem bitReverse_lt (n p : Nat) : bitReverse n p < 2 ^ n := by
  induction n generalizing p with
  | zero => exact Nat.one_pos
  | succ n ih =>
    have h := ih (p / 2)
    have hbit : p % 2 ≤ 1 := by omega
    calc p % 2 * 2 ^ n + bitReverse n (p / 2) < 1 * 2 ^ n + 2 ^ n := Nat.add_lt_add_of_le_of_lt (Nat.mul_le_mul_right _ hbit) h
      _ = 2 ^ (n + 1) := by ring

/-- The recursion from the top bit: it becomes the lowest. -/
theorem bitReverse_succ_top {n p : Nat} (hi : Nat) (hhi : hi < 2) (hp : p < 2 ^ n) :
    bitReverse (n + 1) (hi * 2 ^ n + p) = 2 * bitReverse n p + hi := by
  induction n generalizing p with
  | zero =>
    obtain rfl : p = 0 := by simpa using hp
    interval_cases hi <;> rfl
  | succ n ih =>
    have htwo : hi * 2 ^ (n + 1) = 2 * (hi * 2 ^ n) := by ring
    have hlow : (hi * 2 ^ (n + 1) + p) % 2 = p % 2 := by omega
    have hhigh : (hi * 2 ^ (n + 1) + p) / 2 = hi * 2 ^ n + p / 2 := by omega
    rw [bitReverse, hlow, hhigh, ih (by rw [pow_succ] at hp; omega), bitReverse]
    ring

/-- Reversal undoes itself on `n`-bit numbers. -/
theorem bitReverse_bitReverse {n p : Nat} (hp : p < 2 ^ n) : bitReverse n (bitReverse n p) = p := by
  induction n generalizing p with
  | zero => exact (Nat.lt_one_iff.1 hp).symm
  | succ n ih =>
    rw [show bitReverse (n + 1) p = p % 2 * 2 ^ n + bitReverse n (p / 2) from rfl,
      bitReverse_succ_top _ (by omega) (bitReverse_lt n _), ih (by rw [pow_succ] at hp; omega)]
    omega

theorem mem_reversalPairs {n : Nat} {pq : Nat × Nat} :
    pq ∈ reversalPairs (2 ^ n) ↔ pq.1 < 2 ^ n ∧ pq.2 = bitReverse n pq.1 ∧ pq.1 < pq.2 := by
  simp only [reversalPairs, Nat.log2_two_pow, List.mem_filter, List.mem_map, List.mem_range, decide_eq_true_eq]
  constructor
  · rintro ⟨⟨p, hp, rfl⟩, hlt⟩
    exact ⟨hp, rfl, hlt⟩
  · rintro ⟨hp, hq, hlt⟩
    exact ⟨⟨pq.1, hp, Prod.ext rfl hq.symm⟩, hlt⟩

theorem pairwise_lt_reversalPairs (m : Nat) : (reversalPairs m).Pairwise (fun a b => a.1 < b.1) :=
  List.Pairwise.filter _ (List.pairwise_map.2 List.pairwise_lt_range)

/-- A pair and its reversal: the reversal of the larger number is the smaller. -/
theorem bitReverse_snd {n : Nat} {pq : Nat × Nat} (h : pq ∈ reversalPairs (2 ^ n)) : bitReverse n pq.2 = pq.1 := by
  obtain ⟨hp, hq, -⟩ := mem_reversalPairs.1 h
  rw [hq, bitReverse_bitReverse hp]

/-- Two pairs with a number in common are the same pair. -/
theorem disjoint_of_fst_ne {n : Nat} {a b : Nat × Nat} (ha : a ∈ reversalPairs (2 ^ n)) (hb : b ∈ reversalPairs (2 ^ n))
    (hne : a.1 ≠ b.1) : a.1 ≠ b.2 ∧ a.2 ≠ b.1 ∧ a.2 ≠ b.2 := by
  obtain ⟨-, ha2, halt⟩ := mem_reversalPairs.1 ha
  obtain ⟨-, hb2, hblt⟩ := mem_reversalPairs.1 hb
  have ha1 := bitReverse_snd ha
  have hb1 := bitReverse_snd hb
  refine ⟨fun h => ?_, fun h => ?_, fun h => hne (by rw [← ha1, ← hb1, h])⟩
  · rw [h, hb1] at ha2
    omega
  · rw [← h, ha1] at hb2
    omega

/-- The pair of a number that is not its own reversal. -/
theorem exists_mem_reversalPairs {n p : Nat} (hp : p < 2 ^ n) (hne : bitReverse n p ≠ p) :
    ∃ pq ∈ reversalPairs (2 ^ n), p = pq.1 ∨ p = pq.2 := by
  rcases Nat.lt_or_gt_of_ne hne with h | h
  · exact ⟨(bitReverse n p, p), mem_reversalPairs.2 ⟨bitReverse_lt n p, (bitReverse_bitReverse hp).symm, h⟩, .inr rfl⟩
  · exact ⟨(p, bitReverse n p), mem_reversalPairs.2 ⟨hp, rfl, h⟩, .inl rfl⟩

theorem eq_of_mem_reversalPairs {n p : Nat} {a b : Nat × Nat} (ha : a ∈ reversalPairs (2 ^ n)) (hb : b ∈ reversalPairs (2 ^ n))
    (hpa : p = a.1 ∨ p = a.2) (hpb : p = b.1 ∨ p = b.2) : a = b := by
  obtain ⟨-, ha2, -⟩ := mem_reversalPairs.1 ha
  obtain ⟨-, hb2, -⟩ := mem_reversalPairs.1 hb
  have h1 : a.1 = b.1 := by
    by_contra hne
    obtain ⟨h12, h21, h22⟩ := disjoint_of_fst_ne ha hb hne
    rcases hpa with rfl | rfl <;> rcases hpb with h | h
    · exact hne h
    · exact h12 h
    · exact h21 h
    · exact h22 h
  exact Prod.ext h1 (by rw [ha2, hb2, h1])

/-! The number of pairs, by a recursion that takes off the lowest and the highest bit. -/

/-- 1 for a number that stands first in a pair, else 0. -/
def startsPair (n p : Nat) : Nat := if p < bitReverse n p then 1 else 0

theorem length_reversalPairs (n : Nat) : (reversalPairs (2 ^ n)).length = ∑ p ∈ Finset.range (2 ^ n), startsPair n p := by
  simp only [startsPair]
  rw [reversalPairs, Nat.log2_two_pow, List.filter_map, List.length_map, ← Finset.card_filter]
  rfl

theorem sum_range_two_mul (f : Nat → Nat) (m : Nat) :
    ∑ p ∈ Finset.range (2 * m), f p = ∑ q ∈ Finset.range m, (f (2 * q) + f (2 * q + 1)) := by
  induction m with
  | zero => rfl
  | succ m ih => rw [Nat.mul_succ, Finset.sum_range_succ, Finset.sum_range_succ, ih, Finset.sum_range_succ, Nat.add_assoc]

/-- A sum over `n + 2` bits, by the inner `n` bits. -/
theorem sum_range_outer_bits (f : Nat → Nat) (n : Nat) :
    ∑ p ∈ Finset.range (2 ^ (n + 2)), f p = ∑ m ∈ Finset.range (2 ^ n),
      (f (2 * m) + f (2 * m + 1) + (f (2 * (2 ^ n + m)) + f (2 * (2 ^ n + m) + 1))) := by
  rw [show 2 ^ (n + 2) = 2 * (2 ^ n + 2 ^ n) by ring, sum_range_two_mul, Finset.sum_range_add, ← Finset.sum_add_distrib]

/-- Reversal exchanges the outer bits and reverses the inner ones. -/
theorem bitReverse_outer_bits {n m hi lo : Nat} (hm : m < 2 ^ n) (hhi : hi < 2) (hlo : lo < 2) :
    bitReverse (n + 2) (2 * (hi * 2 ^ n + m) + lo) = 2 * (lo * 2 ^ n + bitReverse n m) + hi := by
  have hbit : (2 * (hi * 2 ^ n + m) + lo) % 2 = lo := by omega
  have hrest : (2 * (hi * 2 ^ n + m) + lo) / 2 = hi * 2 ^ n + m := by omega
  rw [bitReverse, hbit, hrest, bitReverse_succ_top hi hhi hm]
  ring

/-- Of the four numbers with inner bits `m`, that with lowest bit 1 and highest bit 0 is below its reversal, that with 0 and 1 above, and
the two with equal outer bits stand as their inner bits do. -/
theorem sum_startsPair_outer_bits {n m : Nat} (hm : m < 2 ^ n) :
    startsPair (n + 2) (2 * m) + startsPair (n + 2) (2 * m + 1) +
      (startsPair (n + 2) (2 * (2 ^ n + m)) + startsPair (n + 2) (2 * (2 ^ n + m) + 1)) = 1 + 2 * startsPair n m := by
  have h00 := bitReverse_outer_bits (hi := 0) (lo := 0) hm (by decide) (by decide)
  have h01 := bitReverse_outer_bits (hi := 0) (lo := 1) hm (by decide) (by decide)
  have h10 := bitReverse_outer_bits (hi := 1) (lo := 0) hm (by decide) (by decide)
  have h11 := bitReverse_outer_bits (hi := 1) (lo := 1) hm (by decide) (by decide)
  have hlt := bitReverse_lt n m
  simp only [Nat.zero_mul, Nat.one_mul, Nat.zero_add, Nat.add_zero] at h00 h01 h10 h11
  simp only [startsPair, h00, h01, h10, h11]
  split_ifs <;> omega

theorem length_reversalPairs_add_two (n : Nat) :
    (reversalPairs (2 ^ (n + 2))).length = 2 ^ n + 2 * (reversalPairs (2 ^ n)).length := by
  rw [length_reversalPairs, length_reversalPairs, sum_range_outer_bits,
    Finset.sum_congr rfl fun m hm => sum_startsPair_outer_bits (Finset.mem_range.1 hm)]
  simp [Finset.sum_add_distrib, Finset.mul_sum]

/-- The count of pairs (R23), as an equation without the division. -/
theorem two_mul_length_reversalPairs (n : Nat) : 2 * (reversalPairs (2 ^ n)).length + 2 ^ ((n + 1) / 2) = 2 ^ n := by
  induction n using Nat.twoStepInduction with
  | zero => decide
  | one => decide
  | more n ih _ =>
    rw [length_reversalPairs_add_two, show (n + 2 + 1) / 2 = (n + 1) / 2 + 1 by omega, pow_succ, pow_add]
    omega

end Sys2Proof

/-! ### A real number has one rounding (R15), and the tables of the formulas (R22 to R27) -/

namespace Sys2Proof.F32

theorem pack_sign_mag (w : Word) : pack (sign w) (mag w) = w := by
  apply BitVec.eq_of_toNat_eq
  have := w.isLt
  simp only [pack, sign, mag, BitVec.toNat_ofNat, decide_eq_true_eq]
  split_ifs <;> omega

theorem eq_of_sign_mag {v w : Word} (hs : sign v = sign w) (hm : mag v = mag w) : v = w := by
  rw [← pack_sign_mag v, ← pack_sign_mag w, hs, hm]

theorem value_ne_of_mag_lt {v w : Word} (hlt : mag v < mag w) : value w ≠ value v := by
  intro heq
  have habs : |(value w : ℝ)| = |(value v : ℝ)| := by rw [heq]
  rw [abs_value, abs_value, div_left_inj' (by positivity), Nat.cast_inj] at habs
  exact (magUnits_strictMono hlt).ne' habs

/-- A point strictly between two equally distant ones is nearer. -/
theorem abs_sub_lt_of_between {x y z r : ℝ} (hxy : x < y) (hyz : y < z) (h : |x - r| = |z - r|) : |y - r| < |x - r| := by
  rcases abs_eq_abs.1 h with h | h
  · linarith
  · rw [abs_of_neg (show x - r < 0 by linarith), abs_lt]
    constructor <;> linarith

theorem signed_involutive (s : Bool) (x : ℝ) : signed s (signed s x) = x := by cases s <;> simp [signed]

theorem abs_signed_sub_left (s : Bool) (x r : ℝ) : |signed s x - r| = |x - signed s r| := by
  rw [← abs_signed_sub s, signed_involutive]

/-- Of two nearest words with one sign none is larger: both would be even at a midpoint, with an odd word between them. -/
theorem IsNearest.not_mag_lt {r : ℝ} {v w : Word} (hv : IsNearest r v) (hw : IsNearest r w) (hs : sign v = sign w) :
    ¬ mag v < mag w := by
  intro hlt
  have hne := value_ne_of_mag_lt hlt
  have hdist : |(value v : ℝ) - r| = |(value w : ℝ) - r| := (hv.nearest w hw.finite).antisymm (hw.nearest v hv.finite)
  have hveven := hv.even w hw.finite hne hdist.symm
  have hweven := hw.even v hv.finite hne.symm hdist
  have hwfin := (isFinite_iff w).1 hw.finite
  have hbound : mag v + 1 < infMag := by omega
  have hbound' : mag v + 1 < 2 ^ 31 := hbound.trans (by decide)
  have hlow : (magUnits (mag v) : ℝ) / 2 ^ 149 < magUnits (mag v + 1) / 2 ^ 149 :=
    div_lt_div_of_pos_right (Nat.cast_lt.2 (magUnits_strictMono (by omega))) (by positivity)
  have hhigh : (magUnits (mag v + 1) : ℝ) / 2 ^ 149 < magUnits (mag w) / 2 ^ 149 :=
    div_lt_div_of_pos_right (Nat.cast_lt.2 (magUnits_strictMono (by omega))) (by positivity)
  have hmid := hv.nearest (pack (sign v) (mag v + 1)) (by rwa [isFinite_iff, mag_pack hbound'])
  rw [value_pack _ hbound', value_eq_signed, abs_signed_sub_left, abs_signed_sub_left] at hmid
  rw [value_eq_signed, value_eq_signed, ← hs, abs_signed_sub_left, abs_signed_sub_left] at hdist
  exact (abs_sub_lt_of_between hlow hhigh hdist).not_ge hmid

/-- A real number has one rounding (R15). -/
theorem IsRounding.unique {r : ℝ} {v w : Word} (hv : IsRounding r v) (hw : IsRounding r w) : v = w := by
  have hs : sign v = sign w := Bool.eq_iff_iff.2 (hv.signBit.trans hw.signBit.symm)
  refine eq_of_sign_mag hs (Nat.le_antisymm ?_ ?_)
  · exact Nat.le_of_not_lt (hw.toIsNearest.not_mag_lt hv.toIsNearest hs.symm)
  · exact Nat.le_of_not_lt (hv.toIsNearest.not_mag_lt hw.toIsNearest hs)

theorem magUnits_one : magUnits 0x3F800000 = 2 ^ 149 := by decide +kernel

/-- A number of magnitude at most 1 rounds to a word of magnitude at most 1 (R27 P3). -/
theorem IsNearest.mag_le_one {r : ℝ} {w : Word} (h : IsNearest r w) (hr : |r| ≤ 1) : mag w ≤ 0x3F800000 := by
  by_contra hgt
  have hunits : (1 : ℝ) < magUnits (mag w) / 2 ^ 149 := by
    have := magUnits_strictMono (Nat.lt_of_not_le hgt)
    rw [magUnits_one] at this
    rw [one_lt_div (by positivity)]
    exact_mod_cast this
  have hone := h.nearest (pack (sign w) 0x3F800000) (by rw [isFinite_iff, mag_pack (by decide)]; decide)
  rw [value_pack _ (by decide), value_eq_signed, abs_signed_sub_left, abs_signed_sub_left, magUnits_one] at hone
  obtain ⟨h1, h2⟩ := abs_le.1 ((abs_signed (sign w) r).trans_le hr)
  rw [abs_of_nonneg (by norm_num; linarith), abs_of_nonneg (by linarith)] at hone
  norm_num at hone
  linarith

/-- A finite positive pattern is the rounding of its own value. -/
theorem isRounding_of_units {r : ℝ} {w : Word} {m : Nat} (hw : w = pack false m) (hm : m < infMag)
    (hr : (magUnits m : ℝ) / 2 ^ 149 = r) : IsRounding r w := by
  have hlt : m < 2 ^ 31 := hm.trans (by decide)
  subst hw hr
  refine isRounding_of_value_eq (by rwa [isFinite_iff, mag_pack hlt]) (value_pack false hlt) ?_
  rw [sign_pack hlt]
  exact iff_of_false (by simp) (not_lt.2 (by positivity))

theorem isRounding_zero : IsRounding 0 0x00000000#32 := isRounding_of_units (m := 0) rfl (by decide) (by simp [magUnits])

theorem isRounding_half : IsRounding (1 / 2) 0x3F000000#32 :=
  isRounding_of_units (m := 0x3F000000) rfl (by decide)
    (by rw [show magUnits 0x3F000000 = 2 ^ 148 by decide +kernel]; norm_num)

theorem isRounding_one : IsRounding 1 0x3F800000#32 :=
  isRounding_of_units (m := 0x3F800000) rfl (by decide) (by rw [magUnits_one]; norm_num)

end Sys2Proof.F32

namespace Sys2Proof

theorem tableWord_of_mem {l : List Word} {w : Word} (h : w ∈ l) : ∃ k < l.length, w = tableWord l k := by
  obtain ⟨k, hk, rfl⟩ := List.mem_iff_getElem.1 h
  exact ⟨k, hk, (List.getD_eq_getElem _ _ hk).symm⟩

/-- A word of a table of `m` pairs is the first or the second of one. -/
theorem tableWord_pair_of_mem {l : List Word} {m : Nat} (hl : l.length = 2 * m) {w : Word} (h : w ∈ l) :
    ∃ a < m, w = tableWord l (2 * a) ∨ w = tableWord l (2 * a + 1) := by
  obtain ⟨k, hk, rfl⟩ := tableWord_of_mem h
  refine ⟨k / 2, by omega, ?_⟩
  rcases Nat.mod_two_eq_zero_or_one k with hpar | hpar
  · exact .inl (by rw [show 2 * (k / 2) = k by omega])
  · exact .inr (by rw [show 2 * (k / 2) + 1 = k by omega])

namespace Rom.Formula

open F32 Real

section
variable {n : Nat} {rom : Rom} (h : rom.Formula n)
include h

/-- Every pair of `TW` is a rounded cosine and sine of an angle in the upper half plane, the filler among them (R22). -/
theorem twPair {a : Nat} (ha : a < n) : ∃ θ, 0 ≤ θ ∧ θ ≤ π ∧
    IsRounding (cos θ) (tableWord rom.tw (2 * a)) ∧ IsRounding (sin θ) (tableWord rom.tw (2 * a + 1)) := by
  rcases Nat.eq_zero_or_pos a with rfl | hpos
  · obtain ⟨hcos, hsin⟩ := h.twFiller
    refine ⟨0, le_rfl, pi_pos.le, ?_, ?_⟩
    · rw [cos_zero, hcos]; exact isRounding_one
    · rw [sin_zero, hsin]; exact isRounding_zero
  · have hle : 2 ^ a.log2 ≤ a := Nat.log2_self_le hpos.ne'
    have hlt : a < 2 ^ (a.log2 + 1) := Nat.lt_log2_self
    obtain ⟨i, hi⟩ := Nat.exists_eq_add_of_le hle
    have hi' : i < 2 ^ a.log2 := by rw [pow_succ] at hlt; omega
    have hentry := h.twEntry a.log2 i hi' (hi ▸ ha)
    rw [← hi] at hentry
    have hratio : (i : ℝ) / 2 ^ a.log2 ≤ 1 := (div_le_one (by positivity)).2 (by exact_mod_cast hi'.le)
    refine ⟨π * i / 2 ^ a.log2, by positivity, ?_, hentry⟩
    rw [mul_div_assoc]
    exact mul_le_of_le_one_right pi_pos.le hratio

theorem twZero {t : Nat} (ht : 2 ^ t < n) :
    tableWord rom.tw (2 * 2 ^ t) = 0x3F800000#32 ∧ tableWord rom.tw (2 * 2 ^ t + 1) = 0x00000000#32 := by
  obtain ⟨hcos, hsin⟩ := h.twEntry t 0 (by positivity) ht
  simp only [Nat.cast_zero, mul_zero, zero_div, cos_zero, sin_zero, Nat.add_zero] at hcos hsin
  exact ⟨hcos.unique isRounding_one, hsin.unique isRounding_zero⟩

theorem twQuarter {t : Nat} (ht : 2 ^ (t + 1) + 2 ^ t < n) :
    tableWord rom.tw (2 * (2 ^ (t + 1) + 2 ^ t)) = 0x00000000#32 ∧
    tableWord rom.tw (2 * (2 ^ (t + 1) + 2 ^ t) + 1) = 0x3F800000#32 := by
  obtain ⟨hcos, hsin⟩ := h.twEntry (t + 1) (2 ^ t) (Nat.pow_lt_pow_succ (by decide)) ht
  have hangle : π * (2 ^ t : ℕ) / 2 ^ (t + 1) = π / 2 := by
    rw [pow_succ]
    push_cast
    field_simp
  rw [hangle, cos_pi_div_two] at hcos
  rw [hangle, sin_pi_div_two] at hsin
  exact ⟨hcos.unique isRounding_zero, hsin.unique isRounding_one⟩

theorem twSineSign {a : Nat} (ha : a < n) : F32.sign (tableWord rom.tw (2 * a + 1)) = false := by
  obtain ⟨θ, h0, hpi, -, hsin⟩ := h.twPair ha
  rw [← Bool.not_eq_true, hsin.signBit, not_lt]
  exact sin_nonneg_of_nonneg_of_le_pi h0 hpi

theorem rtwZero : tableWord rom.rtw 0 = 0x3F800000#32 ∧ tableWord rom.rtw 1 = 0x00000000#32 := by
  obtain ⟨hcos, hsin⟩ := h.rtwEntry 0 (Nat.zero_le _)
  simp only [Nat.cast_zero, mul_zero, zero_div, cos_zero, sin_zero] at hcos hsin
  exact ⟨hcos.unique isRounding_one, hsin.unique isRounding_zero⟩

/-- The Hann window is symmetric (R26). -/
theorem winSymmetric {k : Nat} (hk : 1 ≤ k) (hkn : k < n) : tableWord rom.win k = tableWord rom.win (n - k) := by
  have hangle : 2 * π * (n - k : ℕ) / n = 2 * π - 2 * π * k / n := by
    have hn : (n : ℝ) ≠ 0 := by exact_mod_cast (show n ≠ 0 by omega)
    rw [Nat.cast_sub hkn.le]
    field_simp
  have hmirror := h.winEntry (n - k) (by omega)
  rw [hangle, cos_two_pi_sub] at hmirror
  exact (h.winEntry k hkn).unique hmirror

end

/-- Every word of `TW` and `RTW` is a rounded number of magnitude at most 1. -/
theorem exists_isRounding_of_mem {q : Nat} {rom : Rom} (h : rom.Formula (4 * q)) {w : Word} (hw : w ∈ rom.tw ∨ w ∈ rom.rtw) :
    ∃ r : ℝ, |r| ≤ 1 ∧ IsRounding r w := by
  rcases hw with hw | hw
  · obtain ⟨a, ha, hw⟩ := tableWord_pair_of_mem h.twLength hw
    obtain ⟨θ, -, -, hcos, hsin⟩ := h.twPair ha
    rcases hw with rfl | rfl
    · exact ⟨_, abs_cos_le_one θ, hcos⟩
    · exact ⟨_, abs_sin_le_one θ, hsin⟩
  · obtain ⟨a, ha, hw⟩ := tableWord_pair_of_mem (m := q + 1) (h.rtwLength.trans (by omega)) hw
    obtain ⟨hcos, hsin⟩ := h.rtwEntry a (by omega)
    rcases hw with rfl | rfl
    · exact ⟨_, abs_cos_le_one _, hcos⟩
    · exact ⟨_, abs_sin_le_one _, hsin⟩

/-- The quarter turns among the angles of `RTW` and `WIN`. -/
theorem quarter_angle {q : Nat} (hq : 0 < q) (k : Nat) : 2 * π * (k * q : ℕ) / (4 * q : ℕ) = k * (π / 2) := by
  have hne : (q : ℝ) ≠ 0 := by exact_mod_cast hq.ne'
  push_cast
  field_simp
  ring

section
variable {q : Nat} {rom : Rom} (h : rom.Formula (4 * q)) (hq : 0 < q)
include h hq

theorem rtw_quarter : tableWord rom.rtw (2 * q) = 0x00000000#32 ∧ tableWord rom.rtw (2 * q + 1) = 0x3F800000#32 := by
  obtain ⟨hcos, hsin⟩ := h.rtwEntry q (by omega)
  have hangle := quarter_angle hq 1
  rw [Nat.one_mul, Nat.cast_one, one_mul] at hangle
  rw [hangle, cos_pi_div_two] at hcos
  rw [hangle, sin_pi_div_two] at hsin
  exact ⟨hcos.unique isRounding_zero, hsin.unique isRounding_one⟩

/-- The window after `k` quarter turns (R26). -/
theorem win_quarter {k : Nat} (hk : k < 4) {w : Word} (hw : IsRounding (1 / 2 - 1 / 2 * cos (k * (π / 2))) w) :
    tableWord rom.win (k * q) = w := by
  have hentry := h.winEntry (k * q) (Nat.mul_lt_mul_of_pos_right hk hq)
  rw [quarter_angle hq] at hentry
  exact hentry.unique hw

theorem win_zero : tableWord rom.win 0 = 0x00000000#32 := by
  simpa using h.win_quarter hq (k := 0) (by decide) (by simpa using isRounding_zero)

theorem win_one_quarter : tableWord rom.win q = 0x3F000000#32 := by
  simpa using h.win_quarter hq (k := 1) (by decide) (by simpa using isRounding_half)

theorem win_half : tableWord rom.win (2 * q) = 0x3F800000#32 := by
  refine h.win_quarter hq (k := 2) (by decide) ?_
  rw [show ((2 : ℕ) : ℝ) * (π / 2) = π by push_cast; ring, cos_pi,
    show (1 / 2 - 1 / 2 * -1 : ℝ) = 1 by norm_num]
  exact isRounding_one

theorem win_three_quarters : tableWord rom.win (3 * q) = 0x3F000000#32 := by
  refine h.win_quarter hq (k := 3) (by decide) ?_
  rw [show ((3 : ℕ) : ℝ) * (π / 2) = π / 2 + π by push_cast; ring, cos_add_pi, cos_pi_div_two]
  simpa using isRounding_half

end

/-- R27: the named properties of the tables of a power of two from 4 on. -/
theorem named {t : Nat} {rom : Rom} (ht : 2 ≤ t) (h : rom.Formula (2 ^ t)) : rom.Named (2 ^ t) := by
  obtain ⟨k, rfl⟩ := Nat.exists_eq_add_of_le ht
  have hsize : 2 ^ (2 + k) = 4 * 2 ^ k := pow_add 2 2 k
  have hq : 0 < 2 ^ k := by positivity
  have hquarter (t : Nat) (hlt : 2 ^ (t + 1) < 2 ^ (2 + k)) : 2 ^ (t + 1) + 2 ^ t < 2 ^ (2 + k) := by
    have hle : 2 ^ (t + 1 + 1) ≤ 2 ^ (2 + k) :=
      Nat.pow_le_pow_right (by decide) ((Nat.pow_lt_pow_iff_right (by decide)).1 hlt)
    have hpos : 0 < 2 ^ t := by positivity
    rw [pow_succ, pow_succ] at hle
    rw [pow_succ]
    omega
  rw [hsize] at h hquarter ⊢
  have hquarters : 4 * 2 ^ k / 4 = 2 ^ k := by omega
  have hhalf : 4 * 2 ^ k / 2 = 2 * 2 ^ k := by omega
  refine {
    finiteWords := fun w hw => ?_
    twZero := fun _ => h.twZero
    twQuarter := fun t hlt => h.twQuarter (hquarter t hlt)
    twSineSign := fun _ => h.twSineSign
    unitMagnitude := fun w hw => ?_
    rtwZero := h.rtwZero
    rtwQuarter := hquarters.symm ▸ h.rtw_quarter hq
    winZero := h.win_zero hq
    winHalf := hhalf.symm ▸ h.win_half hq
    winQuarters := hquarters.symm ▸ ⟨h.win_one_quarter hq, h.win_three_quarters hq⟩
    winSymmetric := fun _ => h.winSymmetric }
  · rw [← or_assoc] at hw
    rcases hw with hw | hw
    · obtain ⟨r, -, hr⟩ := h.exists_isRounding_of_mem hw
      exact hr.finite
    · obtain ⟨k, hk, rfl⟩ := tableWord_of_mem hw
      exact (h.winEntry k (hk.trans_eq h.winLength)).finite
  · obtain ⟨r, habs, hr⟩ := h.exists_isRounding_of_mem hw
    exact hr.mag_le_one habs

end Rom.Formula

end Sys2Proof

/-! ### The settled statements -/

namespace Sys2Proof

open Machine

/-- Settles O58: every bus transaction, engine step and reset keeps the invariant. -/
theorem everyStepKeepsTheInvariant : Obligations.EveryStepKeepsTheInvariant :=
  fun _ _ h hstep => h.stepEffect (step_effect hstep)

/-- Settles O57. -/
theorem invariantHoldsAfterReset : Obligations.InvariantHoldsAfterReset :=
  State.inv_resetWith

/-- Settles O60: an engine step leaves the three alone, and of the bus's write rules only `PUBLISH` touches one. -/
theorem constantsNeverChange : Obligations.ConstantsNeverChange := by
  intro s t hstep
  cases step_effect hstep with
  | transact tr rest ha ht =>
    obtain ⟨hparams, hrom, hvalid⟩ := ht.constants
    exact ⟨hparams, hrom, fun h => .inl (hvalid h)⟩
  | reset c rest ha => exact ⟨rfl, rfl, fun _ => .inr ⟨c, rest, ha⟩⟩
  | engine rest hr ht =>
    obtain ⟨hparams, hrom, hvalid⟩ := ht.constants
    exact ⟨hparams, hrom, fun h => .inl (hvalid.trans h)⟩
  | pass rest => exact ⟨rfl, rfl, .inl⟩

/-- Settles O50: only a write to `ERR` and a reset clear a bit. -/
theorem errorBitsAreSticky : Obligations.ErrorBitsAreSticky := by
  intro s t e hstep he
  cases step_effect hstep with
  | transact tr rest ha ht =>
    rcases ht.errorBit he with h | ⟨hcfg, v, hv, rfl⟩
    · exact .inl h
    · exact .inr (.inr ⟨hcfg, v, rest, hv, ha⟩)
  | reset c rest ha => exact .inr (.inl ⟨c, rest, ha⟩)
  | engine rest hr ht => exact .inl (ht.errorBit he)
  | pass rest => exact .inl he

/-- Settles O43: the one store of a bus write goes to another array than the active bank, and no operation of the engine stores in a
bank. -/
theorem activeBankIsNeverWritten : Obligations.ActiveBankIsNeverWritten := by
  intro s t hs hstep hreset
  cases step_effect hstep with
  | transact tr rest ha ht =>
    refine ⟨fun j hj => ht.word_activeBank hj, fun hturn => ?_⟩
    rcases ha with ha | ha <;> simp [ha] at hturn
  | reset c rest ha => exact absurd ha (hreset c rest)
  | engine rest hr ht =>
    have hbank (b : Bool) {j : Nat} (hj : j < s.params.n) := ht.word_bank (hs.withAgenda rest).tick hr b hj
    exact ⟨fun j hj => hbank _ hj, fun _ j hj => ⟨hbank false hj, hbank true hj⟩⟩
  | pass rest => exact ⟨fun _ _ => rfl, fun _ _ _ => ⟨rfl, rfl⟩⟩

/-- Settles O10: both block commands make the one engine step of a block command. -/
theorem blockCommandsStopOutsideTheirPhases : Obligations.BlockCommandsStopOutsideTheirPhases := by
  rintro s i (rfl | rfl)
  · exact s.blockStep_eq_fault_iff _ _
  · exact s.blockStep_eq_fault_iff _ _

/-- Settles O49, bit by bit. -/
theorem errorRegisterIsWriteOneToClear : Obligations.ErrorRegisterIsWriteOneToClear := by
  intro s v
  have haddr : Target.ofAddr s.params 0x00001C#24 = .reg .err := ofAddr_reg s.params (i := 7) rfl
  refine ⟨?_, (s.clearErrors v).err, ?_, ?_, fun j hj hj' => ?_⟩
  · rw [s.busOut_busRead_reg haddr]
    exact congrArg some s.errWord_eq
  · exact s.busWrite_reg haddr rfl v
  · rw [s.getLsbD_clearErrors v (by decide), decide_eq_false (by decide), Bool.and_false, Bool.not_false, Bool.and_true]
  · rw [s.getLsbD_clearErrors v (by omega), decide_eq_true (by omega), Bool.and_true]

/-- Settles O51. -/
theorem statusRegisterShowsItsFiveBits : Obligations.StatusRegisterShowsItsFiveBits := by
  intro s v
  have haddr : Target.ofAddr s.params 0x000018#24 = .reg .status := ofAddr_reg s.params (i := 6) rfl
  have hbits := s.getLsbD_statusWord
  refine ⟨⟨s.statusWord, s.busOut_busRead_reg haddr, ?_, ?_, hbits 2, hbits 3, hbits 4, fun j hj => ?_⟩,
    s.busWrite_reg_readOnly haddr rfl v⟩
  · rw [hbits 0]
    exact s.ready_iff
  · rw [hbits 1]
    simp [State.busy]
  · rw [hbits j, List.getD_eq_default _ _ hj]

/-- Settles O53: both registers are written while `READY = 1` without a look at `SEQ`. -/
theorem gainAndPhaseBoundTakeAnyPattern : Obligations.GainAndPhaseBoundTakeAnyPattern := by
  intro s v hr
  have hgain (p : Params) : Target.ofAddr p 0x000024#24 = .reg .gain := ofAddr_reg p (i := 9) rfl
  have hbound (p : Params) : Target.ofAddr p 0x000028#24 = .reg .phaseBound := ofAddr_reg p (i := 10) rfl
  have hwgain := (s.busWrite_reg (hgain _) rfl v).trans (s.writeReg_gain hr v)
  have hwbound := (s.busWrite_reg (hbound _) rfl v).trans (s.writeReg_phaseBound hr v)
  refine ⟨hwgain, hwbound, ?_, ?_⟩
  · rw [hwgain]
    exact State.busOut_busRead_reg _ (hgain _)
  · rw [hwbound]
    exact State.busOut_busRead_reg _ (hbound _)

/-- Settles O52: the registers by their index, and a write to `CMD` by what is offered to the engine. -/
theorem identityAndParameterRegistersRead : Obligations.IdentityAndParameterRegistersRead := by
  intro s v
  have hread {i : Nat} {g : Reg} (h : Reg.ofIndex i = some g) := s.busOut_busRead_reg (ofAddr_reg s.params h)
  have hcmd : s.busWrite .word 0x000020#24 v = s.offerCommand v := s.busWrite_reg (ofAddr_reg s.params (i := 8) rfl) rfl v
  refine ⟨hread (i := 0) rfl, hread (i := 1) rfl, hread (i := 2) rfl, hread (i := 3) rfl, hread (i := 4) rfl,
    hread (i := 5) rfl, hread (i := 8) rfl, fun i hi => ?_, fun t hstep => (constantsNeverChange s t hstep).1, ?_, fun h => ?_,
    fun _ _ _ => rfl⟩
  · interval_cases i <;> exact s.busWrite_reg_readOnly (ofAddr_reg s.params rfl) rfl v
  · rintro hr hidle ⟨i, hw⟩
    rw [hcmd, s.offerCommand_accepts hr hidle hw]
    exact ⟨s.accept_busy v i, rfl⟩
  · obtain ⟨e, he⟩ := s.offerCommand_refuses h
    rw [hcmd, he]
    exact ⟨rfl, rfl⟩

/-- Settles O54: the registers by the definition of the reset state, the arrays by what its memory lists. -/
theorem resetGivesTheStateOfTheTable : Obligations.ResetGivesTheStateOfTheTable := by
  refine ⟨fun p rom contents => ?_, fun s contents rest ha => step_of_agenda ha⟩
  refine ⟨rfl, rfl, rfl, rfl, rfl, rfl, rfl, rfl, rfl, rfl, rfl, rfl, rfl, rfl, rfl, fun hp => ⟨fun j hj => ?_, fun j hj => ?_,
    fun A hA a ha ha' => ?_⟩⟩
  · exact word_resetWith_eq_zero hp rom contents (A := .inring) (by decide) hj
  · exact word_resetWith_eq_zero hp rom contents (A := .outring) (by decide) hj
  · exact read_resetMemory_of_holds hA (decide_eq_true ⟨ha, ha'⟩)

/-- Settles O25: each transform stores a function of the source words, and the states agree on all that function takes. -/
theorem transformResultDependsOnlyOnSourceAndRoms : Obligations.TransformResultDependsOnlyOnSourceAndRoms := by
  intro s s' dst src mk n hr hmk hparams hrom hdraws hsrc
  have hwords := State.words_congr hsrc
  have hvalid := s.valid_of_ready hr
  have heven := size_even_of_valid hvalid
  obtain ⟨⟨-, hmin, -⟩, -⟩ := hvalid
  have hnum : s.num = s'.num := by rw [State.num, State.num, hparams]
  have hsite : s.site = s'.site := by rw [State.site, State.site, hdraws]
  rcases hmk with ⟨rfl | rfl, rfl⟩ | ⟨rfl | rfl, rfl⟩
  all_goals
    refine ⟨_, _, rfl, rfl, fun j hj => State.word_setWords_congr (by rw [hwords, hnum, hsite, hrom, hparams]) ?_⟩
  · simpa using hj
  · simpa using hj
  · rwa [length_realForward _ _ _ _ _ _ heven (by omega)]
  · rwa [length_realInverse _ _ _ _ _ _ heven (by omega)]

/-- Settles O17: reversal is its own inverse, so a number lies in one pair at most. -/
theorem reversalPairsAreDisjointAndComplete : Obligations.ReversalPairsAreDisjointAndComplete := by
  intro n
  refine ⟨pairwise_lt_reversalPairs _, fun pq hpq => ?_, ?_, fun p hp hne => ?_⟩
  · obtain ⟨-, hq, hlt⟩ := mem_reversalPairs.1 hpq
    exact ⟨hq, hlt, hq ▸ bitReverse_lt n pq.1⟩
  · refine (pairwise_lt_reversalPairs _).imp_of_mem fun ha hb hlt => ⟨hlt.ne, disjoint_of_fst_ne ha hb hlt.ne⟩
  · obtain ⟨pq, hmem, hpq⟩ := exists_mem_reversalPairs hp hne
    exact ⟨pq, ⟨hmem, hpq⟩, fun pq' ⟨hmem', hpq'⟩ => eq_of_mem_reversalPairs hmem' hmem hpq' hpq⟩

/-- Settles O18: the count obeys the recursion of the closed formula. -/
theorem pairCountIsTheNumberOfPairs : Obligations.PairCountIsTheNumberOfPairs := by
  intro n
  have hcount := two_mul_length_reversalPairs n
  have hformula : (reversalPairs (2 ^ n)).length = (2 ^ n - 2 ^ ((n + 1) / 2)) / 2 := by omega
  refine ⟨hformula, ?_⟩
  rw [hformula, pairCount, Nat.log2_two_pow]

/-- Settles O16: a real number has one rounding, and the named words round 0, 1/2 and 1. -/
theorem formulaTablesHaveTheNamedProperties : Obligations.FormulaTablesHaveTheNamedProperties :=
  fun _ _ ht _ h => h.named ht

end Sys2Proof

/-! PROOFS. Family 20_memory: the decoder of addresses against the tables of R62 by number, what a mapped word reads as and what a write
of it does (R62 to R64), and the checks of R63 to R67 on the bits of an address. -/

/-! ### The mapped words by region number and index (R62, R35 to R42) -/

namespace Sys2Proof.Machine

/-- From region 15 on nothing is mapped (R62). -/
theorem regionSize_of_ge (p : Params) {r : Nat} (h : 15 ≤ r) : Spec.regionSize p r = 0 := by
  rcases Nat.eq_or_lt_of_le h with rfl | h
  · rfl
  · exact List.getD_eq_default _ _ h

theorem region_lt_of_mapped {p : Params} {r i : Nat} (h : i < Spec.regionSize p r) : r < 15 := by
  by_contra hge
  exact Nat.not_lt_zero i (regionSize_of_ge p (Nat.le_of_not_lt hge) ▸ h)

theorem Region.ofNumber_of_ge {r : Nat} (h : 15 ≤ r) : Region.ofNumber r = .reserved := by
  obtain ⟨k, rfl⟩ := Nat.exists_eq_add_of_le' h
  rfl

theorem Region.size_ofNumber (p : Params) (r : Nat) : (Region.ofNumber r).size p = Spec.regionSize p r := by
  rcases Nat.lt_or_ge r 15 with h | h
  · interval_cases r <;> rfl
  · rw [Region.ofNumber_of_ge h, regionSize_of_ge p h]
    rfl

theorem Reg.exists_ofIndex {i : Nat} (h : i < 16) : ∃ g, Reg.ofIndex i = some g := by
  interval_cases i <;> exact ⟨_, rfl⟩

theorem Reg.ofIndex_of_ge {i : Nat} (h : 16 ≤ i) : Reg.ofIndex i = none := by
  obtain ⟨k, rfl⟩ := Nat.exists_eq_add_of_le' h
  rfl

theorem Reg.lt_of_ofIndex {i : Nat} {g : Reg} (h : Reg.ofIndex i = some g) : i < 16 := by
  by_contra hge
  simp [Reg.ofIndex_of_ge (Nat.le_of_not_lt hge)] at h

/-! The fields of an address as the statements write them (R62): `addr_region`, `addr_index` and `addr_low` tie them to the decoder. -/

abbrev addrRegion (a : BusAddr) : Nat := (a.extractLsb' 20 4).toNat
abbrev addrIndex (a : BusAddr) : Nat := (a.extractLsb' 2 18).toNat
abbrev addrLow (a : BusAddr) : Nat := (a.extractLsb' 0 2).toNat

/-- The target that the map of R62 has at word `i` of region `r`. -/
inductive Target.At (p : Params) (r i : Nat) : Target → Prop
  | reg (g : Reg) (hr : r = 0) (hg : Reg.ofIndex i = some g) : At p r i (.reg g)
  | word (hr : r ≠ 0) (hi : i < Spec.regionSize p r) : At p r i (.word (Region.ofNumber r) i)

/-- An aligned address in the map points at the word of its region and index. -/
theorem ofAddr_at {p : Params} {a : BusAddr} (hlow : addrLow a = 0)
    (hi : addrIndex a < Spec.regionSize p (addrRegion a)) :
    Target.At p (addrRegion a) (addrIndex a) (Target.ofAddr p a) := by
  unfold addrLow addrIndex addrRegion at *
  rw [ofAddr_fields, if_neg (not_not.2 hlow)]
  split
  · rename_i hregs
    have hr := Region.ofNumber_eq_regs hregs
    rw [hr] at hi
    obtain ⟨g, hg⟩ := Reg.exists_ofIndex hi
    rw [hg]
    exact .reg g hr hg
  · rename_i hne
    rw [if_pos (by rwa [Region.size_ofNumber])]
    exact .word (fun hr => hne (by rw [hr]; rfl)) hi

theorem ofAddr_unmapped {p : Params} {a : BusAddr} (h : addrLow a ≠ 0 ∨
    ¬ addrIndex a < Spec.regionSize p (addrRegion a)) : Target.ofAddr p a = .unmapped := by
  unfold addrLow addrIndex addrRegion at h
  rw [ofAddr_fields]
  split_ifs with hlow
  · rfl
  · have hi := h.resolve_left hlow
    split
    · rename_i hregs
      rw [Region.ofNumber_eq_regs hregs] at hi
      rw [Reg.ofIndex_of_ge (Nat.le_of_not_lt hi)]
    · rw [if_neg (by rwa [Region.size_ofNumber])]

/-! ### The checks of R63 and R64, the word read and the write, at a target of the map -/

namespace Target.At

variable {p : Params} {r i : Nat} {t : Target}

/-- The words that a host may write (R64): all but the read-only ones. -/
theorem writable_iff (h : At p r i t) : t.writable = true ↔ ¬ Spec.readOnly r i := by
  unfold Spec.readOnly
  cases h with
  | reg g hr hg =>
    subst hr
    have hi := Reg.lt_of_ofIndex hg
    interval_cases i <;> cases hg <;> decide
  | word hr hi =>
    have hr' := region_lt_of_mapped hi
    have hpos := Nat.pos_of_ne_zero hr
    have hword : (Target.word (Region.ofNumber r) i).writable = decide (r ≤ 6) := by interval_cases r <;> rfl
    rw [hword, decide_eq_true_eq]
    omega

end Target.At

namespace State

variable {s : State} {width : Width} {r i : Nat} {t : Target}

theorem badAddress_at (h : Target.At s.params r i t) :
    s.badAddress width t = true ↔ width ≠ .word ∨ (r ≠ 0 ∧ s.ready = false) := by
  cases h with
  | reg g hr hg => simp [State.badAddress, hr]
  | word hr hi => simp [State.badAddress, hr]

theorem busyRefused_at (h : Target.At s.params r i t) :
    s.busyRefused t = true ↔ Spec.busyProtected r ∧ s.seq ≠ .idle := by
  cases h with
  | reg g hr hg => simp [State.busyRefused, Spec.busyProtected, hr]
  | word hr hi =>
    have hr' := region_lt_of_mapped hi
    have hregion : (Region.ofNumber r).busyProtected = true ↔ Spec.busyProtected r := by
      unfold Spec.busyProtected
      interval_cases r <;> decide
    simp [State.busyRefused, State.busy, hregion]

/-- Every register reads as its row of R35 to R42 says. -/
theorem readReg_ofIndex (s : State) {g : Reg} (h : Reg.ofIndex i = some g) : s.readReg g = Spec.register s i := by
  have hi := Reg.lt_of_ofIndex h
  rcases Nat.lt_trichotomy i 7 with hlt | rfl | hgt
  · interval_cases i <;> cases h <;> rfl
  · cases h
    exact s.errWord_eq
  · interval_cases i <;> cases h <;> rfl

/-- Every register that a host may write has the write rule of R38 to R42. -/
theorem writeReg_ofIndex (s : State) {g : Reg} (h : Reg.ofIndex i = some g) (v : Word) :
    s.writeReg g v = Spec.written s 0 i v := by
  have hi := Reg.lt_of_ofIndex h
  interval_cases i <;> cases h <;> rfl

theorem peek_at (h : Target.At s.params r i t) : s.peek t = Spec.mappedWord s r i := by
  cases h with
  | reg g hr hg =>
    subst hr
    exact s.readReg_ofIndex hg
  | word hr hi =>
    have hpos := Nat.pos_of_ne_zero hr
    have hr' := region_lt_of_mapped hi
    interval_cases r <;> rfl

theorem poke_at (h : Target.At s.params r i t) (hw : ¬ Spec.readOnly r i) (v : Word) :
    s.poke t v = Spec.written s r i v := by
  cases h with
  | reg g hr hg =>
    subst hr
    exact s.writeReg_ofIndex hg v
  | word hr hi =>
    have hpos := Nat.pos_of_ne_zero hr
    have hr' := region_lt_of_mapped hi
    unfold Spec.readOnly at hw
    have hsix : r ≤ 6 := by omega
    interval_cases r <;> rfl

/-! The checks on the bits of an address. -/

variable {a : BusAddr}

/-- Check (1) of R63 and R64. -/
theorem badAddress_ofAddr : s.badAddress width (Target.ofAddr s.params a) = true ↔
    Spec.badAddress s width (addrRegion a) (addrIndex a) (addrLow a) := by
  unfold Spec.badAddress
  by_cases hmap : addrLow a = 0 ∧ addrIndex a < Spec.regionSize s.params (addrRegion a)
  · obtain ⟨hlow, hi⟩ := hmap
    rw [badAddress_at (ofAddr_at hlow hi)]
    tauto
  · rw [not_and_or] at hmap
    rw [ofAddr_unmapped hmap]
    simp only [State.badAddress, Bool.or_true, true_iff]
    tauto

theorem at_of_not_badAddress (h : ¬ Spec.badAddress s width (addrRegion a) (addrIndex a) (addrLow a)) :
    Target.At s.params (addrRegion a) (addrIndex a) (Target.ofAddr s.params a) := by
  simp only [Spec.badAddress, not_or, not_not] at h
  obtain ⟨-, hlow, hi, -⟩ := h
  exact ofAddr_at hlow hi

/-- Check (1) of R64, with the read-only words. -/
theorem badWrite_ofAddr : (s.badAddress width (Target.ofAddr s.params a) || !(Target.ofAddr s.params a).writable) = true ↔
    Spec.badAddress s width (addrRegion a) (addrIndex a) (addrLow a) ∨
      Spec.readOnly (addrRegion a) (addrIndex a) := by
  rw [Bool.or_eq_true, badAddress_ofAddr]
  refine or_congr_right' fun hbad => ?_
  rw [Bool.not_eq_true', ← Bool.not_eq_true, (at_of_not_badAddress hbad).writable_iff, not_not]

/-! What a write that is not refused for busyness does to `BUSYACC` (R67). -/

theorem errorBit_raise (s : State) (e e' : ErrorBit) : (s.raise e').errorBit e = (s.errorBit e || decide (e = e')) := by
  have hmask : e'.mask.getLsbD e.code = decide (e = e') := by cases e <;> cases e' <;> rfl
  rw [State.errorBit, raise_err, BitVec.getLsbD_or, hmask]
  rfl

theorem errorBit_busyacc_raise {e : ErrorBit} (he : e ≠ .busyacc) : (s.raise e).errorBit .busyacc = s.errorBit .busyacc := by
  rw [errorBit_raise, decide_eq_false he.symm, Bool.or_false]

theorem errorBit_busyacc_offerCommand (w : Word) : (s.offerCommand w).errorBit .busyacc = s.errorBit .busyacc := by
  rcases s.offerCommand_cases w with ⟨-, h⟩ | ⟨-, -, h⟩ | ⟨-, -, -, h⟩ | ⟨-, -, i, -, h⟩
  · rw [h, errorBit_busyacc_raise (by decide)]
  · rw [h, errorBit_busyacc_raise (by decide)]
  · rw [h, errorBit_busyacc_raise (by decide)]
  · rw [h]
    rfl

theorem errorBit_busyacc_of_writeReg {g : Reg} {v : Word} (he : (s.writeReg g v).errorBit .busyacc = true) :
    s.errorBit .busyacc = true := by
  rcases s.writeReg_cases g v with ⟨-, h⟩ | ⟨-, h⟩ | ⟨-, -, h⟩ | ⟨-, -, h⟩ | ⟨-, -, h⟩ | h
  · rw [h, errorBit_clearErrors, Bool.and_eq_true] at he
    exact he.1
  · rwa [h, errorBit_busyacc_offerCommand] at he
  all_goals
    rw [h] at he
    exact he

theorem errorBit_busyacc_of_busWrite {v : Word} (hbusy : s.busyRefused (Target.ofAddr s.params a) = false)
    (he : (s.busWrite width a v).errorBit .busyacc = true) : s.errorBit .busyacc = true := by
  rcases s.busWrite_cases width a v with ⟨-, h⟩ | ⟨-, -, hrefused, -⟩ | ⟨-, -, -, h⟩
  · rwa [h, errorBit_busyacc_raise (by decide)] at he
  · simp [hbusy] at hrefused
  rw [h] at he
  rcases s.poke_cases (Target.ofAddr s.params a) v with ⟨g, -, h⟩ | ⟨_, _, A, -, -, h⟩ | h
  · exact errorBit_busyacc_of_writeReg (h ▸ he)
  all_goals
    rw [h] at he
    exact he

end State
end Sys2Proof.Machine

/-! ### The settled statements -/

namespace Sys2Proof

open Machine

/-- Settles O44: the two checks of a read are those of R63 on the bits of the address, and the word read is that of the map. -/
theorem busReadFollowsItsThreeCases : Obligations.BusReadFollowsItsThreeCases := by
  refine fun s width a => ⟨fun hbad => ⟨_, if_pos (State.badAddress_ofAddr.2 hbad)⟩,
    fun hbad hbusy => ⟨Config.refusedReadData s.draws, ?_⟩, fun hbad hbusy => ?_⟩
  all_goals
    have hat := State.at_of_not_badAddress hbad
    have hserved := fun h => hbad (State.badAddress_ofAddr.1 h)
  · exact (if_neg hserved).trans (if_pos ((State.busyRefused_at hat).2 hbusy))
  · rw [← State.peek_at hat]
    exact (if_neg hserved).trans (if_neg fun h => hbusy ((State.busyRefused_at hat).1 h))

/-- Settles O45, by the same checks with the read-only words, and the write rule of the word. -/
theorem busWriteFollowsItsThreeCases : Obligations.BusWriteFollowsItsThreeCases := by
  refine fun s width a v => ⟨fun hbad => if_pos (State.badWrite_ofAddr.2 hbad), fun hbad hbusy => ?_, fun hbad hbusy => ?_⟩
  all_goals
    have hserved := fun h => hbad (State.badWrite_ofAddr.1 h)
    obtain ⟨hmap, hwritable⟩ := not_or.1 hbad
    have hat := State.at_of_not_badAddress hmap
  · exact (if_neg hserved).trans (if_pos ((State.busyRefused_at hat).2 hbusy))
  · rw [← State.poke_at hat hwritable]
    exact (if_neg hserved).trans (if_neg fun h => hbusy ((State.busyRefused_at hat).1 h))

/-- Settles O46: both fail check (1), by the width or by bits 1:0 of the address. -/
theorem narrowAndMisalignedAccessesAreRefused : Obligations.NarrowAndMisalignedAccessesAreRefused := by
  intro s width a v h
  rw [addr_low] at h
  have hbad : Spec.badAddress s width (addrRegion a) (addrIndex a) (addrLow a) := h.imp_right .inl
  exact ⟨(busReadFollowsItsThreeCases s width a).1 hbad, (busWriteFollowsItsThreeCases s width a v).1 (.inl hbad)⟩

/-- Settles O47: region 0 by its registers, every other region by check (1). -/
theorem refusedInstanceAnswersOnlyRegionZero : Obligations.RefusedInstanceAnswersOnlyRegionZero := by
  intro s v hr
  have hready : ¬ s.ready = true := by simp [hr]
  have hwrite {i : Nat} {g : Reg} (h : Reg.ofIndex i = some g) (hw : (Target.reg g).writable = true) :=
    s.busWrite_reg (ofAddr_reg s.params h) hw v
  have hcmd : s.offerCommand v = s.raise .notready := if_pos (by simp [hr])
  refine ⟨fun i hi => ?_, hwrite (i := 7) rfl rfl, (hwrite (i := 8) rfl rfl).trans hcmd,
    (hwrite (i := 9) rfl rfl).trans (if_neg hready), (hwrite (i := 10) rfl rfl).trans (if_neg hready),
    (hwrite (i := 15) rfl rfl).trans (if_neg hready), fun width a ha => ?_⟩
  · obtain ⟨g, hg⟩ := Reg.exists_ofIndex hi
    rw [s.busRead_reg (ofAddr_reg s.params hg), s.readReg_ofIndex hg]
  · have hregion : addrRegion a ≠ 0 := by
      rw [addrRegion, ← addr_region]
      omega
    have hbad : Spec.badAddress s width (addrRegion a) (addrIndex a) (addrLow a) := .inr (.inr (.inr ⟨hregion, hr⟩))
    exact ⟨(busReadFollowsItsThreeCases s width a).1 hbad, (busWriteFollowsItsThreeCases s width a v).1 (.inl hbad)⟩

/-- Settles O48: the access passes check (1), but for a write of regions 7 and 8; the rest is check (2). -/
theorem busyProtectionRefusesExactlyItsRegions : Obligations.BusyProtectionRefusesExactlyItsRegions := by
  refine fun s a v hr hbusy hlow hi => ?_
  have hmap : ¬ Spec.badAddress s .word (addrRegion a) (addrIndex a) (addrLow a) := by
    simp only [Spec.badAddress, not_or]
    exact ⟨by decide, by rw [addrLow, hlow]; decide, not_not.2 hi, fun h => by simp [hr] at h⟩
  have hwritable (h : addrRegion a ∈ [1, 2, 3, 4, 5, 6]) : ¬ Spec.readOnly (addrRegion a) (addrIndex a) := by
    simp only [List.mem_cons, List.not_mem_nil, or_false] at h
    unfold Spec.readOnly
    omega
  obtain ⟨-, hreadBusy, hreadServed⟩ := busReadFollowsItsThreeCases s .word a
  obtain ⟨hwriteBad, hwriteBusy, hwriteServed⟩ := busWriteFollowsItsThreeCases s .word a v
  refine ⟨fun h => hreadBusy hmap ⟨h, hbusy⟩, fun h => ?_, fun h => hreadServed hmap (mt And.left h), fun h => ?_, fun h => ?_,
    fun h => ?_⟩
  · have hprotected : Spec.busyProtected (addrRegion a) := (by decide : [1, 2, 4, 5, 6] ⊆ [1, 2, 4, 5, 6, 7, 8]) h
    exact hwriteBusy (not_or.2 ⟨hmap, hwritable ((by decide : [1, 2, 4, 5, 6] ⊆ [1, 2, 3, 4, 5, 6]) h)⟩) ⟨hprotected, hbusy⟩
  · refine hwriteBad (.inr (.inl ?_))
    simp only [List.mem_cons, List.not_mem_nil, or_false] at h
    omega
  · exact State.errorBit_busyacc_of_busWrite
      (Bool.eq_false_iff.2 (mt (State.busyRefused_at (State.at_of_not_badAddress hmap)).1 (mt And.left h)))
  · refine (hwriteServed (not_or.2 ⟨hmap, hwritable (by simp [h])⟩) fun hp => ?_).trans (by rw [h]; rfl)
    simp [h, Spec.busyProtected] at hp

end Sys2Proof

/-! PROOFS. Family 30_encoding: the fields of a command word (R81 to R85), decoding against encoding (R88), the write of `CMD` and
the engine's turn (R84, R86), and a block command step by step to its end (R132, R133, R143). -/

/-! ### Command words and their fields (R81 to R85, R88) -/

namespace Sys2Proof

theorem CommandFields.toWord_ofWord (w : Word) : (CommandFields.ofWord w).toWord = w := by
  rw [CommandFields.toWord, CommandFields.ofWord,
    BitVec.extractLsb'_append_extractLsb'_eq_extractLsb' (start₂ := 24) (start₁ := 8) rfl,
    BitVec.extractLsb'_append_extractLsb'_eq_extractLsb' (start₂ := 8) (start₁ := 4) rfl,
    BitVec.extractLsb'_append_extractLsb'_eq_extractLsb' (start₂ := 4) (start₁ := 0) rfl]
  exact BitVec.extractLsb'_eq_self

/-- A selector value below 2 names a buffer (R82). -/
theorem Buf.exists_eq_selector {f : BitVec 4} (hf : f.toNat < 2) : ∃ b : Buf, f = b.selector := by
  have hvalue : f.toNat = 0 ∨ f.toNat = 1 := by omega
  rcases hvalue with h | h
  · exact ⟨.x, BitVec.eq_of_toNat_eq h⟩
  · exact ⟨.y, BitVec.eq_of_toNat_eq h⟩

theorem decode_encode (i : Instr) : decode (encode i) = .ok i := by
  cases i with
  | nop | block | blockv => rfl
  | fftF dst src | fftI dst src | rfftF dst src | rfftI dst src => cases dst <;> cases src <;> rfl

/-- A row of format `T` leaves only the low bit of each selector free (R83). -/
theorem not_illegal_of_transform_row {w : Word} {op : BitVec 8} (hop : op.toNat ∈ [0x01, 0x02, 0x03, 0x04])
    (h : w &&& 0xFFFFFFEE#32 = op ++ 0#24) : ¬ Spec.illegal w := by
  have hfield (start len : Nat) := BitVec.extractLsb'_and.symm.trans (congrArg (BitVec.extractLsb' start len) h)
  have hselector : ∀ f : BitVec 4, f &&& 0xE#4 = 0#4 → f.toNat < 2 := by decide
  have hlow {start len : Nat} (hle : start + len ≤ 24) : (op ++ 0#24).extractLsb' start len = 0 :=
    (BitVec.extractLsb'_append_eq_of_add_le hle).trans BitVec.extractLsb'_zero
  have hopcode : w.extractLsb' 24 8 = op :=
    BitVec.and_allOnes.symm.trans ((hfield 24 8).trans BitVec.extractLsb'_append_eq_left)
  have hzero : w.extractLsb' 8 16 = 0 := BitVec.and_allOnes.symm.trans ((hfield 8 16).trans (hlow (by decide)))
  have hdst := hselector _ ((hfield 4 4).trans (hlow (by decide)))
  have hsrc := hselector _ ((hfield 0 4).trans (hlow (by decide)))
  simp only [List.mem_cons, List.not_mem_nil, or_false] at hop
  simp only [Spec.illegal, hopcode, List.mem_cons, List.not_mem_nil, or_false]
  rintro (h | h | ⟨h, -⟩ | ⟨-, h⟩)
  · omega
  · exact h hzero
  · omega
  · omega

theorem not_illegal_of_decode {w : Word} {i : Instr} (h : decode w = .ok i) : ¬ Spec.illegal w := by
  simp only [decode, show (0xFFFFFFFF#32) = BitVec.allOnes 32 from rfl, BitVec.and_allOnes] at h
  split_ifs at h with hnop hfftF hfftI hrfftF hrfftI hblock hblockv
  · rw [hnop]; unfold Spec.illegal; decide
  · exact not_illegal_of_transform_row (op := 0x01) (by decide) hfftF
  · exact not_illegal_of_transform_row (op := 0x02) (by decide) hfftI
  · exact not_illegal_of_transform_row (op := 0x03) (by decide) hrfftF
  · exact not_illegal_of_transform_row (op := 0x04) (by decide) hrfftI
  · rw [hblock]; unfold Spec.illegal; decide
  · rw [hblockv]; unfold Spec.illegal; decide

section
variable {w : Word} {op : BitVec 8} (hop : (w.extractLsb' 24 8).toNat = op.toNat) (hzero : w.extractLsb' 8 16 = 0)
include hop hzero

theorem eq_toWord_of_low_byte_zero (hlow : w.extractLsb' 0 8 = 0) : w = CommandFields.toWord ⟨op, 0, 0, 0⟩ := by
  have hselector {start : Nat} (hle : start + 4 ≤ 8) : w.extractLsb' start 4 = 0 := by
    simpa [hlow] using (BitVec.extractLsb'_extractLsb'_of_le (x := w) hle).symm
  rw [← CommandFields.toWord_ofWord w, CommandFields.ofWord, BitVec.eq_of_toNat_eq hop, hzero, hselector (by decide),
    hselector (by decide)]

theorem exists_eq_toWord_of_selectors (hselectors : (w.extractLsb' 4 4).toNat < 2 ∧ (w.extractLsb' 0 4).toNat < 2) :
    ∃ dst src : Buf, w = CommandFields.toWord ⟨op, 0, dst.selector, src.selector⟩ := by
  obtain ⟨dst, hdst⟩ := Buf.exists_eq_selector hselectors.1
  obtain ⟨src, hsrc⟩ := Buf.exists_eq_selector hselectors.2
  refine ⟨dst, src, ?_⟩
  rw [← CommandFields.toWord_ofWord w, CommandFields.ofWord, BitVec.eq_of_toNat_eq hop, hzero, hdst, hsrc]

end

/-- A word with none of the four causes is the word of a command, by its opcode. -/
theorem exists_eq_encode_of_not_illegal {w : Word} (h : ¬ Spec.illegal w) : ∃ i, w = encode i := by
  simp only [Spec.illegal, not_or, not_and, not_not, not_le] at h
  obtain ⟨hop, hzero, hoperands, hselectors⟩ := h
  have hformatZ {op : BitVec 8} (h : (w.extractLsb' 24 8).toNat = op.toNat) (hmem : op.toNat ∈ [0x00, 0x10, 0x11]) :=
    eq_toWord_of_low_byte_zero h hzero (hoperands (h ▸ hmem))
  have hformatT {op : BitVec 8} (h : (w.extractLsb' 24 8).toNat = op.toNat) (hmem : op.toNat ∈ [0x01, 0x02, 0x03, 0x04]) :=
    exists_eq_toWord_of_selectors h hzero (hselectors (h ▸ hmem))
  simp only [List.mem_cons, List.not_mem_nil, or_false] at hop
  rcases hop with h | h | h | h | h | h | h
  · exact ⟨.nop, hformatZ (op := 0x00) h (by decide)⟩
  · obtain ⟨dst, src, hw⟩ := hformatT (op := 0x01) h (by decide)
    exact ⟨.fftF dst src, hw⟩
  · obtain ⟨dst, src, hw⟩ := hformatT (op := 0x02) h (by decide)
    exact ⟨.fftI dst src, hw⟩
  · obtain ⟨dst, src, hw⟩ := hformatT (op := 0x03) h (by decide)
    exact ⟨.rfftF dst src, hw⟩
  · obtain ⟨dst, src, hw⟩ := hformatT (op := 0x04) h (by decide)
    exact ⟨.rfftI dst src, hw⟩
  · exact ⟨.block, hformatZ (op := 0x10) h (by decide)⟩
  · exact ⟨.blockv, hformatZ (op := 0x11) h (by decide)⟩

/-- `decode` answers an error exactly on the illegal words (R85). -/
theorem decode_error_iff (w : Word) : (∃ e, decode w = .error e) ↔ Spec.illegal w := by
  constructor
  · rintro ⟨e, he⟩
    by_contra hlegal
    obtain ⟨i, rfl⟩ := exists_eq_encode_of_not_illegal hlegal
    cases he.symm.trans (decode_encode i)
  · intro hillegal
    cases h : decode w with
    | error e => exact ⟨e, rfl⟩
    | ok i => exact absurd hillegal (not_illegal_of_decode h)

end Sys2Proof

/-! ### The write of `CMD` and the engine's turn (R84, R86) -/

namespace Sys2Proof.Machine

theorem firstPhase_eq (i : Instr) : firstPhase i = if i = .block ∨ i = .blockv then .sample 0 else .exec := by
  cases i <;> simp [firstPhase]

theorem decodeTableWord_of_decode {w : Word} {i : Instr} (h : decode w = .ok i) : decodeTableWord 32 w.toNat = some i := by
  simp [decodeTableWord, Nat.mod_eq_of_lt w.isLt, h]

namespace State

variable (s : State)

theorem busWrite_cmd (w : Word) : s.busWrite .word cmdAddr w = s.offerCommand w :=
  s.busWrite_reg (ofAddr_reg s.params (i := 8) rfl) rfl w

section
variable {s} {w : Word} {i : Instr}

theorem offerCommand_illegal (hr : s.ready = true) (hidle : s.seq = .idle) {e : Illegal} (hw : decode w = .error e) :
    s.offerCommand w = s.raise .illcmd := by
  simp [State.offerCommand, hr, s.busy_eq_false_iff.2 hidle, hw]

/-- An idle ready block accepts a word written to `CMD` that decodes (R84 case 4). -/
theorem busWrite_cmd_accepts (hr : s.ready = true) (hidle : s.seq = .idle) (hw : decode w = .ok i) :
    s.busWrite .word cmdAddr w = s.accept w i :=
  (s.busWrite_cmd w).trans (s.offerCommand_accepts hr hidle hw)

theorem withFetchWord_of_decode (hw : decode w = .ok i) :
    s.withFetchWord 32 w.toNat = (s.accept w i).withAgenda (.engine :: s.agenda) := by
  simp [State.withFetchWord, decodeTableWord_of_decode hw, Nat.mod_eq_of_lt w.isLt]

/-- The engine's turn while a command runs (R69 item c, R84). -/
theorem engineTurn_of_run {p : Phase} (hr : s.ready = true) (hseq : s.seq = .run i p) : s.engineTurn = exec i s.tick := by
  rw [State.engineTurn, s.enabled_eq_some_iff.2 ⟨hr, p, hseq⟩]

end

end State

theorem step_of_agenda_nil {s : State} (h : s.agenda = []) : step s = s.engineTurn := by rw [step, h]

/-- While a command runs, a turn of the engine that the agenda names, or that comes when it is used up, is the command's (R69). -/
theorem step_of_run {s : State} {i : Instr} {p : Phase} {rest : List Event} (hr : s.ready = true) (hseq : s.seq = .run i p)
    (h : s.agenda = .engine :: rest ∨ (s.agenda = [] ∧ rest = [])) : step s = exec i (s.withAgenda rest).tick := by
  rcases h with h | ⟨h, rfl⟩
  · exact (step_of_agenda h).trans (State.engineTurn_of_run hr hseq)
  · rw [show s.withAgenda [] = s by rw [← h]; rfl]
    exact (step_of_agenda_nil h).trans (State.engineTurn_of_run hr hseq)

end Sys2Proof.Machine

/-! ### A block command, step by step (R84, R132, R133, R143) -/

namespace Sys2Proof.Machine

section
variable {s : State} {i : Instr} {j : Nat}

theorem exec_eq_blockStep (hi : i = .block ∨ i = .blockv) (s : State) : ∃ g, exec i s = s.blockStep i g := by
  rcases hi with rfl | rfl
  · exact ⟨_, rfl⟩
  · exact ⟨_, rfl⟩

theorem exec_sample (hi : i = .block ∨ i = .blockv) (hseq : s.seq = .run i (.sample j)) (hj : j < s.params.b) :
    exec i s = .next { s.sampleStep j with seq := .run i (nextPhase s.params.b j) } := by
  obtain ⟨g, hg⟩ := exec_eq_blockStep hi s
  simp [hg, State.blockStep, hseq, hj]

theorem exec_drain (hi : i = .block ∨ i = .blockv) (hseq : s.seq = .run i .drain) :
    ∃ g, exec i s = .next (s.outDrain s.site g).finish := by
  obtain ⟨g, hg⟩ := exec_eq_blockStep hi s
  exact ⟨g, by simp [hg, State.blockStep, hseq]⟩

end

namespace State

theorem block_le_cIn_of_ready {s : State} (hr : s.ready = true) : s.params.b ≤ s.params.cIn := by
  obtain ⟨-, -, ⟨hpos, hdvd, -⟩, -⟩ := s.valid_of_ready hr
  exact Nat.le_of_dvd hpos hdvd

variable {s : State} {j : Nat} {A : Arr}

/-- Counting a sample changes no array but the output ring (R133, R135). -/
theorem word_countHop (hr : s.ready = true) (hA : A ≠ .outring) (hj : j < A.size s.params) :
    s.countHop.word A j = s.word A j := by
  refine s.word_eq_of_read hj fun a ha => ?_
  have hout := Arr.outside_of_holds (s.valid_of_ready hr) hA ha
  rcases s.countHop_cases with ⟨-, h⟩ | ⟨-, h⟩
  · rw [h]
  · rw [h]
    rcases resynth_cases { s with hopCnt := 0 } with ⟨-, h⟩ | ⟨-, h⟩
    · rw [h]
      exact read_outAddFrame_outside { s with hopCnt := 0 } _ _ (cOut_pos_of_ready hr) hout
    · rw [h]
      rfl

/-- A sample step changes no array but the two rings (R133). -/
theorem word_sampleStep (hr : s.ready = true) (hw : s.inWr < s.params.cIn) (hin : A ≠ .inring) (hout : A ≠ .outring) (j : Nat)
    {q : Nat} (hq : q < A.size s.params) : (s.sampleStep j).word A q = s.word A q := by
  refine s.word_eq_of_read hq fun a ha => ?_
  have hvalid := s.valid_of_ready hr
  exact s.read_sampleStep_outside j hr hw (Arr.outside_of_holds hvalid hin ha) (Arr.outside_of_holds hvalid hout ha)

/-- A sample step puts the sample at the input cursor (R125, R133). -/
theorem word_inring_sampleStep_same (hr : s.ready = true) (hw : s.inWr < s.params.cIn) (j : Nat) :
    (s.sampleStep j).word .inring s.inWr = s.word .inblk j :=
  (word_countHop (s := s.inPush (s.word .inblk j)) hr (by decide) hw).trans (s.word_setWord_same .inring s.inWr _)

theorem word_inring_sampleStep_ne (hr : s.ready = true) (j : Nat) {q : Nat} (hq : q < s.params.cIn) (hne : q ≠ s.inWr) :
    (s.sampleStep j).word .inring q = s.word .inring q :=
  (word_countHop (s := s.inPush (s.word .inblk j)) hr (by decide) hq).trans (s.word_setWord_ne .inring _ hne)

/-- The hop counter and the overlap-add cursor after one more sample (R133, R136): the cursor moves where the counter wraps. -/
theorem countHop_cursors (hc : s.hopCnt < s.params.h) (hw : s.outWr < s.params.cOut) :
    s.countHop.hopCnt = (s.hopCnt + 1) % s.params.h ∧
    s.countHop.outWr = (s.outWr + s.params.h * ((s.hopCnt + 1) / s.params.h)) % s.params.cOut := by
  rcases s.countHop_cases with ⟨hne, h⟩ | ⟨heq, h⟩
  · have hlt : s.hopCnt + 1 < s.params.h := Nat.lt_of_le_of_ne hc hne
    simp [h, Nat.mod_eq_of_lt hlt, Nat.div_eq_of_lt hlt, Nat.mod_eq_of_lt hw]
  · obtain ⟨m, e, -, hframe⟩ := resynth_frame { s with hopCnt := 0 }
    simp [h, hframe, heq, Nat.div_self (Nat.zero_lt_of_lt hc), ringIndex]

/-- The drain changes no array but the output ring and the output block (R143). -/
theorem word_outDrain (hr : s.ready = true) (hring : A ≠ .outring) (hblk : A ≠ .outblk) (k : Site) (g : List Word)
    (hj : j < A.size s.params) : (s.outDrain k g).word A j = s.word A j := by
  refine s.word_eq_of_read hj fun a ha => ?_
  have hvalid := s.valid_of_ready hr
  exact s.read_outDrain_outside k g (cOut_pos_of_ready hr) (Arr.outside_of_holds hvalid hring ha)
    (Arr.outside_of_holds hvalid hblk ha)

end State

/-- `t` is the state after `k` sample steps of the block command `i` that starts in `s`, with no transaction in
between (R132, R133). -/
structure State.AfterSamples (s : State) (i : Instr) (k : Nat) (t : State) : Prop where
  params_eq : t.params = s.params
  agenda_eq : t.agenda = []
  lastCmd_eq : t.lastCmd = s.lastCmd
  seq_eq : t.seq = .run i (if k < s.params.b then .sample k else .drain)
  inWr_eq : t.inWr = ringIndex s.inWr k s.params.cIn
  outRd_eq : t.outRd = s.outRd
  hopCnt_eq : t.hopCnt = (s.hopCnt + k) % s.params.h
  outWr_eq : t.outWr = (s.outWr + s.params.h * ((s.hopCnt + k) / s.params.h)) % s.params.cOut
  pushed : ∀ j < k, t.word .inring (ringIndex s.inWr j s.params.cIn) = s.word .inblk j
  kept : ∀ A, A ≠ .inring → A ≠ .outring → ∀ j < A.size s.params, t.word A j = s.word A j

/-- Counting the hops of `k` samples and of one more (R133). -/
theorem div_add_mod_succ_div (c k h : Nat) : (c + k) / h + ((c + k) % h + 1) / h = (c + (k + 1)) / h := by
  rcases Nat.eq_zero_or_pos h with rfl | hh
  · simp
  · rw [← Nat.mul_add_div hh, ← Nat.add_assoc, Nat.div_add_mod, Nat.add_assoc]

namespace State.AfterSamples

variable {s t : State} {i : Instr} {k : Nat}

theorem ready_eq (h : s.AfterSamples i k t) : t.ready = s.ready := by rw [State.ready, State.ready, h.params_eq]

theorem zero (hs : s.CursorsInRange) (hb : 0 < s.params.b) (hseq : s.seq = .run i (.sample 0)) (ha : s.agenda = []) :
    s.AfterSamples i 0 s where
  params_eq := rfl
  agenda_eq := ha
  lastCmd_eq := rfl
  seq_eq := by rw [hseq, if_pos hb]
  inWr_eq := (Nat.mod_eq_of_lt hs.inWr_lt).symm
  outRd_eq := rfl
  hopCnt_eq := (Nat.mod_eq_of_lt hs.hopCnt_lt).symm
  outWr_eq := by rw [Nat.add_zero, Nat.div_eq_of_lt hs.hopCnt_lt, Nat.mul_zero, Nat.add_zero, Nat.mod_eq_of_lt hs.outWr_lt]
  pushed _ hj := absurd hj (Nat.not_lt_zero _)
  kept _ _ _ _ _ := rfl

/-- One more sample step (R133). -/
theorem succ (hr : s.ready = true) (hk : k < s.params.b) (h : s.AfterSamples i k t) :
    s.AfterSamples i (k + 1) { t.tick.sampleStep k with seq := .run i (nextPhase s.params.b k) } := by
  have hready : t.tick.ready = true := h.ready_eq.trans hr
  have hparams : t.params = s.params := h.params_eq
  have hcIn := cIn_pos_of_ready hr
  have hbcIn := block_le_cIn_of_ready hr
  have hin : t.tick.inWr = ringIndex s.inWr k s.params.cIn := h.inWr_eq
  have hinlt : t.tick.inWr < t.tick.params.cIn := by
    rw [hin, t.tick_params, hparams]
    exact ringIndex_lt hcIn
  obtain ⟨hhop, hwr⟩ := countHop_cursors (s := t.tick.inPush (t.tick.word .inblk k))
    (by simpa [h.hopCnt_eq, hparams] using Nat.mod_lt _ (hop_pos_of_ready hr))
    (by simpa [h.outWr_eq, hparams] using Nat.mod_lt _ (cOut_pos_of_ready hr))
  obtain ⟨m, w, c, e, -, hframe⟩ := t.tick.sampleStep_frame k
  exact {
    params_eq := (t.tick.sampleStep_params k).trans hparams
    agenda_eq := (congrArg State.agenda hframe).trans h.agenda_eq
    lastCmd_eq := (congrArg State.lastCmd hframe).trans h.lastCmd_eq
    seq_eq := rfl
    inWr_eq := (congrArg State.inWr hframe).trans (by simp [h.inWr_eq, hparams, ringIndex, Nat.add_assoc])
    outRd_eq := (congrArg State.outRd hframe).trans h.outRd_eq
    hopCnt_eq := hhop.trans (by simp [h.hopCnt_eq, hparams, Nat.add_assoc])
    outWr_eq := hwr.trans (by
      simp [h.hopCnt_eq, h.outWr_eq, hparams, Nat.add_assoc, ← Nat.mul_add, div_add_mod_succ_div])
    pushed := fun j hj => by
      rcases Nat.lt_succ_iff_lt_or_eq.1 hj with hj | rfl
      · have hne : ringIndex s.inWr j s.params.cIn ≠ t.tick.inWr := by
          rw [hin]
          exact fun heq => hj.ne (ringIndex_inj (by omega) (by omega) heq)
        rw [← h.pushed j hj]
        exact word_inring_sampleStep_ne hready k (by simpa [hparams] using ringIndex_lt hcIn) hne
      · rw [← h.kept .inblk (by decide) (by decide) j hk, ← hin]
        exact word_inring_sampleStep_same hready hinlt j
    kept := fun A hA hA' j hj => by
      rw [← h.kept A hA hA' j hj]
      exact word_sampleStep hready hinlt hA hA' k (by simpa [hparams] using hj) }

/-- While a sample is left the next step is that of one more sample (R84). -/
theorem step_succ (hr : s.ready = true) (hi : i = .block ∨ i = .blockv) (hk : k < s.params.b) (h : s.AfterSamples i k t) :
    ∃ u, step t = .next u ∧ s.AfterSamples i (k + 1) u := by
  have hseq : t.seq = .run i (.sample k) := by rw [h.seq_eq, if_pos hk]
  have hexec := exec_sample (s := t.tick) hi hseq (h.params_eq ▸ hk)
  rw [t.tick_params, h.params_eq] at hexec
  exact ⟨_, (step_of_agenda_nil h.agenda_eq).trans ((engineTurn_of_run (h.ready_eq.trans hr) hseq).trans hexec), h.succ hr hk⟩

/-- After the last sample the next step is the drain (R84). -/
theorem step_drain (hr : s.ready = true) (hi : i = .block ∨ i = .blockv) (h : s.AfterSamples i s.params.b t) :
    ∃ site g, step t = .next (t.tick.outDrain site g).finish := by
  have hseq : t.seq = .run i .drain := by rw [h.seq_eq, if_neg (Nat.lt_irrefl _)]
  obtain ⟨g, hexec⟩ := exec_drain (s := t.tick) hi hseq
  exact ⟨_, g, (step_of_agenda_nil h.agenda_eq).trans ((engineTurn_of_run (h.ready_eq.trans hr) hseq).trans hexec)⟩

end State.AfterSamples

/-- A run and one step more. -/
theorem run_succ_of_run {M : Host.Core} {s t u : M.State} {k : Nat} (hrun : M.run k s = .next t) (hstep : M.step t = .next u) :
    M.run (k + 1) s = .next u := by
  induction k generalizing s with
  | zero =>
    cases hrun
    simp [Host.Core.run, hstep]
  | succ k ih =>
    rw [Host.Core.run] at hrun ⊢
    cases h : M.step s with
    | next s' =>
      rw [h] at hrun
      exact ih hrun
    | fault r | refused r =>
      rw [h] at hrun
      cases hrun

theorem run_afterSamples {s : State} {i : Instr} (hs : s.Inv) (hr : s.ready = true) (hi : i = .block ∨ i = .blockv)
    (hseq : s.seq = .run i (.sample 0)) (ha : s.agenda = []) {k : Nat} (hk : k ≤ s.params.b) :
    ∃ t : State, Host.Core.run core k s = .next t ∧ s.AfterSamples i k t := by
  induction k with
  | zero => exact ⟨s, rfl, .zero (hs.cursors hr) (State.block_pos_of_ready hr) hseq ha⟩
  | succ k ih =>
    obtain ⟨t, hrun, ht⟩ := ih (Nat.le_of_succ_le hk)
    obtain ⟨u, hstep, hu⟩ := ht.step_succ hr hi hk
    exact ⟨u, run_succ_of_run hrun hstep, hu⟩

end Sys2Proof.Machine

/-! ### The settled statements -/

namespace Sys2Proof

open Machine

/-- Settles O2: a word that decodes is legal, so it is the word of a command, and that word decodes to its own command. -/
theorem decodeAndEncodeAreInverse : Obligations.DecodeAndEncodeAreInverse := by
  refine fun w i => ⟨fun h => ?_, fun h => h ▸ decode_encode i⟩
  obtain ⟨j, rfl⟩ := exists_eq_encode_of_not_illegal (not_illegal_of_decode h)
  rw [Except.ok.inj ((decode_encode j).symm.trans h)]

/-- Settles O3. -/
theorem illegalWordsAreThoseOfTheFourCauses : Obligations.IllegalWordsAreThoseOfTheFourCauses := by
  refine fun w => ⟨decode_error_iff w, fun s hr hidle hw => ?_⟩
  obtain ⟨e, he⟩ := (decode_error_iff w).2 hw
  exact (s.busWrite_cmd w).trans (State.offerCommand_illegal hr hidle he)

/-- Settles O41: the `B` sample steps by induction, then the drain. -/
theorem blockCommandRunsToItsEnd : Obligations.BlockCommandRunsToItsEnd := by
  intro s i hs hr hi hseq ha
  have hrun {k : Nat} (hk : k ≤ s.params.b) := run_afterSamples hs hr hi hseq ha hk
  refine ⟨fun k hk => ?_, ?_⟩
  · obtain ⟨t, ht, hafter⟩ := hrun hk
    exact ⟨t, ht, t.busy_of_run hafter.seq_eq⟩
  · obtain ⟨t, ht, hafter⟩ := hrun (Nat.le_refl _)
    obtain ⟨site, g, hstep⟩ := hafter.step_drain hr hi
    have hword {A : Arr} (hring : A ≠ .outring) (hblk : A ≠ .outblk) {j : Nat} (hj : j < A.size s.params) :
        (t.tick.outDrain site g).finish.word A j = t.word A j :=
      State.word_outDrain (hafter.ready_eq.trans hr) hring hblk site g (by simpa [hafter.params_eq] using hj)
    refine ⟨_, run_succ_of_run ht hstep, rfl, rfl, hafter.lastCmd_eq, hafter.inWr_eq, ?_, hafter.hopCnt_eq, hafter.outWr_eq,
      fun j hj => ?_, fun j hj => ⟨?_, ?_⟩⟩
    · rw [State.finish_outRd, State.outDrain_outRd, t.tick_outRd, t.tick_params, hafter.outRd_eq, hafter.params_eq, ringIndex]
    · have hpos := ringIndex_lt (c := s.inWr) (d := j) (State.cIn_pos_of_ready hr)
      exact (hword (A := .inring) (by decide) (by decide) hpos).trans (hafter.pushed j hj)
    · exact (hword (by decide) (by decide) hj).trans (hafter.kept .x (by decide) (by decide) j hj)
    · exact (hword (by decide) (by decide) hj).trans (hafter.kept .y (by decide) (by decide) j hj)

/-- Settles O1. -/
theorem commandWordsOfTheSpecDecode : Obligations.CommandWordsOfTheSpecDecode :=
  ⟨decode_encode (.fftF .x .x), decode_encode (.fftI .y .x), decode_encode (.rfftF .y .y), decode_encode (.rfftI .x .y),
    decode_encode .block, decode_encode .blockv, decode_encode .nop, decode_encode (.fftF .x .y)⟩

/-- Settles O5. -/
theorem acceptedCommandStartsAtItsFirstPhase : Obligations.AcceptedCommandStartsAtItsFirstPhase := by
  intro s w i hr hidle hw
  rw [State.busWrite_cmd_accepts hr hidle hw, State.accept, firstPhase_eq]

/-- Settles O6: in each clause the step is the engine's turn while `SEQ` runs the decoded command. -/
theorem stepRunsTheDecodedCommand : Obligations.StepRunsTheDecodedCommand := by
  refine ⟨fun s i p rest hr hseq ha => step_of_run hr hseq ha, fun s w i hr hw => ?_,
    fun s w i e rest hr hidle hw he ha => ?_⟩
  · rw [State.withFetchWord_of_decode hw]
    exact step_of_run hr rfl (.inl rfl)
  · have hstep := transactionsAreStepsOfEitherMaster s (.write .word cmdAddr w) (.engine :: rest) (by simpa [ha] using he)
    have haccept := State.busWrite_cmd_accepts (s := { s with agenda := .engine :: rest, draws := s.draws + 1 }) hr hidle hw
    exact ⟨_, hstep.trans (congrArg _ haccept), step_of_run hr rfl (.inl rfl)⟩

/-- Settles O9: the write is accepted, and the engine's turn is the one step of `NOP`. -/
theorem nopChangesOnlySeqAndDone : Obligations.NopChangesOnlySeqAndDone := by
  refine ⟨rfl, fun s => rfl, fun s hr hidle => ?_⟩
  have haccept : s.busWrite .word 0x000020#24 0 = s.accept 0 .nop := State.busWrite_cmd_accepts hr hidle rfl
  have hturn : (s.accept 0 .nop).engineTurn = .next (s.accept 0 .nop).tick.finish :=
    State.engineTurn_of_run (s := s.accept 0 .nop) hr rfl
  exact ⟨_, _, haccept, s.accept_busy 0 .nop, rfl, rfl, hturn, State.finish_busy _, rfl⟩

end Sys2Proof

/-! PROOFS. Family 40_complex_fft: butterflies and exchanges as updates of a pair of complex elements and loops of such updates
(R102 to R104), the words `CFFT` touches (R105), the Fourier sums stage by stage (R110), and the two commands (R106 to R108). -/

/-! ### Updates of a pair of complex elements -/

namespace Sys2Proof.Machine

section
variable {α : Type} (num : Num α)

/-- The complex elements at two indices. -/
def pairAt (A : List α) (pq : Nat × Nat) : (α × α) × (α × α) := (complexAt num A pq.1, complexAt num A pq.2)

/-- Replaces the complex elements at two indices by a function of both old values. -/
def updatePair (g : (α × α) × (α × α) → (α × α) × (α × α)) (pq : Nat × Nat) (A : List α) : List α :=
  setComplex (setComplex A pq.1 (g (pairAt num A pq)).1) pq.2 (g (pairAt num A pq)).2

/-- Both elements of the pair lie within the first `L` words. -/
def PairFits (L : Nat) (pq : Nat × Nat) : Prop := 2 * pq.1 + 1 < L ∧ 2 * pq.2 + 1 < L

/-- The two pairs have no index in common. -/
def PairsApart (a b : Nat × Nat) : Prop := a.1 ≠ b.1 ∧ a.1 ≠ b.2 ∧ a.2 ≠ b.1 ∧ a.2 ≠ b.2

/-- What a butterfly makes of its two elements (R102). -/
def butterflyValues (k : Site) (w : α × α) (z : (α × α) × (α × α)) : (α × α) × (α × α) :=
  ((num.add (k.sub 6) z.1.1 z.2.1, num.add (k.sub 7) z.1.2 z.2.2),
   cmul num k (num.sub (k.sub 8) z.1.1 z.2.1, num.sub (k.sub 9) z.1.2 z.2.2) w)

theorem butterfly_eq_updatePair (k : Site) (w : α × α) (s a : Nat) (A : List α) :
    butterfly num k w s a A = updatePair num (butterflyValues num k w) (a, a + s) A := rfl

theorem exchange_eq_updatePair (p q : Nat) (A : List α) : exchange num p q A = updatePair num Prod.swap (p, q) A := rfl

variable {num} {g : (α × α) × (α × α) → (α × α) × (α × α)} {pq : Nat × Nat} {A : List α}

@[simp] theorem length_updatePair : (updatePair num g pq A).length = A.length := by simp [updatePair]

theorem complexAt_updatePair_ne {j : Nat} (h1 : j ≠ pq.1) (h2 : j ≠ pq.2) :
    complexAt num (updatePair num g pq A) j = complexAt num A j := by
  rw [updatePair, complexAt_setComplex_ne num _ h2, complexAt_setComplex_ne num _ h1]

theorem pairAt_updatePair_same (hfits : PairFits A.length pq) (hne : pq.1 ≠ pq.2) :
    pairAt num (updatePair num g pq A) pq = g (pairAt num A pq) := by
  refine Prod.ext ?_ (complexAt_setComplex_same num _ (by simpa using hfits.2))
  exact (complexAt_setComplex_ne num _ hne).trans (complexAt_setComplex_same num _ hfits.1)

theorem pairAt_butterfly {k : Site} {w : α × α} {s a : Nat} (hs : 1 ≤ s) (hA : 2 * (a + s) + 1 < A.length) :
    pairAt num (butterfly num k w s a A) (a, a + s) = butterflyValues num k w (pairAt num A (a, a + s)) := by
  have hfits : PairFits A.length (a, a + s) := ⟨by omega, hA⟩
  have hne : a ≠ a + s := by omega
  rw [butterfly_eq_updatePair]
  exact pairAt_updatePair_same hfits hne

theorem pairAt_updatePair_apart {b : Nat × Nat} (h : PairsApart b pq) :
    pairAt num (updatePair num g pq A) b = pairAt num A b := by
  obtain ⟨h11, h12, h21, h22⟩ := h
  exact Prod.ext (complexAt_updatePair_ne h11 h12) (complexAt_updatePair_ne h21 h22)

theorem complexAt_append {k : Nat} (h : 2 * k + 1 < A.length) (B : List α) :
    complexAt num (A ++ B) k = complexAt num A k := by
  rw [complexAt, complexAt, List.getD_append _ _ _ _ (Nat.lt_of_succ_lt h), List.getD_append _ _ _ _ h]

theorem setComplex_append {k : Nat} (h : 2 * k + 1 < A.length) (z : α × α) (B : List α) :
    setComplex (A ++ B) k z = setComplex A k z ++ B := by
  rw [setComplex, setComplex, List.set_append_left _ _ (Nat.lt_of_succ_lt h), List.set_append_left _ _ (by simpa using h)]

/-- An update within the first words neither looks at what follows them nor changes it. -/
theorem updatePair_append (hfits : PairFits A.length pq) (B : List α) :
    updatePair num g pq (A ++ B) = updatePair num g pq A ++ B := by
  obtain ⟨h1, h2⟩ := hfits
  simp only [updatePair, pairAt, complexAt_append h1, complexAt_append h2]
  rw [setComplex_append h1, setComplex_append (by simpa using h2)]

end

/-! ### Loops over pairs with no index in common -/

section
variable {α β : Type} (num : Num α)

/-- A loop that updates one pair per pass, at the place and by the function of that pass. -/
def updatePairs (place : β → Nat × Nat) (g : β → (α × α) × (α × α) → (α × α) × (α × α)) (l : List β) (A : List α) :
    List α :=
  l.foldl (fun A b => updatePair num (g b) (place b) A) A

variable {num} {place : β → Nat × Nat} {g : β → (α × α) × (α × α) → (α × α) × (α × α)} {l : List β}

theorem complexAt_updatePairs_ne {j : Nat} (h : ∀ b ∈ l, j ≠ (place b).1 ∧ j ≠ (place b).2) (A : List α) :
    complexAt num (updatePairs num place g l A) j = complexAt num A j := by
  induction l generalizing A with
  | nil => rfl
  | cons b l ih =>
    obtain ⟨⟨h1, h2⟩, hl⟩ := List.forall_mem_cons.1 h
    exact (ih hl _).trans (complexAt_updatePair_ne h1 h2)

/-- Each pair is updated once, from what it held before the loop. -/
theorem pairAt_updatePairs (hapart : l.Pairwise fun b c => PairsApart (place b) (place c))
    (hne : ∀ b ∈ l, (place b).1 ≠ (place b).2) {A : List α} (hfits : ∀ b ∈ l, PairFits A.length (place b)) :
    ∀ b ∈ l, pairAt num (updatePairs num place g l A) (place b) = g b (pairAt num A (place b)) := by
  induction l generalizing A with
  | nil => simp
  | cons c l ih =>
    obtain ⟨hc, hl⟩ := List.pairwise_cons.1 hapart
    obtain ⟨hcfits, hlfits⟩ := List.forall_mem_cons.1 hfits
    intro b hb
    rcases List.mem_cons.1 hb with rfl | hb
    · rw [← pairAt_updatePair_same (g := g b) hcfits (hne b hb)]
      have hkeep {j : Nat} (h : ∀ d ∈ l, j ≠ (place d).1 ∧ j ≠ (place d).2) :=
        complexAt_updatePairs_ne (num := num) (g := g) h (updatePair num (g b) (place b) A)
      refine Prod.ext (hkeep fun d hd => ?_) (hkeep fun d hd => ?_)
      · obtain ⟨h11, h12, -, -⟩ := hc d hd
        exact ⟨h11, h12⟩
      · obtain ⟨-, -, h21, h22⟩ := hc d hd
        exact ⟨h21, h22⟩
    · obtain ⟨h11, h12, h21, h22⟩ := hc b hb
      rw [← pairAt_updatePair_apart (g := g c) (A := A) ⟨h11.symm, h21.symm, h12.symm, h22.symm⟩]
      exact ih hl (fun d hd => hne d (.tail _ hd)) (by simpa using hlfits) b hb

/-- A loop of operations that keep the length, none of which looks at the words after the first ones or changes them. -/
theorem foldl_append_of_step {f : List α → β → List α} (hlen : ∀ A b, (f A b).length = A.length) {A : List α} (B : List α)
    (hf : ∀ A' : List α, A'.length = A.length → ∀ b ∈ l, f (A' ++ B) b = f A' b ++ B) :
    l.foldl f (A ++ B) = l.foldl f A ++ B := by
  induction l generalizing A with
  | nil => rfl
  | cons b l ih =>
    rw [List.foldl_cons, List.foldl_cons, hf A rfl b (.head _)]
    exact ih fun A' hA' c hc => hf A' (hA'.trans (hlen A b)) c (.tail _ hc)

theorem updatePairs_append {A : List α} (hfits : ∀ b ∈ l, PairFits A.length (place b)) (B : List α) :
    updatePairs num place g l (A ++ B) = updatePairs num place g l A ++ B :=
  foldl_append_of_step (fun _ _ => length_updatePair) B fun _ hA' b hb => updatePair_append (hA' ▸ hfits b hb) B

end

/-! ### A stage is such a loop (R103) -/

/-- The passes of a stage: group and index within the group. -/
def stagePasses (m s : Nat) : List (Nat × Nat) := List.range (m / (2 * s)) ×ˢ List.range s

/-- The two elements of the butterfly of a group `t` and an index `i`. -/
def stagePlace (s : Nat) (ti : Nat × Nat) : Nat × Nat := (2 * s * ti.1 + ti.2, 2 * s * ti.1 + ti.2 + s)

theorem mem_stagePasses {m s : Nat} {ti : Nat × Nat} : ti ∈ stagePasses m s ↔ ti.1 < m / (2 * s) ∧ ti.2 < s := by
  rw [stagePasses, List.mem_product, List.mem_range, List.mem_range]

/-- An index within blocks of `b` has one block and one offset. -/
theorem block_offset_inj {b t u x y : Nat} (hx : x < b) (hy : y < b) (h : b * t + x = b * u + y) : t = u ∧ x = y := by
  have hblock := congrArg (· / b) h
  have hoffset := congrArg (· % b) h
  have hb : 0 < b := Nat.zero_lt_of_lt hx
  simp only [Nat.mul_add_div hb, Nat.div_eq_of_lt hx, Nat.div_eq_of_lt hy, Nat.add_zero] at hblock
  simp only [Nat.mul_add_mod, Nat.mod_eq_of_lt hx, Nat.mod_eq_of_lt hy] at hoffset
  exact ⟨hblock, hoffset⟩

theorem stagePlace_apart {s : Nat} {a b : Nat × Nat} (ha : a.2 < s) (hb : b.2 < s) (hne : a ≠ b) :
    PairsApart (stagePlace s a) (stagePlace s b) := by
  have hdiff {x y : Nat} (hx : x < 2 * s) (hy : y < 2 * s) (h : x = y → a.2 = b.2) : 2 * s * a.1 + x ≠ 2 * s * b.1 + y :=
    fun heq => by
      obtain ⟨h1, h2⟩ := block_offset_inj hx hy heq
      exact hne (Prod.ext h1 (h h2))
  simp only [PairsApart, stagePlace, Nat.add_assoc]
  exact ⟨hdiff (by omega) (by omega) id, hdiff (by omega) (by omega) (by omega), hdiff (by omega) (by omega) (by omega),
    hdiff (by omega) (by omega) (by omega)⟩

theorem pairwise_stagePasses (m s : Nat) : (stagePasses m s).Pairwise fun a b => PairsApart (stagePlace s a) (stagePlace s b) :=
  (List.nodup_range.product List.nodup_range).pairwise_of_forall_ne fun _ ha _ hb hne =>
    stagePlace_apart (mem_stagePasses.1 ha).2 (mem_stagePasses.1 hb).2 hne

/-- Every butterfly of a stage works within the `m` elements (R103). -/
theorem stagePlace_fits {m s L : Nat} (hL : 2 * m ≤ L) : ∀ ti ∈ stagePasses m s, PairFits L (stagePlace s ti) := by
  intro ti hti
  obtain ⟨ht, hi⟩ := mem_stagePasses.1 hti
  have hgroup : 2 * s * ti.1 + 2 * s ≤ m := calc
    2 * s * (ti.1 + 1) ≤ 2 * s * (m / (2 * s)) := Nat.mul_le_mul_left _ ht
    _ ≤ m := Nat.mul_div_le _ _
  simp only [PairFits, stagePlace]
  omega

section
variable {α : Type} (num : Num α) (k : Site) (tw : List α) (d : Dir)

/-- What the butterfly of one pass of a stage makes of its two elements. -/
def stageValues (s : Nat) (ti : Nat × Nat) : (α × α) × (α × α) → (α × α) × (α × α) :=
  butterflyValues num ((k.sub s).sub (2 * s * ti.1 + ti.2)) (twiddle num tw d s ti.2)

theorem stage_eq_updatePairs (m s : Nat) (A : List α) :
    stage num k tw d m s A = updatePairs num (stagePlace s) (stageValues num k tw d s) (stagePasses m s) A := by
  simp only [updatePairs, stagePasses, SProd.sprod, List.product, List.foldl_flatMap, List.foldl_map]
  rfl

/-- What a stage makes of the two elements of each of its butterflies (R103). -/
theorem pairAt_stage {m s t i : Nat} (ht : t < m / (2 * s)) (hi : i < s) {A : List α} (hA : 2 * m ≤ A.length) :
    pairAt num (stage num k tw d m s A) (stagePlace s (t, i)) =
      stageValues num k tw d s (t, i) (pairAt num A (stagePlace s (t, i))) := by
  rw [stage_eq_updatePairs]
  refine pairAt_updatePairs (pairwise_stagePasses m s) (fun ti hti => ?_) (stagePlace_fits hA) (t, i)
    (mem_stagePasses.2 ⟨ht, hi⟩)
  have hlt := (mem_stagePasses.1 hti).2
  simp only [stagePlace]
  omega

theorem stage_append {m : Nat} (s : Nat) {A : List α} (hA : 2 * m ≤ A.length) (B : List α) :
    stage num k tw d m s (A ++ B) = stage num k tw d m s A ++ B := by
  simp only [stage_eq_updatePairs]
  exact updatePairs_append (stagePlace_fits hA) B

end

/-! ### The permutation is such a loop over the reversal pairs (R23, R104) -/

theorem reversalRom_eq (m : Nat) : reversalRom m = BitVec.ofNat 32 (pairCount m) ::
    interleave ((reversalPairs m).map (Prod.map (BitVec.ofNat 32) (BitVec.ofNat 32))) := by
  simp [reversalRom, interleave, List.map_flatMap, List.flatMap_map]

theorem reversalRom_count {n : Nat} (hn : n ≤ 16) : ((reversalRom (2 ^ n)).getD 0 0).toNat = (reversalPairs (2 ^ n)).length := by
  obtain ⟨-, hcount⟩ := pairCountIsTheNumberOfPairs n
  have hle : (reversalPairs (2 ^ n)).length ≤ 2 ^ n := (List.length_filter_le _ _).trans (by simp)
  have hpow : 2 ^ n ≤ 2 ^ 16 := Nat.pow_le_pow_right (by decide) hn
  rw [reversalRom_eq, List.getD_cons_zero, BitVec.toNat_ofNat, hcount]
  exact Nat.mod_eq_of_lt (by omega)

/-- The two words of pair `t` in the ROM. -/
theorem reversalRom_pair {n t : Nat} (hn : n ≤ 16) (ht : t < (reversalPairs (2 ^ n)).length) :
    (((reversalRom (2 ^ n)).getD (1 + 2 * t) 0).toNat, ((reversalRom (2 ^ n)).getD (2 + 2 * t) 0).toNat) =
      (reversalPairs (2 ^ n))[t] := by
  obtain ⟨hfst, hsnd, -⟩ := mem_reversalPairs.1 (List.getElem_mem ht)
  have hsnd_lt := hsnd ▸ bitReverse_lt n _
  have hpow : 2 ^ n ≤ 2 ^ 16 := Nat.pow_le_pow_right (by decide) hn
  have hwords := complexAt_interleave Num.binary32 (k := t)
    (zs := (reversalPairs (2 ^ n)).map (Prod.map (BitVec.ofNat 32) (BitVec.ofNat 32))) (by simpa using ht)
  simp only [List.getElem_map, complexAt, Prod.ext_iff, Prod.map] at hwords
  rw [reversalRom_eq, show 1 + 2 * t = 2 * t + 1 by omega, show 2 + 2 * t = 2 * t + 1 + 1 by omega, List.getD_cons_succ,
    List.getD_cons_succ]
  refine Prod.ext ((congrArg BitVec.toNat hwords.1).trans ?_) ((congrArg BitVec.toNat hwords.2).trans ?_)
  · exact Nat.mod_eq_of_lt (by omega)
  · exact Nat.mod_eq_of_lt (by omega)

section
variable {α : Type} (num : Num α) {n : Nat}

theorem permute_eq_updatePairs (hn : n ≤ 16) (A : List α) :
    permute num (reversalRom (2 ^ n)) A = updatePairs num id (fun _ => Prod.swap) (reversalPairs (2 ^ n)) A := by
  have hpairs : reversalPairs (2 ^ n) = (List.range (reversalPairs (2 ^ n)).length).map fun t =>
      (((reversalRom (2 ^ n)).getD (1 + 2 * t) 0).toNat, ((reversalRom (2 ^ n)).getD (2 + 2 * t) 0).toNat) :=
    List.ext_getElem (by simp) fun t ht _ => by rw [List.getElem_map, List.getElem_range, reversalRom_pair hn ht]
  rw [permute, reversalRom_count hn, updatePairs]
  conv_rhs => rw [hpairs, List.foldl_map]
  rfl

theorem reversalPairs_fit {L : Nat} (hL : 2 * 2 ^ n ≤ L) : ∀ pq ∈ reversalPairs (2 ^ n), PairFits L (id pq) := by
  intro pq hpq
  obtain ⟨-, hmem, -⟩ := reversalPairsAreDisjointAndComplete n
  obtain ⟨-, hlt, hsnd⟩ := hmem pq hpq
  simp only [PairFits, id]
  omega

theorem complexAt_permute (hn : n ≤ 16) {A : List α} (hA : 2 * 2 ^ n ≤ A.length) {p : Nat} (hp : p < 2 ^ n) :
    complexAt num (permute num (reversalRom (2 ^ n)) A) p = complexAt num A (bitReverse n p) := by
  obtain ⟨-, hmem, hapart, -⟩ := reversalPairsAreDisjointAndComplete n
  rw [permute_eq_updatePairs num hn]
  by_cases hself : bitReverse n p = p
  · rw [hself]
    refine complexAt_updatePairs_ne (fun pq hpq => ⟨?_, ?_⟩) A
    · rintro rfl
      obtain ⟨hq, hlt, -⟩ := hmem pq hpq
      exact absurd hself (hq ▸ hlt.ne')
    · rintro rfl
      obtain ⟨-, hlt, -⟩ := hmem pq hpq
      exact absurd hself (bitReverse_snd hpq ▸ hlt.ne)
  · obtain ⟨pq, hpq, hside⟩ := exists_mem_reversalPairs hp hself
    have hpair := pairAt_updatePairs (num := num) (g := fun _ => Prod.swap) hapart (fun pq hpq => (hmem pq hpq).2.1.ne)
      (reversalPairs_fit hA) pq hpq
    rcases hside with rfl | rfl
    · rw [← (hmem pq hpq).1]
      exact congrArg Prod.fst hpair
    · rw [bitReverse_snd hpq]
      exact congrArg Prod.snd hpair

theorem permute_append (hn : n ≤ 16) {A : List α} (hA : 2 * 2 ^ n ≤ A.length) (B : List α) :
    permute num (reversalRom (2 ^ n)) (A ++ B) = permute num (reversalRom (2 ^ n)) A ++ B := by
  simp only [permute_eq_updatePairs num hn]
  exact updatePairs_append (reversalPairs_fit hA) B

theorem cfft_append (k : Site) (tw : List α) (d : Dir) (hn : n ≤ 16) {A : List α} (hA : 2 * 2 ^ n ≤ A.length) (B : List α) :
    cfft num k tw (reversalRom (2 ^ n)) (2 ^ n) d (A ++ B) = cfft num k tw (reversalRom (2 ^ n)) (2 ^ n) d A ++ B := by
  have hlen : ∀ (A : List α) s, (stage num k tw d (2 ^ n) s A).length = A.length := fun A s => length_stage num k tw d _ s A
  rw [cfft, cfft, foldl_append_of_step hlen B fun A' hA' s _ => stage_append num k tw d s (hA' ▸ hA) B]
  exact permute_append num hn (hA.trans_eq (length_foldl_of_step _ hlen _ A).symm) B

end

end Sys2Proof.Machine

/-! ### Over the reals: sums of powers of a root of unity (R110) -/

namespace Sys2Proof

section
variable {R : Type} [CommRing R] (ω : R) (a : Nat → R)

/-- Entry `i` of block `q` after `t` stages of decimation in frequency, where the blocks have `s` entries: the sum over the
entries of the input that are `i` modulo `s`, with the kernel of frequency `rev_t(q)`. -/
def decimatedSum (t s q i : Nat) : R := ∑ r ∈ Finset.range (2 ^ t), a (s * r + i) * ω ^ ((s * r + i) * bitReverse t q)

theorem decimatedSum_zero (s i : Nat) : decimatedSum ω a 0 s 0 i = a i := by simp [decimatedSum, bitReverse]

theorem sum_range_even_odd (f : Nat → R) (m : Nat) :
    ∑ r ∈ Finset.range (2 * m), f r = ∑ r ∈ Finset.range m, (f (2 * r) + f (2 * r + 1)) := by
  induction m with
  | zero => rfl
  | succ m ih => rw [Nat.mul_succ, Finset.sum_range_succ, Finset.sum_range_succ, ih, Finset.sum_range_succ, add_assoc]

/-- The sum over the entries `i` modulo `s`, by the halves of each block of `2s` they lie in. -/
theorem decimatedSum_succ (t s q i : Nat) : decimatedSum ω a (t + 1) s q i =
    ∑ r ∈ Finset.range (2 ^ t), (a (2 * s * r + i) * ω ^ ((2 * s * r + i) * bitReverse (t + 1) q) +
      a (2 * s * r + (i + s)) * ω ^ ((2 * s * r + (i + s)) * bitReverse (t + 1) q)) := by
  have heven (r : Nat) : s * (2 * r) + i = 2 * s * r + i := by ring
  have hodd (r : Nat) : s * (2 * r + 1) + i = 2 * s * r + (i + s) := by ring
  simp only [decimatedSum, pow_succ', sum_range_even_odd, heven, hodd]

theorem bitReverse_even (t q : Nat) : bitReverse (t + 1) (2 * q) = bitReverse t q := by simp [bitReverse]

theorem bitReverse_odd (t q : Nat) : bitReverse (t + 1) (2 * q + 1) = 2 ^ t + bitReverse t q := by
  rw [bitReverse, show (2 * q + 1) % 2 = 1 by omega, show (2 * q + 1) / 2 = q by omega, Nat.one_mul]

/-- The first element of a butterfly (R102): the even blocks after one more stage. -/
theorem decimatedSum_even (t s q i : Nat) :
    decimatedSum ω a (t + 1) s (2 * q) i = decimatedSum ω a t (2 * s) q i + decimatedSum ω a t (2 * s) q (i + s) := by
  rw [decimatedSum_succ, bitReverse_even, Finset.sum_add_distrib, decimatedSum, decimatedSum]

/-- The second element of a butterfly (R102): the odd blocks after one more stage, where `s * 2^t` is half the size. -/
theorem decimatedSum_odd {t s : Nat} (hω : ω ^ (s * 2 ^ t) = -1) (q i : Nat) :
    decimatedSum ω a (t + 1) s (2 * q + 1) i =
      (decimatedSum ω a t (2 * s) q i - decimatedSum ω a t (2 * s) q (i + s)) * ω ^ (2 ^ t * i) := by
  rw [decimatedSum_succ, bitReverse_odd, decimatedSum, decimatedSum, ← Finset.sum_sub_distrib, Finset.sum_mul]
  refine Finset.sum_congr rfl fun r _ => ?_
  have hfull : ω ^ (2 * s * r * 2 ^ t) = 1 := by
    rw [show 2 * s * r * 2 ^ t = s * 2 ^ t * 2 * r by ring, pow_mul, pow_mul, hω]
    simp
  have hfirst : ω ^ ((2 * s * r + i) * 2 ^ t) = ω ^ (2 ^ t * i) := by
    rw [Nat.add_mul, pow_add, hfull, one_mul, Nat.mul_comm]
  have hsecond : ω ^ ((2 * s * r + (i + s)) * 2 ^ t) = -ω ^ (2 ^ t * i) := by
    rw [← Nat.add_assoc, Nat.add_mul _ s, pow_add, hfirst, hω, mul_neg_one]
  rw [Nat.mul_add, pow_add, hfirst, Nat.mul_add, pow_add, hsecond]
  ring

end

/-- The kernel's root of unity `e^(d j 2 pi / 2^n)` (R110). -/
noncomputable def kernelRoot (d : Dir) (n : Nat) : ℂ := Complex.exp (d.sign * Complex.I * 2 * Real.pi / 2 ^ n)

theorem kernelRoot_pow (d : Dir) (n x : Nat) :
    kernelRoot d n ^ x = Complex.exp (d.sign * Complex.I * 2 * Real.pi * x / 2 ^ n) := by
  rw [kernelRoot, ← Complex.exp_nat_mul]
  congr 1
  ring

theorem kernelRoot_pow_mul_two_pow (d : Dir) (t j i : Nat) :
    kernelRoot d (t + 1 + j) ^ (2 ^ t * i) = Complex.exp ((d.sign * (Real.pi * i / 2 ^ j) : ℝ) * Complex.I) := by
  rw [kernelRoot_pow]
  congr 1
  push_cast
  field_simp
  ring

/-- Half the size is half a turn. -/
theorem kernelRoot_pow_half (d : Dir) (t j : Nat) : kernelRoot d (t + 1 + j) ^ (2 ^ j * 2 ^ t) = -1 := by
  rw [Nat.mul_comm, kernelRoot_pow_mul_two_pow]
  cases d <;> simp [Dir.sign, Complex.exp_neg, Complex.exp_pi_mul_I]

end Sys2Proof

/-! ### Over the reals: the stages compute those sums (R102, R103, R110) -/

namespace Sys2Proof.Machine

/-- A complex element as a complex number. -/
def toComplex (z : ℝ × ℝ) : ℂ := ⟨z.1, z.2⟩

theorem complexNumberAt_eq (A : List ℝ) (k : Nat) : complexNumberAt A k = toComplex (complexAt (Num.exact ℝ) A k) := rfl

theorem toComplex_cos_sin (θ : ℝ) : toComplex (Real.cos θ, Real.sin θ) = Complex.exp (θ * Complex.I) :=
  Complex.ext (Complex.exp_ofReal_mul_I_re θ).symm (Complex.exp_ofReal_mul_I_im θ).symm

theorem toComplex_cmul (k : Site) (a w : ℝ × ℝ) : toComplex (cmul (Num.exact ℝ) k a w) = toComplex a * toComplex w := rfl

theorem toComplex_butterflyValues (k : Site) (w : ℝ × ℝ) (z : (ℝ × ℝ) × (ℝ × ℝ)) :
    toComplex (butterflyValues (Num.exact ℝ) k w z).1 = toComplex z.1 + toComplex z.2 ∧
    toComplex (butterflyValues (Num.exact ℝ) k w z).2 = (toComplex z.1 - toComplex z.2) * toComplex w :=
  ⟨rfl, toComplex_cmul k _ w⟩

section
variable {tw : List ℝ} {d : Dir} {t j : Nat}

/-- The twiddle of stride `2^j` is a power of the kernel's root (R101). -/
theorem toComplex_twiddle (htw : ExactTwiddles (2 ^ (t + 1 + j)) tw) {i : Nat} (hi : i < 2 ^ j) :
    toComplex (twiddle (Num.exact ℝ) tw d (2 ^ j) i) = kernelRoot d (t + 1 + j) ^ (2 ^ t * i) := by
  have hentry := htw j i hi (Nat.pow_lt_pow_right (by decide) (by omega))
  rw [kernelRoot_pow_mul_two_pow, ← toComplex_cos_sin]
  cases d with
  | forward => simp [twiddle, hentry, Dir.sign]
  | inverse => simp [twiddle, hentry, Dir.sign]

/-- What a stage makes of the two complex numbers of each butterfly. -/
theorem complexNumberAt_stage (k : Site) {A : List ℝ} (htw : ExactTwiddles (2 ^ (t + 1 + j)) tw)
    (hA : 2 * 2 ^ (t + 1 + j) ≤ A.length) {q i : Nat} (hq : q < 2 ^ t) (hi : i < 2 ^ j) :
    complexNumberAt (stage (Num.exact ℝ) k tw d (2 ^ (t + 1 + j)) (2 ^ j) A) (2 * 2 ^ j * q + i) =
      complexNumberAt A (2 * 2 ^ j * q + i) + complexNumberAt A (2 * 2 ^ j * q + (i + 2 ^ j)) ∧
    complexNumberAt (stage (Num.exact ℝ) k tw d (2 ^ (t + 1 + j)) (2 ^ j) A) (2 * 2 ^ j * q + (i + 2 ^ j)) =
      (complexNumberAt A (2 * 2 ^ j * q + i) - complexNumberAt A (2 * 2 ^ j * q + (i + 2 ^ j))) *
        kernelRoot d (t + 1 + j) ^ (2 ^ t * i) := by
  have hgroups : 2 ^ (t + 1 + j) / (2 * 2 ^ j) = 2 ^ t := by
    rw [show 2 ^ (t + 1 + j) = 2 ^ t * (2 * 2 ^ j) by ring, Nat.mul_div_cancel _ (by positivity)]
  have hpair := pairAt_stage (Num.exact ℝ) k tw d (t := q) (hgroups ▸ hq) hi hA
  have hvalues := toComplex_butterflyValues ((k.sub (2 ^ j)).sub (2 * 2 ^ j * q + i)) (twiddle (Num.exact ℝ) tw d (2 ^ j) i)
    (pairAt (Num.exact ℝ) A (stagePlace (2 ^ j) (q, i)))
  rw [← toComplex_twiddle htw hi, ← Nat.add_assoc]
  obtain ⟨hfst, hsnd⟩ := Prod.ext_iff.1 hpair
  exact ⟨(congrArg toComplex hfst).trans hvalues.1, (congrArg toComplex hsnd).trans hvalues.2⟩

end

section
variable {α : Type} (num : Num α) (k : Site) (tw : List α) (d : Dir)

/-- The array after the first `t` stages of a transform of `2^n` elements (R103, R105). -/
def afterStages (n : Nat) (A : List α) (t : Nat) : List α :=
  ((strides (2 ^ n)).take t).foldl (fun A s => stage num k tw d (2 ^ n) s A) A

@[simp] theorem length_afterStages (n : Nat) (A : List α) (t : Nat) : (afterStages num k tw d n A t).length = A.length :=
  length_foldl_of_step _ (fun A s => length_stage num k tw d _ s A) _ A

theorem strides_two_pow (n : Nat) : strides (2 ^ n) = (List.range n).map fun t => 2 ^ n / 2 ^ (t + 1) := by
  rw [strides, Nat.log2_two_pow]

theorem cfft_eq_permute_afterStages (br : List Word) (n : Nat) (A : List α) :
    cfft num k tw br (2 ^ n) d A = permute num br (afterStages num k tw d n A n) := by
  rw [afterStages, List.take_of_length_le (by simp [strides_two_pow]), cfft]

/-- The stage after the first `t` has stride `2^j`, where `j` more follow it. -/
theorem afterStages_succ (t j : Nat) (A : List α) : afterStages num k tw d (t + 1 + j) A (t + 1) =
    stage num k tw d (2 ^ (t + 1 + j)) (2 ^ j) (afterStages num k tw d (t + 1 + j) A t) := by
  have hstride : (strides (2 ^ (t + 1 + j)))[t]? = some (2 ^ j) := by
    have hlt : t < t + 1 + j := by omega
    simp [strides_two_pow, hlt, Nat.pow_div]
  rw [afterStages, List.take_add_one, hstride, List.foldl_append]
  rfl

end

/-- After `t` stages the array holds the sums over the residues of the indices (R110). -/
theorem complexNumberAt_afterStages (k : Site) {tw : List ℝ} (d : Dir) (t : Nat) {j : Nat} (htw : ExactTwiddles (2 ^ (t + j)) tw)
    {A : List ℝ} (hA : 2 * 2 ^ (t + j) ≤ A.length) {q i : Nat} (hq : q < 2 ^ t) (hi : i < 2 ^ j) :
    complexNumberAt (afterStages (Num.exact ℝ) k tw d (t + j) A t) (2 ^ j * q + i) =
      decimatedSum (kernelRoot d (t + j)) (complexNumberAt A) t (2 ^ j) q i := by
  induction t generalizing j q i with
  | zero =>
    obtain rfl : q = 0 := by simpa using hq
    simp only [decimatedSum_zero, Nat.mul_zero, Nat.zero_add]
    rfl
  | succ t ih =>
    obtain ⟨p, hp⟩ := Nat.even_or_odd' q
    have hplt : p < 2 ^ t := by rw [pow_succ] at hq; omega
    have hbefore {i : Nat} (hi : i < 2 * 2 ^ j) :
        complexNumberAt (afterStages (Num.exact ℝ) k tw d (t + 1 + j) A t) (2 * 2 ^ j * p + i) =
          decimatedSum (kernelRoot d (t + 1 + j)) (complexNumberAt A) t (2 * 2 ^ j) p i := by
      have hsize : t + 1 + j = t + (j + 1) := by omega
      rw [← pow_succ'] at hi ⊢
      rw [hsize] at htw hA ⊢
      exact ih htw hA hplt hi
    obtain ⟨hsum, hdiff⟩ := complexNumberAt_stage (d := d) k htw (hA.trans_eq (length_afterStages _ k tw d _ A t).symm) hplt hi
    rw [hbefore (i := i) (by omega), hbefore (i := i + 2 ^ j) (by omega), ← afterStages_succ] at hsum hdiff
    rcases hp with rfl | rfl
    · rw [show 2 ^ j * (2 * p) + i = 2 * 2 ^ j * p + i by ring, hsum, decimatedSum_even]
    · rw [show 2 ^ j * (2 * p + 1) + i = 2 * 2 ^ j * p + (i + 2 ^ j) by ring, hdiff,
        decimatedSum_odd _ _ (kernelRoot_pow_half d t j)]

end Sys2Proof.Machine

/-! ### The effect of `FFT.F` and `FFT.I` (R106 to R108) -/

namespace Sys2Proof.Machine

theorem Arr.ofBuf_injective : Function.Injective Arr.ofBuf := by
  intro b c h
  cases b <;> cases c <;> cases h <;> rfl

namespace State

variable (s : State) (d : Dir) (dst src : Buf)

theorem numerics_eq_num : Spec.numerics s = s.num := by
  rw [Spec.numerics, State.num]
  cases s.params.num <;> rfl

/-- The words a complex transform stores (R106, R107). -/
theorem words_complexTransform : (s.complexTransform d dst src).words (Arr.ofBuf dst) (2 * s.params.n) =
    cfft s.num s.site s.rom.tw s.rom.brn s.params.n d (s.words (Arr.ofBuf src) (2 * s.params.n)) := by
  have hstored := s.words_setWords_same (Arr.ofBuf dst)
    (cfft s.num s.site s.rom.tw s.rom.brn s.params.n d (s.words (Arr.ofBuf src) (2 * s.params.n)))
  rwa [length_cfft, length_words] at hstored

theorem read_complexTransform_outside {a : Nat} (h : Spec.outside (Arr.ofBuf dst) (2 * s.params.n) a) :
    (s.complexTransform d dst src).mem.read a = s.mem.read a :=
  s.read_setWords_outside _ (by simpa [Spec.outside] using h)

/-- Out of place the source keeps its words (R108). -/
theorem words_complexTransform_source {dst src : Buf} (hr : s.ready = true) (hne : dst ≠ src) :
    (s.complexTransform d dst src).words (Arr.ofBuf src) (2 * s.params.n) = s.words (Arr.ofBuf src) (2 * s.params.n) := by
  have hsize := Arr.size_le (s.valid_of_ready hr) (Arr.ofBuf src)
  rw [Arr.size_ofBuf] at hsize
  exact s.words_setWords_other _ (Arr.ofBuf_injective.ne hne.symm) (by simpa using hsize) hsize

/-- In place on a copy in the destination the same words come out (R108). -/
theorem words_complexTransform_copy : (s.complexTransform d dst src).words (Arr.ofBuf dst) (2 * s.params.n) =
    ((s.setWords (Arr.ofBuf dst) (s.words (Arr.ofBuf src) (2 * s.params.n))).complexTransform d dst dst).words (Arr.ofBuf dst)
      (2 * s.params.n) := by
  have hcopy := s.words_setWords_same (Arr.ofBuf dst) (s.words (Arr.ofBuf src) (2 * s.params.n))
  rw [length_words] at hcopy
  have hinplace := words_complexTransform (s.setWords (Arr.ofBuf dst) (s.words (Arr.ofBuf src) (2 * s.params.n))) d dst dst
  rw [setWords_params, hcopy] at hinplace
  exact (s.words_complexTransform d dst src).trans hinplace.symm

end State

end Sys2Proof.Machine

/-! ### The settled statements -/

namespace Sys2Proof

open Machine

/-- Settles O22: after the last stage each block is one element, the Fourier sum of the reversed frequency, and the permutation
puts it in its place. -/
theorem cfftComputesTheFourierSum : Obligations.CfftComputesTheFourierSum := by
  intro n k tw A d _ hn htw hA b hb
  have hpermuted : complexNumberAt (permute (Num.exact ℝ) (reversalRom (2 ^ n)) (afterStages (Num.exact ℝ) k tw d n A n)) b =
      complexNumberAt (afterStages (Num.exact ℝ) k tw d n A n) (2 ^ 0 * bitReverse n b + 0) := by
    rw [pow_zero, Nat.one_mul]
    exact congrArg toComplex (complexAt_permute (Num.exact ℝ) hn (by simpa using hA) hb)
  have hsums := complexNumberAt_afterStages k d n (j := 0) htw hA (bitReverse_lt n b) one_pos
  rw [Nat.add_zero] at hsums
  rw [cfft_eq_permute_afterStages, hpermuted, hsums]
  refine Finset.sum_congr rfl fun m _ => ?_
  rw [bitReverse_bitReverse hb, pow_zero, Nat.one_mul, Nat.add_zero, kernelRoot_pow]
  congr 2
  push_cast
  ring

/-- Settles O20. -/
theorem permutationPutsEachElementAtItsBitReversal : Obligations.PermutationPutsEachElementAtItsBitReversal := by
  refine fun α num n A hn hA => ⟨fun p hp => complexAt_permute num hn hA hp, fun i d hi => ?_⟩
  have hlen : (A.take (2 * 2 ^ n)).length = 2 * 2 ^ n := List.length_take_of_le hA
  rw [← List.take_append_drop (2 * 2 ^ n) A, permute_append num hn hlen.ge,
    List.getD_append_right _ _ _ _ (by simpa [hlen] using hi), List.getD_append_right _ _ _ _ (hlen.trans_le hi), length_permute]

/-- Settles O21: the pairs that the stages and the permutation update all lie in the first `2M` words. -/
theorem cfftReadsAndWritesOnlyItsWords : Obligations.CfftReadsAndWritesOnlyItsWords :=
  fun _ num k tw _ d _ B hn hA => cfft_append num k tw d hn hA.ge B

/-- Settles O19: the two new elements are functions of the old pair, each operation at a site of its own. -/
theorem butterflyUpdatesItsTwoElements : Obligations.ButterflyUpdatesItsTwoElements := by
  intro α num k wr wi s a A hs hA
  refine ⟨fun i => k.sub ([6, 7, 4, 0, 8, 1, 9, 5, 2, 3].getD i 0), fun ar ai br bi ha hb => ?_⟩
  have hpair := pairAt_butterfly (num := num) (k := k) (w := (wr, wi)) hs hA
  rw [pairAt, pairAt, ha, hb] at hpair
  obtain ⟨hfst, hsnd⟩ := Prod.ext_iff.1 hpair
  refine ⟨hfst, hsnd, fun j h1 h2 => ?_, length_butterfly num k _ s a A⟩
  rw [butterfly_eq_updatePair]
  exact complexAt_updatePair_ne h1 h2

/-- Settles O23: the words stored are those of `cfft`, and storing a run of words touches no byte outside it. -/
theorem complexTransformsStoreTheTransformOfTheSource : Obligations.ComplexTransformsStoreTheTransformOfTheSource := by
  intro s dst src _
  rw [s.numerics_eq_num]
  have hwords (d : Dir) := s.words_complexTransform d dst src
  have houtside (d : Dir) (a : Nat) := s.read_complexTransform_outside d dst src (a := a)
  exact ⟨⟨_, rfl, hwords .forward, houtside .forward⟩, ⟨_, rfl, hwords .inverse, houtside .inverse⟩, rfl, rfl⟩

/-- Settles O24: both transforms store the same words, as the copy in the destination is the source. -/
theorem outOfPlaceTransformsKeepTheSource : Obligations.OutOfPlaceTransformsKeepTheSource := by
  intro s dst src mk hr hne hmk
  have hsource (d : Dir) := s.words_complexTransform_source d hr hne
  have hcopy (d : Dir) := s.words_complexTransform_copy d dst src
  rcases hmk with rfl | rfl
  · exact ⟨_, _, rfl, rfl, hsource .forward, hcopy .forward⟩
  · exact ⟨_, _, rfl, rfl, hsource .inverse, hcopy .inverse⟩

end Sys2Proof

/-! PROOFS. Family 41_real_fft: what `RFFT.F` and `RFFT.I` store (R118, R119), the bins of their un-packing and packing loops in terms
of the half-size transform (R117 to R119), and over the reals the packed Fourier bins and the synthesis sum (R116, R120). -/

/-! ### The bins of the two loops, over any number type (R118, R119) -/

namespace Sys2Proof.Machine

section
variable {α : Type} (num : Num α) (k : Site) (tw : List α) (brh : List Word) (rtw : List α) (n : Nat)

/-- A bin of a list that has one bin of its own and then bins `1 .. m-1` by one formula. -/
theorem complexAt_interleave_cons_range (z : α × α) (f : Nat → α × α) {m b : Nat} (h1 : 1 ≤ b) (hb : b < m) :
    complexAt num (interleave (z :: (List.range (m - 1)).map fun t => f (t + 1))) b = f b := by
  obtain ⟨b, rfl⟩ := Nat.exists_eq_add_of_le' h1
  rw [complexAt_interleave num (by rw [List.length_cons, List.length_map, List.length_range]; omega)]
  simp

/-- What both rules do outside their loop: element 0 from the two words of element 0 (R118, R119). -/
def sumAndDifference (z : α × α) : α × α := (num.add (k.sub 1) z.1 z.2, num.sub (k.sub 2) z.1 z.2)

/-- Bins 0 and `N/2` of the forward transform share element 0 (R116, R118). -/
theorem complexAt_realForward_zero (x : List α) : complexAt num (realForward num k tw brh rtw n x) 0 =
    sumAndDifference num k (complexAt num (cfft num (k.sub 0) tw brh (n / 2) .forward x) 0) := rfl

theorem complexAt_realForward (x : List α) {b : Nat} (h1 : 1 ≤ b) (hb : b < n / 2) :
    complexAt num (realForward num k tw brh rtw n x) b =
      unpackBin num ((k.sub 3).sub b) rtw n (cfft num (k.sub 0) tw brh (n / 2) .forward x) b :=
  complexAt_interleave_cons_range num _
    (fun b => unpackBin num ((k.sub 3).sub b) rtw n (cfft num (k.sub 0) tw brh (n / 2) .forward x) b) h1 hb

/-- The array `Z` of the rule: what the packing loop hands to the half-size inverse transform (R119). -/
def halfSizeSpectrum (P : List α) : List α :=
  interleave (sumAndDifference num k (complexAt num P 0) ::
    (List.range (n / 2 - 1)).map fun t => packBin num ((k.sub 3).sub (t + 1)) rtw n P (t + 1))

theorem realInverse_eq_cfft (P : List α) : realInverse num k tw brh rtw n P =
    cfft num (k.sub 0) tw brh (n / 2) .inverse (halfSizeSpectrum num k rtw n P) := rfl

theorem length_halfSizeSpectrum (P : List α) (h : 2 ≤ n) : (halfSizeSpectrum num k rtw n P).length = 2 * (n / 2) := by
  simp only [halfSizeSpectrum, length_interleave, List.length_cons, List.length_map, List.length_range]
  omega

theorem complexAt_halfSizeSpectrum_zero (P : List α) :
    complexAt num (halfSizeSpectrum num k rtw n P) 0 = sumAndDifference num k (complexAt num P 0) := rfl

theorem complexAt_halfSizeSpectrum (P : List α) {b : Nat} (h1 : 1 ≤ b) (hb : b < n / 2) :
    complexAt num (halfSizeSpectrum num k rtw n P) b = packBin num ((k.sub 3).sub b) rtw n P b :=
  complexAt_interleave_cons_range num _ (fun b => packBin num ((k.sub 3).sub b) rtw n P b) h1 hb

end

/-! ### The words a machine stores and computes with (R117 to R119) -/

namespace State

variable (s : State)

/-- A run of words stored from the start of an array: the array holds them, and no byte outside them changes. -/
theorem setWords_stores (A : Arr) {ws : List Word} {n : Nat} (h : ws.length = n) :
    (s.setWords A ws).words A n = ws ∧ ∀ a, Spec.outside A n a → (s.setWords A ws).mem.read a = s.mem.read a := by
  subst h
  exact ⟨s.words_setWords_same A ws, fun _ => s.read_setWords_outside ws⟩

theorem num_half : s.num.half = 0x3F000000#32 := Numerics.record_half _

/-- In every numerics record a machine computes with, a word that is not there reads `+0`. -/
theorem complexAt_num (A : List Word) (b : Nat) : complexAt s.num A b = (A.getD (2 * b) 0, A.getD (2 * b + 1) 0) := by
  rw [complexAt, show s.num.zero = 0 from Numerics.record_zero _]

theorem rotationCoeff_num (rtw : List Word) (n b : Nat) : rotationCoeff s.num rtw n b =
    (if b ≤ n / 4 then rtw.getD (2 * b) 0 else s.num.neg (rtw.getD (2 * (n / 2 - b)) 0),
     if b ≤ n / 4 then rtw.getD (2 * b + 1) 0 else rtw.getD (2 * (n / 2 - b) + 1) 0) := by
  rw [rotationCoeff, complexAt_num, complexAt_num]
  split <;> rfl

end State

/-! ### Over the reals: rotations are powers of the kernel's root (R117, R120) -/

theorem half_two_pow_succ (t : Nat) : 2 ^ (t + 1) / 2 = 2 ^ t := Nat.mul_div_cancel _ two_pos

/-- The powers of the kernel's root by their real and imaginary part. -/
theorem kernelRoot_pow_eq_toComplex (d : Dir) (n x : Nat) : kernelRoot d n ^ x =
    toComplex (Real.cos (2 * Real.pi * x / 2 ^ n), d.sign * Real.sin (2 * Real.pi * x / 2 ^ n)) := by
  have hangle : kernelRoot d n ^ x = Complex.exp ((d.sign * (2 * Real.pi * x / 2 ^ n) : ℝ) * Complex.I) := by
    rw [kernelRoot_pow]
    congr 1
    push_cast
    ring
  rw [hangle, ← toComplex_cos_sin]
  cases d <;> simp [Dir.sign]

theorem conj_kernelRoot_forward_pow (n x : Nat) :
    starRingEnd ℂ (kernelRoot .forward n ^ x) = kernelRoot .inverse n ^ x := by
  rw [kernelRoot_pow_eq_toComplex, kernelRoot_pow_eq_toComplex]
  simp [toComplex, Dir.sign, Complex.ext_iff]

/-- A power of the root at the mirror bin `M - b`, conjugated, is that at bin `b` up to a sign (R118, R119). -/
theorem conj_kernelRoot_pow_mirror (d : Dir) {t b : Nat} (hb : b ≤ 2 ^ t) (x : Nat) :
    starRingEnd ℂ (kernelRoot d (t + 1) ^ (x * (2 ^ t - b))) = (-1) ^ x * kernelRoot d (t + 1) ^ (x * b) := by
  have hhalf : kernelRoot d (t + 1) ^ 2 ^ t = -1 := by simpa using kernelRoot_pow_half d t 0
  have hnorm : ‖kernelRoot d (t + 1)‖ = 1 :=
    Complex.norm_eq_one_of_pow_eq_one (n := 2 ^ t * 2) (by rw [pow_mul, hhalf]; norm_num) (by positivity)
  have hproduct : kernelRoot d (t + 1) ^ (x * (2 ^ t - b)) * kernelRoot d (t + 1) ^ (x * b) = (-1) ^ x := by
    rw [← pow_add, ← Nat.mul_add, Nat.sub_add_cancel hb, Nat.mul_comm, pow_mul, hhalf]
  rw [← Complex.inv_eq_conj (by rw [norm_pow, hnorm, one_pow])]
  refine inv_eq_of_mul_eq_one_right ?_
  rw [mul_left_comm, hproduct, ← mul_pow]
  norm_num

/-- The rotation coefficient of bin `b` is `e^(j 2 pi b / N)`, read from the table or from the mirror entry (R117). -/
theorem toComplex_rotationCoeff {t b : Nat} (ht : 1 ≤ t) {rtw : List ℝ} (hrtw : ExactRotations (2 ^ (t + 1)) rtw)
    (hb : b ≤ 2 ^ t) :
    toComplex (rotationCoeff (Num.exact ℝ) rtw (2 ^ (t + 1)) b) = kernelRoot .forward (t + 1) ^ b := by
  have hquarter : 2 ^ (t + 1) = 4 * 2 ^ (t - 1) := by rw [show t + 1 = t - 1 + 2 by omega, pow_add]; ring
  rw [kernelRoot_pow_eq_toComplex, rotationCoeff]
  split
  case isTrue hle => simp [hrtw b hle, Dir.sign]
  case isFalse hgt =>
    have hangle : 2 * Real.pi * (2 ^ t - b : ℝ) / 2 ^ (t + 1) = Real.pi - 2 * Real.pi * b / 2 ^ (t + 1) := by
      field_simp
      ring
    rw [hrtw (2 ^ (t + 1) / 2 - b) (by omega), half_two_pow_succ]
    push_cast [hb]
    rw [hangle, Real.cos_pi_sub, Real.sin_pi_sub]
    simp [Num.exact, Dir.sign]

/-! ### Over the reals: the two loops and the half-size transform (R118 to R120) -/

section
variable (z y : ℝ × ℝ)

theorem conj_toComplex : starRingEnd ℂ (toComplex z) = toComplex (z.1, -z.2) := rfl

theorem toComplex_half : toComplex (1 / 2 * z.1, 1 / 2 * z.2) = toComplex z / 2 := by
  apply Complex.ext
  · simp [toComplex, div_eq_inv_mul]
  · simp [toComplex, div_eq_inv_mul]

theorem toComplex_add_conj : toComplex (z.1 + y.1, z.2 - y.2) = toComplex z + starRingEnd ℂ (toComplex y) :=
  Complex.ext rfl (sub_eq_add_neg _ _)

theorem toComplex_sub_conj : toComplex (z.1 - y.1, z.2 + y.2) = toComplex z - starRingEnd ℂ (toComplex y) :=
  Complex.ext rfl (sub_neg_eq_add _ _).symm

theorem toComplex_neg_I_mul_sub_conj :
    toComplex (z.2 + y.2, y.1 - z.1) = -Complex.I * (toComplex z - starRingEnd ℂ (toComplex y)) := by
  rw [← toComplex_sub_conj]
  apply Complex.ext
  · simp [toComplex]
  · simp [toComplex]

theorem toComplex_add_I_mul : toComplex (z.1 - y.2, z.2 + y.1) = toComplex z + Complex.I * toComplex y := by
  apply Complex.ext
  · simp [toComplex, sub_eq_add_neg]
  · simp [toComplex]

end

/-- An un-packed bin is `E + w O` (R118). -/
theorem toComplex_unpackBin (k : Site) (rtw : List ℝ) (n : Nat) (Z : List ℝ) (b : Nat) :
    toComplex (unpackBin (Num.exact ℝ) k rtw n Z b) =
      (complexNumberAt Z b + starRingEnd ℂ (complexNumberAt Z (n / 2 - b))) / 2 +
      -Complex.I * (complexNumberAt Z b - starRingEnd ℂ (complexNumberAt Z (n / 2 - b))) / 2 *
        toComplex (rotationCoeff (Num.exact ℝ) rtw n b) := by
  rw [complexNumberAt_eq, complexNumberAt_eq, ← toComplex_add_conj, ← toComplex_neg_I_mul_sub_conj, ← toComplex_half,
    ← toComplex_half]
  rfl

/-- A packed element is `S + j v D`, `v = conj w` (R119). -/
theorem toComplex_packBin (k : Site) (rtw : List ℝ) (n : Nat) (P : List ℝ) (b : Nat) :
    toComplex (packBin (Num.exact ℝ) k rtw n P b) =
      complexNumberAt P b + starRingEnd ℂ (complexNumberAt P (n / 2 - b)) +
      Complex.I * ((complexNumberAt P b - starRingEnd ℂ (complexNumberAt P (n / 2 - b))) *
        starRingEnd ℂ (toComplex (rotationCoeff (Num.exact ℝ) rtw n b))) := by
  rw [complexNumberAt_eq, complexNumberAt_eq, ← toComplex_add_conj, ← toComplex_sub_conj, conj_toComplex, ← toComplex_cmul k,
    ← toComplex_add_I_mul]
  rfl

section
variable (k : Site) {t : Nat} {tw : List ℝ}

/-- The half-size transform by powers of the full-size root (R110, R115). -/
theorem complexNumberAt_cfft_half (d : Dir) (h1 : 1 ≤ t) (h16 : t ≤ 16) (htw : ExactTwiddles (2 ^ (t + 1)) tw) {A : List ℝ}
    (hA : 2 * 2 ^ t ≤ A.length) {b : Nat} (hb : b < 2 ^ t) :
    complexNumberAt (cfft (Num.exact ℝ) k tw (reversalRom (2 ^ t)) (2 ^ t) d A) b =
      ∑ m ∈ Finset.range (2 ^ t), complexNumberAt A m * kernelRoot d (t + 1) ^ (2 * m * b) := by
  have hhalf : ExactTwiddles (2 ^ t) tw := fun u i hi hu => htw u i hi (hu.trans (Nat.pow_lt_pow_succ one_lt_two))
  rw [cfftComputesTheFourierSum t k tw A d h1 h16 hhalf hA b hb]
  refine Finset.sum_congr rfl fun m _ => ?_
  rw [kernelRoot_pow]
  congr 2
  push_cast
  field_simp
  ring

theorem complexNumberAt_eq_add (A : List ℝ) (m : Nat) :
    complexNumberAt A m = (A.getD (2 * m) 0 : ℝ) + (A.getD (2 * m + 1) 0 : ℝ) * Complex.I := Complex.mk_eq_add_mul_I _ _

theorem conj_complexNumberAt (A : List ℝ) (m : Nat) :
    starRingEnd ℂ (complexNumberAt A m) = (A.getD (2 * m) 0 : ℝ) - (A.getD (2 * m + 1) 0 : ℝ) * Complex.I := by
  simp [complexNumberAt_eq_add, sub_eq_add_neg]

/-! ### Over the reals: the packed Fourier bins (R116, R120) -/

section
variable {rtw x : List ℝ} (h1 : 1 ≤ t) (h16 : t ≤ 16) (htw : ExactTwiddles (2 ^ (t + 1)) tw) (hx : 2 * 2 ^ t ≤ x.length)
include h1 h16 htw hx

/-- The mirror bin of the half-size transform, conjugated, is the sum of the conjugated elements at the bin itself. -/
theorem conj_complexNumberAt_cfft_mirror {b : Nat} (hb : b ∈ Finset.Ico 1 (2 ^ t)) :
    starRingEnd ℂ (complexNumberAt (cfft (Num.exact ℝ) k tw (reversalRom (2 ^ t)) (2 ^ t) .forward x) (2 ^ t - b)) =
      ∑ m ∈ Finset.range (2 ^ t), starRingEnd ℂ (complexNumberAt x m) * kernelRoot .forward (t + 1) ^ (2 * m * b) := by
  obtain ⟨hpos, hlt⟩ := Finset.mem_Ico.1 hb
  rw [complexNumberAt_cfft_half k .forward h1 h16 htw hx (by omega), map_sum]
  refine Finset.sum_congr rfl fun m _ => ?_
  rw [map_mul, conj_kernelRoot_pow_mirror _ hlt.le, pow_mul (-1 : ℂ)]
  simp

/-- Bin `b`: the even samples make up `E`, the odd ones `O`. -/
theorem complexNumberAt_realForward (hrtw : ExactRotations (2 ^ (t + 1)) rtw) {b : Nat} (hb : b ∈ Finset.Ico 1 (2 ^ t)) :
    complexNumberAt (realForward (Num.exact ℝ) k tw (reversalRom (2 ^ t)) rtw (2 ^ (t + 1)) x) b =
      ∑ m ∈ Finset.range (2 ^ (t + 1)), (x.getD m 0 : ℂ) * kernelRoot .forward (t + 1) ^ (m * b) := by
  obtain ⟨hpos, hlt⟩ := Finset.mem_Ico.1 hb
  rw [complexNumberAt_eq, complexAt_realForward _ _ _ _ _ _ _ hpos (by rwa [half_two_pow_succ]), toComplex_unpackBin,
    toComplex_rotationCoeff h1 hrtw hlt.le, half_two_pow_succ, conj_complexNumberAt_cfft_mirror _ h1 h16 htw hx hb,
    complexNumberAt_cfft_half _ .forward h1 h16 htw hx hlt, pow_succ' 2 t, sum_range_even_odd,
    ← Finset.sum_add_distrib, ← Finset.sum_sub_distrib, Finset.mul_sum, Finset.sum_div, Finset.sum_div, Finset.sum_mul,
    ← Finset.sum_add_distrib]
  refine Finset.sum_congr rfl fun m _ => ?_
  rw [conj_complexNumberAt, complexNumberAt_eq_add, Nat.add_mul, Nat.one_mul, pow_add]
  linear_combination (-(x.getD (2 * m + 1) 0 : ℂ) * kernelRoot .forward (t + 1) ^ (2 * m * b) *
    kernelRoot .forward (t + 1) ^ b) * Complex.I_sq

/-- Element 0 of the half-size transform sums the even and the odd samples. -/
theorem complexNumberAt_cfft_zero :
    complexNumberAt (cfft (Num.exact ℝ) k tw (reversalRom (2 ^ t)) (2 ^ t) .forward x) 0 =
      ⟨∑ m ∈ Finset.range (2 ^ t), x.getD (2 * m) 0, ∑ m ∈ Finset.range (2 ^ t), x.getD (2 * m + 1) 0⟩ := by
  rw [complexNumberAt_cfft_half k .forward h1 h16 htw hx (by positivity)]
  apply Complex.ext
  · simp [complexNumberAt]
  · simp [complexNumberAt]

/-- Element 0 of the packed spectrum: DC and Nyquist bin (R116). -/
theorem realForward_dc_nyquist :
    complexAt (Num.exact ℝ) (realForward (Num.exact ℝ) k tw (reversalRom (2 ^ t)) rtw (2 ^ (t + 1)) x) 0 =
      (∑ m ∈ Finset.range (2 ^ (t + 1)), x.getD m 0, ∑ m ∈ Finset.range (2 ^ (t + 1)), (-1) ^ m * x.getD m 0) := by
  obtain ⟨hre, him⟩ := Complex.ext_iff.1 (complexNumberAt_cfft_zero (k.sub 0) h1 h16 htw hx)
  rw [complexAt_realForward_zero, half_two_pow_succ]
  refine Prod.ext ((congrArg₂ (· + ·) hre him).trans ?_) ((congrArg₂ (· - ·) hre him).trans ?_)
  · rw [pow_succ', sum_range_even_odd, Finset.sum_add_distrib]
  · simp [pow_succ' 2 t, sum_range_even_odd, pow_succ, pow_mul, Finset.sum_sub_distrib, ← sub_eq_add_neg]

end

/-! ### Over the reals: the synthesis sum (R120) -/

/-- Bin `b`'s part in sample `x`, a complex number: `P_b e^(-j 2 pi x b / N)`, `N = 2^(t+1)`. -/
noncomputable def binTerm (P : List ℝ) (t x b : Nat) : ℂ := complexNumberAt P b * kernelRoot .inverse (t + 1) ^ (x * b)

theorem re_binTerm (P : List ℝ) (t x b : Nat) : (binTerm P t x b).re =
    P.getD (2 * b) 0 * Real.cos (2 * Real.pi * x * b / 2 ^ (t + 1)) +
      P.getD (2 * b + 1) 0 * Real.sin (2 * Real.pi * x * b / 2 ^ (t + 1)) := by
  rw [binTerm, kernelRoot_pow_eq_toComplex]
  simp [complexNumberAt, toComplex, Dir.sign, mul_assoc]

/-- Sample `x` of the synthesis sum (R120). -/
noncomputable def synthesisSum (P : List ℝ) (t x : Nat) : ℝ :=
  P.getD 0 0 + (-1) ^ x * P.getD 1 0 + 2 * ∑ b ∈ Finset.Ico 1 (2 ^ t), (binTerm P t x b).re

/-- A bin and its mirror, conjugated, add up to twice the real part over all bins. -/
theorem sum_binTerm_add_conj_mirror (P : List ℝ) (t x : Nat) :
    ∑ b ∈ Finset.Ico 1 (2 ^ t), (binTerm P t x b + starRingEnd ℂ (binTerm P t x (2 ^ t - b))) =
      (2 * ∑ b ∈ Finset.Ico 1 (2 ^ t), (binTerm P t x b).re : ℝ) := by
  have hmirror := Finset.sum_Ico_reflect (fun b => starRingEnd ℂ (binTerm P t x b)) 1 (Nat.le_succ (2 ^ t))
  rw [Nat.add_sub_cancel_left, Nat.add_sub_cancel] at hmirror
  rw [Finset.sum_add_distrib, hmirror, ← Finset.sum_add_distrib, Finset.mul_sum, Complex.ofReal_sum]
  exact Finset.sum_congr rfl fun b _ => Complex.add_conj _

section
variable {rtw P : List ℝ}

/-- An element of the half-size spectrum in the inverse transform: the even sample is the real part, the odd one the imaginary
part (R119). -/
theorem complexNumberAt_halfSizeSpectrum_mul (h1 : 1 ≤ t) (hrtw : ExactRotations (2 ^ (t + 1)) rtw) {b : Nat}
    (hb : b ∈ Finset.Ico 1 (2 ^ t)) (m : Nat) :
    complexNumberAt (halfSizeSpectrum (Num.exact ℝ) k rtw (2 ^ (t + 1)) P) b * kernelRoot .inverse (t + 1) ^ (2 * b * m) =
      (binTerm P t (2 * m) b + starRingEnd ℂ (binTerm P t (2 * m) (2 ^ t - b))) +
      (binTerm P t (2 * m + 1) b + starRingEnd ℂ (binTerm P t (2 * m + 1) (2 ^ t - b))) * Complex.I := by
  obtain ⟨hpos, hlt⟩ := Finset.mem_Ico.1 hb
  rw [complexNumberAt_eq, complexAt_halfSizeSpectrum _ _ _ _ _ hpos (by rwa [half_two_pow_succ]), toComplex_packBin,
    toComplex_rotationCoeff h1 hrtw hlt.le, conj_kernelRoot_forward_pow, half_two_pow_succ]
  simp only [binTerm, map_mul, conj_kernelRoot_pow_mirror _ hlt.le]
  have heven : ((-1 : ℂ)) ^ (2 * m) = 1 := by simp
  rw [pow_succ (-1 : ℂ), heven, Nat.add_mul, pow_add, Nat.mul_right_comm]
  ring

/-- The inverse transform's samples are the synthesis sums (R119, R120). -/
theorem complexNumberAt_realInverse (h1 : 1 ≤ t) (h16 : t ≤ 16) (htw : ExactTwiddles (2 ^ (t + 1)) tw)
    (hrtw : ExactRotations (2 ^ (t + 1)) rtw) {m : Nat} (hm : m < 2 ^ t) :
    complexNumberAt (realInverse (Num.exact ℝ) k tw (reversalRom (2 ^ t)) rtw (2 ^ (t + 1)) P) m =
      ⟨synthesisSum P t (2 * m), synthesisSum P t (2 * m + 1)⟩ := by
  have hlen : 2 * 2 ^ t ≤ (halfSizeSpectrum (Num.exact ℝ) k rtw (2 ^ (t + 1)) P).length := by
    rw [length_halfSizeSpectrum _ _ _ _ _ (Nat.le_self_pow (by omega) 2), half_two_pow_succ]
  have hzero : complexNumberAt (halfSizeSpectrum (Num.exact ℝ) k rtw (2 ^ (t + 1)) P) 0 =
      ⟨P.getD 0 0 + P.getD 1 0, P.getD 0 0 - P.getD 1 0⟩ := rfl
  rw [realInverse_eq_cfft, half_two_pow_succ, complexNumberAt_cfft_half _ .inverse h1 h16 htw hlen hm, Finset.range_eq_Ico,
    Finset.sum_eq_sum_Ico_succ_bot (by positivity), hzero,
    Finset.sum_congr rfl fun b hb => complexNumberAt_halfSizeSpectrum_mul k h1 hrtw hb m, Finset.sum_add_distrib,
    ← Finset.sum_mul, sum_binTerm_add_conj_mirror, sum_binTerm_add_conj_mirror]
  apply Complex.ext
  · simp [synthesisSum]
  · simp [synthesisSum, pow_succ, sub_eq_add_neg]

end

end

end Sys2Proof.Machine

/-! ### The settled statements -/

namespace Sys2Proof

open Machine

/-- Settles O26: each transform stores its `N` words from the start of the destination, and a valid size is even. -/
theorem realTransformsStoreInTheFirstWords : Obligations.RealTransformsStoreInTheFirstWords := by
  intro s dst src hr
  have hvalid := s.valid_of_ready hr
  have heven := size_even_of_valid hvalid
  have hpos : 0 < s.params.n := by
    obtain ⟨⟨-, h4, -⟩, -⟩ := hvalid
    omega
  rw [s.numerics_eq_num]
  exact ⟨⟨_, rfl, s.setWords_stores _ (length_realForward s.num _ _ _ _ _ heven hpos)⟩,
    ⟨_, rfl, s.setWords_stores _ (length_realInverse s.num _ _ _ _ _ heven hpos)⟩, rfl, rfl⟩

/-- Settles O27: the bins of the two loops by words, each operation at the site the loop gives it. -/
theorem realTransformsCombineTheHalfSizeBins : Obligations.RealTransformsCombineTheHalfSizeBins := by
  intro s k tw rtw brh n x hn
  rw [s.numerics_eq_num]
  refine ⟨⟨k.sub 0, k.sub 1, k.sub 2,
      fun b i => ((k.sub 3).sub b).sub ([11, 10, 13, 12, 15, 14, 17, 16, 18, 4, 0, 1, 19, 5, 2, 3].getD i 0), ?_⟩,
    k.sub 0, k.sub 1, k.sub 2,
      fun b i => ((k.sub 3).sub b).sub ([10, 11, 12, 13, 4, 0, 1, 5, 2, 3, 14, 15].getD i 0), halfSizeSpectrum s.num k rtw n x,
      realInverse_eq_cfft s.num k tw brh rtw n x, length_halfSizeSpectrum s.num k rtw n x (by omega), ?_⟩
  · have hfirst := complexAt_realForward_zero s.num k tw brh rtw n x
    simp only [sumAndDifference, s.complexAt_num] at hfirst
    obtain ⟨hdc, hnyquist⟩ := Prod.ext_iff.1 hfirst
    refine ⟨hdc, hnyquist, fun b h1 hb => ?_⟩
    have hbin := complexAt_realForward s.num k tw brh rtw n x h1 hb
    simp only [unpackBin, cmul, s.complexAt_num, s.rotationCoeff_num, s.num_half] at hbin
    exact Prod.ext_iff.1 hbin
  · have hfirst := complexAt_halfSizeSpectrum_zero s.num k rtw n x
    simp only [sumAndDifference, s.complexAt_num] at hfirst
    obtain ⟨hre, him⟩ := Prod.ext_iff.1 hfirst
    refine ⟨hre, him, fun b h1 hb => ?_⟩
    have hbin := complexAt_halfSizeSpectrum s.num k rtw n x h1 hb
    simp only [packBin, cmul, s.complexAt_num, s.rotationCoeff_num] at hbin
    exact Prod.ext_iff.1 hbin

/-- Settles O28: element 0 sums the even and the odd samples, and every other bin joins their half-size transforms. -/
theorem realForwardComputesTheFourierBins : Obligations.RealForwardComputesTheFourierBins := by
  intro n k tw rtw x h2 h16 htw hrtw hx
  obtain ⟨t, rfl⟩ := Nat.exists_eq_add_of_le' (Nat.le_of_succ_le h2)
  have h1 : 1 ≤ t := by omega
  have h16' : t ≤ 16 := by omega
  have hx' : 2 * 2 ^ t ≤ x.length := by rw [hx, pow_succ']
  rw [half_two_pow_succ]
  obtain ⟨hdc, hnyquist⟩ := Prod.ext_iff.1 (realForward_dc_nyquist k (rtw := rtw) h1 h16' htw hx')
  refine ⟨length_realForward _ _ _ _ _ _ (dvd_pow_self 2 (by omega)) (by positivity), hdc, hnyquist, fun b hpos hb => ?_⟩
  rw [complexNumberAt_realForward k h1 h16' htw hx' hrtw (Finset.mem_Ico.2 ⟨hpos, hb⟩)]
  refine Finset.sum_congr rfl fun m _ => ?_
  rw [kernelRoot_pow]
  congr 2
  rw [Dir.sign]
  push_cast
  ring

/-- Settles O29: the even samples are the real parts, the odd ones the imaginary parts of the half-size inverse transform. -/
theorem realInverseComputesTheSynthesisSum : Obligations.RealInverseComputesTheSynthesisSum := by
  intro n k tw rtw P h2 h16 htw hrtw hP
  obtain ⟨t, rfl⟩ := Nat.exists_eq_add_of_le' (Nat.le_of_succ_le h2)
  rw [half_two_pow_succ]
  refine ⟨length_realInverse _ _ _ _ _ _ (dvd_pow_self 2 (by omega)) (by positivity), fun m hm => ?_⟩
  simp only [← re_binTerm]
  have hsamples {i : Nat} (hi : i < 2 ^ t) :=
    Complex.ext_iff.1 (complexNumberAt_realInverse k (P := P) (by omega) (by omega) htw hrtw hi)
  obtain ⟨i, rfl | rfl⟩ := Nat.even_or_odd' m
  · exact (hsamples (by rw [pow_succ] at hm; omega)).1
  · exact (hsamples (by rw [pow_succ] at hm; omega)).2

end Sys2Proof

/-! PROOFS. Family 42_ring_buffers: what the ring primitives leave in the ring and in every other byte (R125, R126), an addition of a
zero (R130), and a hop of zero magnitudes and zero phases as a computation on zeros alone (R147 item 2). -/

/-! ### Exact magnitudes and zeros (R10, R15, R130) -/

namespace Sys2Proof.F32

/-- A magnitude that is a pattern's own is rounded to that pattern. -/
theorem roundUnits_magUnits {m : Nat} (hm : m ≤ infMag) : roundUnits (magUnits m) 1 = m := by
  obtain ⟨p, r, ⟨hlower, hupper, hnearer, -⟩, hround⟩ := roundUnits_eq_min (magUnits m) Nat.one_pos
  simp only [Nat.mul_one] at hlower hupper hnearer
  obtain rfl : p = m :=
    le_antisymm (magUnits_strictMono.le_iff_le.1 hlower) (Nat.lt_succ_iff.1 (magUnits_strictMono.lt_iff_lt.1 hupper))
  obtain rfl : r = p := by omega
  rw [hround, min_eq_left hm]

theorem roundUnits_zero (den : Nat) : roundUnits 0 den = 0 := by simp [roundUnits]

theorem roundUnits_pos {num den : Nat} (hden : 0 < den) (h : den ≤ num) : 0 < roundUnits num den := by
  obtain ⟨p, r, hp, hround⟩ := roundUnits_eq_min num hden
  have hne : p ≠ 0 := by
    rintro rfl
    exact absurd hp.upper (by simpa [magUnits] using h)
  have hr := hp.nearer
  rw [hround, infMag]
  omega

theorem isZero_iff {w : Word} : isZero w = true ↔ mag w = 0 := by simp [isZero]

theorem isZero_pack_zero (s : Bool) : isZero (pack s 0) = true := isZero_iff.2 (mag_pack (by decide))

theorem ival_eq_zero_iff {w : Word} : ival w = 0 ↔ mag w = 0 := by
  have hunits : units w = 0 ↔ mag w = 0 := magUnits_strictMono.injective.eq_iff (b := 0)
  rw [ival]
  split <;> simpa using hunits

theorem ival_neg_iff {w : Word} (h : mag w ≠ 0) : ival w < 0 ↔ sign w = true := by
  have hpos : 0 < units w := magUnits_strictMono (Nat.pos_of_ne_zero h)
  rw [ival]
  cases sign w <;> simp [hpos]

theorem natAbs_ival (w : Word) : (ival w).natAbs = magUnits (mag w) := by
  rw [ival, units_eq_magUnits]
  split <;> simp

theorem isFinite_of_isZero {w : Word} (h : isZero w = true) : isFinite w = true := by
  rw [isFinite_iff, isZero_iff.1 h]
  decide

theorem isInf_or_isFinite {w : Word} (h : isNaN w = false) : isInf w = true ∨ isFinite w = true := by
  simp only [isNaN, isInf, isFinite, decide_eq_true_eq, decide_eq_false_iff_not, not_lt] at *
  exact h.eq_or_lt

section
variable (k : Site) {a b : Word}

/-- Adding a zero leaves every finite word that is no zero: its sum is exact (R130). -/
theorem add_zero_of_isFinite (ha : isFinite a = true) (hne : isZero a = false) (hb : isZero b = true) : add k a b = a := by
  have hmag : mag a ≠ 0 := by simpa [isZero] using hne
  rw [add_of_isFinite k ha (isFinite_of_isZero hb), ival_eq_zero_iff.2 (isZero_iff.1 hb), add_zero,
    if_neg (mt ival_eq_zero_iff.1 hmag), natAbs_ival, roundUnits_magUnits ((isFinite_iff a).1 ha).le]
  simp only [ival_neg_iff hmag, Bool.decide_eq_true]
  exact pack_sign_mag a

theorem add_zero_of_isInf (ha : isInf a = true) (hb : isZero b = true) : add k a b = a := by
  have hfin := isFinite_of_isZero hb
  have hnan : isNaN a = false := by
    rw [isInf, decide_eq_true_eq] at ha
    simp [isNaN, ha]
  simp [add, hnan, ha, isNaN_eq_false_of_isFinite hfin, isInf_eq_false_of_isFinite hfin]

/-- The sum of two zeros is a zero, `-0` only from two negative ones (R130). -/
theorem add_of_isZero (ha : isZero a = true) (hb : isZero b = true) : add k a b = pack (sign a && sign b) 0 := by
  rw [add_of_isFinite k (isFinite_of_isZero ha) (isFinite_of_isZero hb), ival_eq_zero_iff.2 (isZero_iff.1 ha),
    ival_eq_zero_iff.2 (isZero_iff.1 hb), add_zero, if_pos rfl, Int.natAbs_zero, roundUnits_zero]

theorem add_posZero_of_isZero (hb : isZero b = true) : add k 0 b = 0 := by
  rw [add_of_isZero k (by decide) hb, show sign 0 = false by decide, Bool.false_and]
  decide

theorem isZero_add (ha : isZero a = true) (hb : isZero b = true) : isZero (add k a b) = true := by
  rw [add_of_isZero k ha hb]
  exact isZero_pack_zero _

theorem isZero_sub (ha : isZero a = true) (hb : isZero b = true) : isZero (sub k a b) = true :=
  isZero_add k ha (by simpa [isZero] using hb)

theorem isZero_mul (ha : isZero a = true) (hb : isFinite b = true) : isZero (mul k a b) = true := by
  have hunits : units a = 0 := congrArg magUnits (isZero_iff.1 ha)
  rw [mul_of_isFinite k (isFinite_of_isZero ha) hb, hunits, Nat.zero_mul, roundUnits_zero]
  exact isZero_pack_zero _

/-- A zero divided by a word that is neither a zero nor a NaN is a zero. -/
theorem isZero_div (ha : isZero a = true) (hne : isZero b = false) (hb : isNaN b = false) : isZero (div k a b) = true := by
  have hfin := isFinite_of_isZero ha
  have hunits : units a = 0 := congrArg magUnits (isZero_iff.1 ha)
  simp only [div, isNaN_eq_false_of_isFinite hfin, isInf_eq_false_of_isFinite hfin, hb, hne, hunits, Nat.zero_mul,
    roundUnits_zero, Bool.or_self, Bool.false_eq_true, if_false]
  split <;> exact isZero_pack_zero _

end

/-! `rnd` of a ratio: never a NaN, and no zero from one unit on. -/

theorem mag_ofRatio (s : Bool) (num den : Nat) : mag (ofRatio s num den) = roundUnits (num * one) den :=
  mag_pack ((roundUnits_le_infMag _ _).trans_lt (by decide))

theorem isNaN_ofRatio (s : Bool) (num den : Nat) : isNaN (ofRatio s num den) = false := isNaN_pack (roundUnits_le_infMag _ _)

theorem isZero_ofRatio_of_pos (s : Bool) {n : Nat} (hn : 0 < n) : isZero (ofRatio s n 1) = false := by
  have hone : 0 < n * one := Nat.mul_pos hn (by decide)
  simp only [isZero, mag_ofRatio, decide_eq_false_iff_not]
  exact (roundUnits_pos Nat.one_pos hone).ne'

/-- Every draw is finite (R137). -/
theorem isFinite_ofDraw (j : BitVec 24) : isFinite (ofDraw j) = true := by
  have hj := j.isLt
  rw [isFinite_iff, ofDraw, mag_ofRatio]
  refine (roundUnits_le_infMag _ _).lt_of_ne fun h => ?_
  rw [roundUnits_eq_infMag_iff (by decide), one] at h
  omega

end Sys2Proof.F32

/-! ### The transform of zeros (R102 to R105) -/

namespace Sys2Proof.Machine

/-- Every word of the array is `+0` or `-0`. -/
def ZeroWords (A : List Word) : Prop := ∀ w ∈ A, F32.isZero w = true

/-- Both words of the complex element are `+0` or `-0`. -/
def ZeroPair (z : Word × Word) : Prop := F32.isZero z.1 = true ∧ F32.isZero z.2 = true

/-- What holds of every element of a list and of the default holds of whatever the list reads as. -/
theorem forall_getD {α : Type} {P : α → Prop} {l : List α} {d : α} (hl : ∀ x ∈ l, P x) (hd : P d) (i : Nat) :
    P (l.getD i d) := by
  rw [List.getD_eq_getElem?_getD]
  rcases h : l[i]? with _ | x
  · exact hd
  · exact hl x (List.mem_of_getElem? h)

/-- Both words of the twiddle are finite, the inverse one's negated sine too (R73 d). -/
theorem isFinite_twiddle {tw : List Word} (htw : ∀ w ∈ tw, F32.isFinite w = true) (d : Dir) (s i : Nat) :
    F32.isFinite (twiddle Num.binary32 tw d s i).1 = true ∧ F32.isFinite (twiddle Num.binary32 tw d s i).2 = true := by
  have hword := forall_getD (d := Num.binary32.zero) htw (by decide)
  cases d with
  | forward => exact ⟨hword _, hword _⟩
  | inverse => exact ⟨hword _, (F32.isFinite_neg _).trans (hword _)⟩

theorem zeroPair_cmul (k : Site) {a w : Word × Word} (ha : ZeroPair a) (h1 : F32.isFinite w.1 = true)
    (h2 : F32.isFinite w.2 = true) : ZeroPair (cmul Num.binary32 k a w) :=
  ⟨F32.isZero_sub _ (F32.isZero_mul _ ha.1 h1) (F32.isZero_mul _ ha.2 h2),
    F32.isZero_add _ (F32.isZero_mul _ ha.1 h2) (F32.isZero_mul _ ha.2 h1)⟩

namespace ZeroWords

variable {A : List Word}

theorem getD (hA : ZeroWords A) (i : Nat) : F32.isZero (A.getD i Num.binary32.zero) = true :=
  forall_getD hA (by decide) i

theorem complexAt (hA : ZeroWords A) (j : Nat) : ZeroPair (complexAt Num.binary32 A j) := ⟨hA.getD _, hA.getD _⟩

theorem setComplex (hA : ZeroWords A) (j : Nat) {z : Word × Word} (hz : ZeroPair z) : ZeroWords (setComplex A j z) := by
  intro w hw
  rcases List.mem_or_eq_of_mem_set hw with hw | rfl
  · rcases List.mem_or_eq_of_mem_set hw with hw | rfl
    · exact hA w hw
    · exact hz.1
  · exact hz.2

theorem updatePair (hA : ZeroWords A) {g : (Word × Word) × (Word × Word) → (Word × Word) × (Word × Word)}
    (hg : ∀ z, ZeroPair z.1 → ZeroPair z.2 → ZeroPair (g z).1 ∧ ZeroPair (g z).2) (pq : Nat × Nat) :
    ZeroWords (updatePair Num.binary32 g pq A) := by
  obtain ⟨h1, h2⟩ := hg (pairAt Num.binary32 A pq) (hA.complexAt pq.1) (hA.complexAt pq.2)
  exact (hA.setComplex _ h1).setComplex _ h2

theorem stage (hA : ZeroWords A) (k : Site) {tw : List Word} (htw : ∀ w ∈ tw, F32.isFinite w = true) (d : Dir) (m s : Nat) :
    ZeroWords (stage Num.binary32 k tw d m s A) := by
  rw [stage_eq_updatePairs]
  refine List.foldlRecOn _ _ hA fun A' hA' ti _ => hA'.updatePair (fun z h1 h2 => ?_) _
  obtain ⟨hcos, hsin⟩ := isFinite_twiddle htw d s ti.2
  exact ⟨⟨F32.isZero_add _ h1.1 h2.1, F32.isZero_add _ h1.2 h2.2⟩,
    zeroPair_cmul _ ⟨F32.isZero_sub _ h1.1 h2.1, F32.isZero_sub _ h1.2 h2.2⟩ hcos hsin⟩

theorem permute (hA : ZeroWords A) (br : List Word) : ZeroWords (permute Num.binary32 br A) :=
  List.foldlRecOn _ _ hA fun _ hA' _ _ => hA'.updatePair (g := Prod.swap) (fun _ h1 h2 => ⟨h2, h1⟩) (_, _)

/-- With finite twiddles the transform of zeros is zeros, whatever the permutation ROM holds. -/
theorem cfft (hA : ZeroWords A) (k : Site) {tw : List Word} (htw : ∀ w ∈ tw, F32.isFinite w = true) (br : List Word)
    (m : Nat) (d : Dir) : ZeroWords (cfft Num.binary32 k tw br m d A) :=
  permute (List.foldlRecOn _ _ hA fun _ hA' s _ => hA'.stage k htw d m s) br

end ZeroWords

/-! ### The frame of a silent feed (R137 to R141, R147 item 2) -/

section
variable (k : Site) {win mag u : List Word} (hwin : ∀ w ∈ win, F32.isFinite w = true) (hmag : ZeroWords mag)
  (hu : ∀ w ∈ u, F32.isFinite w = true)
include hwin hmag hu

theorem zeroWords_hopSpectrum (n : Nat) : ZeroWords (hopSpectrum Num.binary32 k win n 0 mag u) := by
  intro w hw
  obtain ⟨z, hz, hwz⟩ := List.mem_flatMap.1 hw
  obtain ⟨j, -, rfl⟩ := List.mem_map.1 hz
  rcases List.mem_pair.1 hwz with rfl | rfl
  · exact F32.isZero_mul _ (hmag.getD j) (forall_getD hwin (by decide) j)
  · exact F32.isZero_mul _ (by decide) (forall_getD hu (by decide) j)

theorem zeroWords_hopFrame {tw : List Word} (htw : ∀ w ∈ tw, F32.isFinite w = true) (br : List Word) {n : Nat} (hn : 0 < n) :
    ZeroWords (hopFrame Num.binary32 k tw br win n 0 mag u) := by
  intro w hw
  obtain ⟨j, -, rfl⟩ := List.mem_map.1 hw
  have hspectrum := (zeroWords_hopSpectrum k hwin hmag hu n).cfft (k.sub 2) htw br n .inverse
  exact F32.isZero_div _ (hspectrum.getD _) (F32.isZero_ofRatio_of_pos false hn) (F32.isNaN_ofRatio false n 1)

end

namespace State

variable (s : State)

theorem isFinite_of_mem_hopDraws : ∀ w ∈ s.hopDraws, F32.isFinite w = true := by
  intro w hw
  obtain ⟨j, -, rfl⟩ := List.mem_map.1 hw
  exact F32.isFinite_ofDraw _

theorem zeroWords_words {A : Arr} {n : Nat} (h : ∀ j, j < n → s.word A j = 0) : ZeroWords (s.words A n) := by
  intro w hw
  obtain ⟨j, hj, rfl⟩ := List.getElem_of_mem hw
  rw [length_words] at hj
  rw [← List.getD_eq_getElem _ 0, s.getD_words A 0 hj, h j hj]
  decide

theorem size_pos_of_ready (hr : s.ready = true) : 0 < s.params.n := by
  obtain ⟨⟨-, h4, -⟩, -⟩ := s.valid_of_ready hr
  omega

theorem zeroWords_frame (hr : s.ready = true) (hnum : s.params.num = .binary32)
    (hfinite : ∀ w, w ∈ s.rom.tw ∨ w ∈ s.rom.win → F32.isFinite w = true) (hbound : s.phaseBound = 0)
    (hmag : ∀ j, j < s.params.n → s.word s.activeBank j = 0) : ZeroWords s.frame := by
  rw [State.frame, s.num_of_binary32 hnum, hbound]
  exact zeroWords_hopFrame _ (fun w hw => hfinite w (.inr hw)) (s.zeroWords_words hmag) s.isFinite_of_mem_hopDraws
    (fun w hw => hfinite w (.inl hw)) _ (s.size_pos_of_ready hr)

/-! ### The overlap-add at the output ring (R126) -/

/-- The storage address of ring word `OUT_WR + n`. -/
def outAddr (n : Nat) : Nat := Arr.addr .outring ((s.outWr + n) % s.params.cOut)

/-- The `N` ring words of one frame do not overlap: `N` is not above `C_out` (R7 V4, R126). -/
theorem outAddr_apart (hr : s.ready = true) {i j : Nat} (hi : i < s.params.n) (hj : j < s.params.n) (hne : i ≠ j) :
    s.outAddr i + 4 ≤ s.outAddr j ∨ s.outAddr j + 4 ≤ s.outAddr i := by
  obtain ⟨-, -, -, hcap, -⟩ := s.valid_of_ready hr
  have hindex := mt (ringIndex_inj (c := s.outWr) (cap := s.params.cOut) (by omega) (by omega)) hne
  simp only [ringIndex] at hindex
  simp only [outAddr, Arr.addr]
  omega

theorem readWord_outAddFrame (hr : s.ready = true) (k : Site) (f : List Word) {n : Nat} (hn : n < s.params.n) :
    (s.outAddFrame k f).mem.readWord (s.outAddr n) = s.num.add (k.sub n) (s.mem.readWord (s.outAddr n)) (f.getD n 0) := by
  rw [outAddFrame_mem]
  refine readWord_foldl_update (f := fun m n => s.outAddSample k f n m) (addr := s.outAddr)
    (g := fun n w => s.num.add (k.sub n) w (f.getD n 0)) (fun _ _ => rfl) List.nodup_range (fun i hi j hj hne => ?_) s.mem n
    (List.mem_range.2 hn)
  exact s.outAddr_apart hr (List.mem_range.1 hi) (List.mem_range.1 hj) hne

/-- No byte outside the `N` ring words of the frame changes. -/
theorem read_outAddFrame_of_outside (k : Site) (f : List Word) {a : Nat}
    (h : ∀ n, n < s.params.n → a < s.outAddr n ∨ s.outAddr n + 4 ≤ a) : (s.outAddFrame k f).mem.read a = s.mem.read a := by
  rw [outAddFrame_mem]
  refine foldl_keeps (fun m => m.read a = s.mem.read a) _ _ rfl fun m n hn hm => ?_
  exact (Memory.read_writeWord_outside m _ (h n (List.mem_range.1 hn))).trans hm

/-- In binary32 a frame of zeros keeps an all-`+0` ring all `+0`: each of its words is written as `fadd(+0, +-0)` (R130). -/
theorem word_outAddFrame_of_zeroWords (hnum : s.params.num = .binary32) (k : Site) {f : List Word} (hf : ZeroWords f)
    (hring : ∀ j, j < s.params.cOut → s.word .outring j = 0) {j : Nat} (hj : j < s.params.cOut) :
    (s.outAddFrame k f).word .outring j = 0 := by
  rw [State.word, outAddFrame_mem]
  refine foldl_keeps (fun m => ∀ j, j < s.params.cOut → m.readWord (Arr.addr .outring j) = 0) _ _ hring
    (fun m n _ hm j hj => ?_) j hj
  have hold := hm _ (ringIndex_lt (c := s.outWr) (d := n) (Nat.zero_lt_of_lt hj))
  have hsum : s.num.add (k.sub n) 0 (f.getD n 0) = 0 := by
    rw [s.num_of_binary32 hnum]
    exact F32.add_posZero_of_isZero _ (hf.getD n)
  rw [State.outAddSample, hold, hsum]
  by_cases hsame : j = ringIndex s.outWr n s.params.cOut
  · rw [hsame, Memory.readWord_writeWord_same]
  · rw [Memory.readWord_writeWord_disjoint _ _ (by simp only [Arr.addr]; omega)]
    exact hm j hj

end State

end Sys2Proof.Machine

/-! ### The settled statements -/

namespace Sys2Proof

open Machine

/-- Settles O13: the sum with a zero is exact, and an infinity keeps itself. -/
theorem addingZeroKeepsANonzeroWord : Obligations.AddingZeroKeepsANonzeroWord := by
  refine ⟨fun k v z hnan hne hz => ?_, fun k => F32.add_posZero_of_isZero k (by decide)⟩
  rcases F32.isInf_or_isFinite hnan with hinf | hfin
  · exact F32.add_zero_of_isInf k hinf hz
  · exact F32.add_zero_of_isFinite k hfin hne hz

/-- Settles O32: each of the `N` ring words is updated once, as they are different words. -/
theorem framesAreAddedAtTheOverlapAddCursor : Obligations.FramesAreAddedAtTheOverlapAddCursor := by
  intro s k f hr _
  rw [s.numerics_eq_num]
  exact ⟨⟨_, rfl, fun n hn => s.readWord_outAddFrame hr k f hn, fun a ha => s.read_outAddFrame_of_outside k f ha⟩, rfl⟩

/-- Settles O40: the spectrum, its transform and the frame are zeros, and a zero added to `+0` is `+0`. -/
theorem silentFeedKeepsTheRingSilent : Obligations.SilentFeedKeepsTheRingSilent := by
  intro s hr hnum hfinite hvalid hlen hbound hmag hring j hj
  have hfeed : s.feedAvailable = true := by simp [State.feedAvailable, hvalid, hlen]
  rw [State.resynth, if_pos hfeed]
  exact s.word_outAddFrame_of_zeroWords hnum _ (s.zeroWords_frame hr hnum hfinite hbound hmag) hring hj

/-- Settles O31. -/
theorem inPushStoresAtTheWriteCursor : Obligations.InPushStoresAtTheWriteCursor := fun s v _ _ =>
  ⟨_, rfl, Memory.readWord_writeWord_same s.mem _ v, fun _ => Memory.read_writeWord_outside s.mem v⟩

end Sys2Proof

/-! PROOFS. Family 43_pipeline: words whose value `roundUnits` finds exactly (R137, R141), the spectrum and the frame word by word
(R138 to R141), the drain as a loop that updates two words per pass (R143), and a sample step with and without a hop (R133 to R136). -/

/-! ### Exact magnitudes and bounds of the one rounding (R10, R15) -/

namespace Sys2Proof.F32

section
variable {num den m : Nat} (hden : 0 < den)
include hden

theorem le_roundUnits (hm : m ≤ infMag) (h : magUnits m * den ≤ num) : m ≤ roundUnits num den := by
  obtain ⟨p, r, ⟨-, hupper, hnearer, -⟩, hround⟩ := roundUnits_eq_min num hden
  have hp : m < p + 1 := magUnits_strictMono.lt_iff_lt.1 (lt_of_mul_lt_mul_right (h.trans_lt hupper) den.zero_le)
  omega

theorem roundUnits_le (h : num ≤ magUnits m * den) : roundUnits num den ≤ m := by
  obtain ⟨p, r, ⟨hlower, -, hnearer, -⟩, hround⟩ := roundUnits_eq_min num hden
  have hp : p ≤ m := magUnits_strictMono.le_iff_le.1 (Nat.le_of_mul_le_mul_right (hlower.trans h) hden)
  have hstep : magUnits p * den < magUnits (p + 1) * den := Nat.mul_lt_mul_of_pos_right (magUnits_strictMono p.lt_succ_self) hden
  rw [Nat.add_mul] at hnearer
  rcases hp.eq_or_lt with rfl | hlt <;> omega

/-- A ratio that is a pattern's own magnitude is rounded to that pattern. -/
theorem roundUnits_magUnits_mul (hm : m ≤ infMag) : roundUnits (magUnits m * den) den = m :=
  (roundUnits_le hden le_rfl).antisymm (le_roundUnits hden hm le_rfl)

end

/-- A significand of at most 24 bits at a last place within the range is some finite magnitude. -/
theorem exists_magUnits_eq {c t : Nat} (hc : c < 2 ^ 24) (ht : t ≤ 253) : ∃ m < infMag, magUnits m = c * 2 ^ t := by
  induction t generalizing c with
  | zero => exact ⟨0 * 2 ^ 23 + c, by rw [infMag]; omega, magUnits_shift_add hc.le (.inl rfl)⟩
  | succ t ih =>
    rcases Nat.lt_or_ge c (2 ^ 23) with hlt | hge
    · obtain ⟨m, hm, heq⟩ := ih (c := 2 * c) (by omega) (by omega)
      exact ⟨m, hm, heq.trans (by ring)⟩
    · exact ⟨(t + 1) * 2 ^ 23 + c, by rw [infMag]; omega, magUnits_shift_add hc.le (.inr hge)⟩

/-- `rnd` of a ratio that such a magnitude has exactly is that magnitude. -/
theorem ofRatio_exact (s : Bool) {num den c t : Nat} (hden : 0 < den) (hc : c < 2 ^ 24) (ht : t ≤ 253)
    (h : num * one = c * 2 ^ t * den) :
    isFinite (ofRatio s num den) = true ∧ units (ofRatio s num den) = c * 2 ^ t := by
  obtain ⟨m, hm, hunits⟩ := exists_magUnits_eq hc ht
  have hmag : mag (ofRatio s num den) = m := by
    rw [mag_ofRatio, h, ← hunits, roundUnits_magUnits_mul hden hm.le]
  rw [isFinite_iff, units_eq_magUnits, hmag]
  exact ⟨hm, hunits⟩

theorem sign_ofRatio (s : Bool) (num den : Nat) : sign (ofRatio s num den) = s :=
  sign_pack ((roundUnits_le_infMag _ _).trans_lt (by decide))

/-! ### Draws and phase values (R137) -/

/-- A draw has its numerator times `2^-24` as its magnitude. -/
theorem units_ofDraw (j : BitVec 24) : units (ofDraw j) = j.toNat * 2 ^ 125 :=
  (ofRatio_exact false (by decide) j.isLt (by decide) (by rw [one]; ring)).2

theorem sign_ofDraw (j : BitVec 24) : sign (ofDraw j) = false := sign_ofRatio _ _ _

theorem value_ofDraw (j : BitVec 24) : value (ofDraw j) = (j.toNat : ℚ) / 2 ^ 24 := by
  rw [value, ival, sign_ofDraw, units_ofDraw, if_neg Bool.false_ne_true]
  push_cast
  ring

/-- A draw is below 1. -/
theorem units_ofDraw_le_one (j : BitVec 24) : units (ofDraw j) ≤ one := by
  have hj := j.isLt
  rw [units_ofDraw, one]
  omega

section
variable (k : Site) {b : Word} (hb : isFinite b = true) (j : BitVec 24)
include hb

theorem sign_mul_ofDraw : sign (mul k b (ofDraw j)) = sign b := by
  rw [mul_of_isFinite k hb (isFinite_ofDraw j), sign_pack ((roundUnits_le_infMag _ _).trans_lt (by decide)), sign_ofDraw,
    Bool.bne_false]

theorem mag_mul_ofDraw_le : mag (mul k b (ofDraw j)) ≤ mag b := by
  rw [mul_of_isFinite k hb (isFinite_ofDraw j), mag_pack ((roundUnits_le_infMag _ _).trans_lt (by decide))]
  exact roundUnits_le (by decide) (Nat.mul_le_mul_left _ (units_ofDraw_le_one j))

end

/-! ### Division by a power of two (R141) -/

theorem magUnits_sub_exponent {m t : Nat} (h : t < m / 2 ^ 23) : magUnits m = magUnits (m - t * 2 ^ 23) * 2 ^ t := by
  obtain ⟨e, c, rfl, hlo, hhi⟩ : ∃ e c, m = (e + t) * 2 ^ 23 + c ∧ 2 ^ 23 ≤ c ∧ c < 2 ^ 24 :=
    ⟨m / 2 ^ 23 - 1 - t, m % 2 ^ 23 + 2 ^ 23, by omega, by omega, by omega⟩
  rw [magUnits_shift_add hhi.le (.inr hlo), show (e + t) * 2 ^ 23 + c - t * 2 ^ 23 = e * 2 ^ 23 + c by omega,
    magUnits_shift_add hhi.le (.inr hlo)]
  ring

/-- Where the quotient stays normal, dividing by a power of two takes its exponent from the magnitude. -/
theorem div_two_pow (k : Site) {w : Word} {t : Nat} (ht : t ≤ 104) (hw : isFinite w = true) (hnormal : t < mag w / 2 ^ 23) :
    div k w (ofRatio false (2 ^ t) 1) = pack (sign w) (mag w - t * 2 ^ 23) := by
  obtain ⟨hfinite, hunits⟩ := ofRatio_exact false (num := 2 ^ t) (c := 1) (t := 149 + t) Nat.one_pos (by decide) (by omega)
    (by rw [one]; ring)
  have hdividend : units w * one = magUnits (mag w - t * 2 ^ 23) * (1 * 2 ^ (149 + t)) := by
    rw [units_eq_magUnits, magUnits_sub_exponent hnormal, one]
    ring
  have hmag : mag w - t * 2 ^ 23 ≤ infMag := (Nat.sub_le _ _).trans ((isFinite_iff w).1 hw).le
  rw [div_of_isFinite k hw hfinite (isZero_ofRatio_of_pos false (by positivity)), hunits, hdividend,
    roundUnits_magUnits_mul (by positivity) hmag, sign_ofRatio, Bool.bne_false]

theorem pack_mag_sub {w : Word} {d : Nat} (h : d ≤ mag w) : pack (sign w) (mag w - d) = w - BitVec.ofNat 32 d := by
  have hw := w.isLt
  apply BitVec.eq_of_toNat_eq
  simp only [pack, sign, mag, BitVec.toNat_ofNat, BitVec.toNat_sub, decide_eq_true_eq] at *
  split_ifs <;> omega

/-! ### A product with a zero gain (R147 item 1) -/

theorem isZero_mul_right (k : Site) {a b : Word} (ha : isFinite a = true) (hb : isZero b = true) : isZero (mul k a b) = true := by
  have hunits : units b = 0 := congrArg magUnits (isZero_iff.1 hb)
  rw [mul_of_isFinite k ha (isFinite_of_isZero hb), hunits, Nat.mul_zero, roundUnits_zero]
  exact isZero_pack_zero _

end Sys2Proof.F32

/-! ### The spectrum and the frame, word by word (R138 to R141) -/

namespace Sys2Proof.Machine

section
variable {α : Type} (num : Num α) (k : Site) (tw : List α) (br : List Word) (win : List α) {n j : Nat} (bound : α)
  (mag u : List α)

theorem complexAt_hopSpectrum (hj : j < n) : complexAt num (hopSpectrum num k win n bound mag u) j =
    (num.mul ((k.sub 1).sub j) (mag.getD j num.zero) (win.getD j num.zero),
      num.mul ((k.sub 0).sub j) bound (u.getD j num.zero)) := by
  rw [hopSpectrum, complexAt_interleave num (by simpa using hj)]
  simp

theorem getD_hopFrame (d : α) (hj : j < n) : (hopFrame num k tw br win n bound mag u).getD j d =
    num.div ((k.sub 3).sub j)
      ((cfft num (k.sub 2) tw br n .inverse (hopSpectrum num k win n bound mag u)).getD (2 * j) num.zero) (num.ofNat n) := by
  rw [List.getD_eq_getElem _ _ (by simpa using hj)]
  simp [hopFrame]

end

/-! ### The drain of one block (R143 to R145) -/

/-- A loop of which each pass turns `Q x` into `P x` and keeps both facts of every other pass establishes every `P x`. -/
theorem foldl_establishes {β : Type} {f : Memory → β → Memory} {P Q : β → Memory → Prop} {l : List β} (hl : l.Nodup)
    (hpass : ∀ m, ∀ x ∈ l, Q x m → P x (f m x))
    (hkeep : ∀ m, ∀ x ∈ l, ∀ y ∈ l, x ≠ y → (Q y m → Q y (f m x)) ∧ (P y m → P y (f m x)))
    {m : Memory} (h0 : ∀ x ∈ l, Q x m) : ∀ x ∈ l, P x (l.foldl f m) := by
  induction l generalizing m with
  | nil => simp
  | cons x l ih =>
    obtain ⟨hx, hl⟩ := List.nodup_cons.1 hl
    intro y hy
    rcases List.mem_cons.1 hy with rfl | hy'
    · refine foldl_keeps (P y) f l (hpass m y hy (h0 y hy)) fun m z hz => ?_
      have hne : z ≠ y := fun h => hx (h ▸ hz)
      exact (hkeep m z (.tail _ hz) y hy hne).2
    · refine ih hl (fun m z hz => hpass m z (.tail _ hz)) (fun m z hz z' hz' => hkeep m z (.tail _ hz) z' (.tail _ hz'))
        (fun z hz => ?_) y hy'
      have hne : x ≠ z := fun h => hx (h ▸ hz)
      exact (hkeep m x (.head _) z (.tail _ hz) hne).1 (h0 z (.tail _ hz))

namespace State

variable (s : State)

/-- The storage address of ring word `OUT_RD + j`. -/
def takeAddr (j : Nat) : Nat := Arr.addr .outring ((s.outRd + j) % s.params.cOut)

section
variable {s} (hr : s.ready = true) {i j : Nat}
include hr

/-- The `B` ring words of one drain do not overlap: `B` is not above `C_out` (R7 V4). -/
theorem takeAddr_apart (hi : i < s.params.b) (hj : j < s.params.b) (hne : i ≠ j) :
    s.takeAddr i + 4 ≤ s.takeAddr j ∨ s.takeAddr j + 4 ≤ s.takeAddr i := by
  obtain ⟨-, -, -, hcap, -⟩ := s.valid_of_ready hr
  have hindex := mt (ringIndex_inj (c := s.outRd) (cap := s.params.cOut) (by omega) (by omega)) hne
  simp only [ringIndex] at hindex
  simp only [takeAddr, Arr.addr]
  omega

/-- No word of the output block overlaps one of the ring. -/
theorem outblk_takeAddr_apart (hi : i < s.params.b) (j : Nat) :
    Arr.addr .outblk i + 4 ≤ s.takeAddr j ∨ s.takeAddr j + 4 ≤ Arr.addr .outblk i := by
  have hvalid := s.valid_of_ready hr
  have hring : (s.outRd + j) % s.params.cOut < s.params.cOut := Nat.mod_lt _ (cOut_pos_of_ready hr)
  exact Arr.addr_apart (by decide) (hi.trans_le (Arr.size_le hvalid .outblk)) (hring.trans_le (Arr.size_le hvalid .outring))

end

/-- One pass of the drain changes only the word it puts out and the ring word it takes. -/
theorem readWord_outTakeSample_apart (k : Site) (g : Word) (j : Nat) (m : Memory) {a : Nat}
    (hblk : a + 4 ≤ Arr.addr .outblk j ∨ Arr.addr .outblk j + 4 ≤ a) (htake : a + 4 ≤ s.takeAddr j ∨ s.takeAddr j + 4 ≤ a) :
    (s.outTakeSample k g j m).readWord a = m.readWord a :=
  (Memory.readWord_writeWord_disjoint _ _ htake).trans (Memory.readWord_writeWord_disjoint _ _ hblk)

/-- Sample `j` of a block is put out: the ring word scaled, and `+0` left in the ring. -/
structure Drained (k : Site) (g : List Word) (j : Nat) (m : Memory) : Prop where
  out : m.readWord (Arr.addr .outblk j) = s.num.mul (k.sub j) (s.mem.readWord (s.takeAddr j)) (g.getD j 0)
  zeroed : m.readWord (s.takeAddr j) = 0

/-- The drain puts out all `B` samples: no pass touches a word of another (R143). -/
theorem drained_outDrain (hr : s.ready = true) (k : Site) (g : List Word) {j : Nat} (hj : j < s.params.b) :
    s.Drained k g j (s.outDrain k g).mem := by
  rw [outDrain_mem]
  refine foldl_establishes (f := fun m j => s.outTakeSample k (g.getD j 0) j m) (P := s.Drained k g)
    (Q := fun j m => m.readWord (s.takeAddr j) = s.mem.readWord (s.takeAddr j)) List.nodup_range
    (fun m x hx hold => ?_) (fun m x hx y hy hne => ?_) (fun _ _ => rfl) j (List.mem_range.2 hj)
  · have hapart := outblk_takeAddr_apart hr (List.mem_range.1 hx) x
    refine ⟨?_, Memory.readWord_writeWord_same _ _ _⟩
    rw [← hold]
    exact (Memory.readWord_writeWord_disjoint _ _ hapart).trans (Memory.readWord_writeWord_same _ _ _)
  · rw [List.mem_range] at hx hy
    have hring : (s.outTakeSample k (g.getD x 0) x m).readWord (s.takeAddr y) = m.readWord (s.takeAddr y) :=
      s.readWord_outTakeSample_apart k _ x m (outblk_takeAddr_apart hr hx y).symm (takeAddr_apart hr hy hx hne.symm)
    have hblk : (s.outTakeSample k (g.getD x 0) x m).readWord (Arr.addr .outblk y) = m.readWord (Arr.addr .outblk y) :=
      s.readWord_outTakeSample_apart k _ x m (by simp only [Arr.addr]; omega) (outblk_takeAddr_apart hr hy x)
    exact ⟨fun h => hring.trans h, fun ⟨hout, hzero⟩ => ⟨hblk.trans hout, hring.trans hzero⟩⟩

/-- The drain changes no byte outside the output block and the ring words it takes (R143). -/
theorem read_outDrain_of_outside (k : Site) (g : List Word) {a : Nat} (hblk : Spec.outside .outblk s.params.b a)
    (htake : ∀ j, j < s.params.b → a < s.takeAddr j ∨ s.takeAddr j + 4 ≤ a) : (s.outDrain k g).mem.read a = s.mem.read a := by
  rw [outDrain_mem]
  refine foldl_keeps (fun m => m.read a = s.mem.read a) _ _ rfl fun m j hj hm => ?_
  rw [List.mem_range] at hj
  have hout : a < Arr.addr .outblk j ∨ Arr.addr .outblk j + 4 ≤ a := by
    simp only [Spec.outside, Arr.addr] at *
    omega
  exact ((Memory.read_writeWord_outside _ _ (htake j hj)).trans (Memory.read_writeWord_outside _ _ hout)).trans hm

end State

/-- The engine step of a block command at the drain phase, with its gains (R144, R145). -/
theorem exec_drain_gains {s : State} {c i : Instr} (hi : i = .block ∨ i = .blockv) (hseq : s.seq = .run c .drain) :
    ∃ g : List Word, exec i s = .next (s.outDrain s.site g).finish ∧
      ∀ j, j < s.params.b → g.getD j 0 = if i = .block then s.gain else s.word .gainv j := by
  rcases hi with rfl | rfl
  · refine ⟨s.scalarGain, by simp [exec, execBlock, State.blockStep, hseq], fun j hj => ?_⟩
    simp [State.scalarGain, List.getD_eq_getElem?_getD, hj]
  · refine ⟨s.vectorGain, by simp [exec, execBlockv, State.blockStep, hseq], fun j hj => ?_⟩
    exact s.getD_words .gainv 0 hj

/-! ### A sample step, without a hop and with one (R133 to R136) -/

theorem exec_sample_of_run {s : State} {c i : Instr} {j : Nat} (hi : i = .block ∨ i = .blockv)
    (hseq : s.seq = .run c (.sample j)) (hj : j < s.params.b) :
    exec i s = .next { s.sampleStep j with seq := .run i (Spec.phaseAfter s.params.b j) } := by
  obtain ⟨g, hg⟩ := exec_eq_blockStep hi s
  simp only [hg, State.blockStep, hseq, if_pos hj]
  rfl

namespace State

variable (s : State) (j : Nat)

/-- The state in which the hop of sample `j` fires: the sample is pushed and the counter is back at 0 (R133). -/
def atHop : State := { s.inPush (s.word .inblk j) with hopCnt := 0 }

theorem sampleStep_of_no_hop (h : s.hopCnt + 1 ≠ s.params.h) :
    s.sampleStep j = { s.inPush (s.word .inblk j) with hopCnt := s.hopCnt + 1 } := if_neg h

theorem sampleStep_of_hop (h : s.hopCnt + 1 = s.params.h) : s.sampleStep j = (s.atHop j).resynth := if_pos h

theorem feedAvailable_iff : s.feedAvailable = true ↔ s.magValid = true ∧ s.magLen.toNat = s.params.n := by
  simp [State.feedAvailable]

theorem resynth_of_feed (h : s.feedAvailable = true) : s.resynth = s.outAddFrame (s.site.sub 4) s.frame := if_pos h

theorem resynth_of_no_feed (h : ¬ s.feedAvailable = true) : s.resynth = (s.raise .hopskip).outSkip := if_neg h

theorem readWord_inring_atHop : (s.atHop j).mem.readWord (Arr.addr .inring s.inWr) = s.word .inblk j :=
  Memory.readWord_writeWord_same _ _ _

theorem read_atHop_outside {a : Nat} (h : Spec.outsideWord .inring s.inWr a) : (s.atHop j).mem.read a = s.mem.read a :=
  Memory.read_writeWord_outside _ _ h

/-- The pushed sample changes no word of another array. -/
theorem word_atHop (hr : s.ready = true) (hw : s.inWr < s.params.cIn) {A : Arr} (hA : A ≠ .inring) {n : Nat}
    (hn : n < A.size s.params) : (s.atHop j).word A n = s.word A n := by
  have hvalid := s.valid_of_ready hr
  exact s.word_setWord_other _ hA (hw.trans_le (Arr.size_le hvalid .inring)) (hn.trans_le (Arr.size_le hvalid A))

/-- The frame of the hop is that of the state before the sample: the push changes no word of a bank (R135). -/
theorem frame_atHop (hr : s.ready = true) (hw : s.inWr < s.params.cIn) : (s.atHop j).frame = s.frame := by
  have hbank : (s.atHop j).words s.activeBank s.params.n = s.words s.activeBank s.params.n := by
    refine words_congr fun n hn => s.word_atHop j hr hw ?_ ?_
    · rcases Arr.bank_eq s.magActive with h | h <;> simp [State.activeBank, h]
    · rwa [State.activeBank, Arr.size_bank]
  exact congrArg (fun bank => hopFrame s.num s.site s.rom.tw s.rom.brn s.rom.win s.params.n s.phaseBound bank s.hopDraws) hbank

/-! ### The `MAG_CTRL` register (R42, R146) -/

theorem writeReg_magCtrl (v : Word) : s.writeReg .magCtrl v =
    if s.ready then { s with magActive := !s.magActive, magValid := true, magLen := v.extractLsb' 0 24 } else s := by
  rw [← BitVec.setWidth_eq_extractLsb' (by decide)]
  rfl

/-- The bits of `MAG_CTRL` above the length (R42). -/
theorem getLsbD_magCtrlWord (i : Nat) : s.magCtrlWord.getLsbD (24 + i) =
    [false, false, false, false, false, false, s.magValid, s.magActive].getD i false := by
  unfold State.magCtrlWord
  rw [BitVec.getLsbD_append, if_neg (by omega), Nat.add_sub_cancel_left, BitVec.getLsbD_append, BitVec.getLsbD_append]
  rcases i with _ | _ | _ | _ | _ | _ | _ | _ | i <;> simp

theorem extractLsb'_magCtrlWord : s.magCtrlWord.extractLsb' 0 24 = s.magLen := by
  rw [State.magCtrlWord, BitVec.extractLsb'_append_eq_right]

end State

end Sys2Proof.Machine

/-! ### The settled statements -/

namespace Sys2Proof

open Machine

/-- Settles O14: the size is a power of two exactly, and the quotient by it is a pattern's own magnitude. -/
theorem dividingByTheSizeLowersTheExponent : Obligations.DividingByTheSizeLowersTheExponent := by
  intro k t w ht hw hnormal
  rw [← F32.pack_mag_sub (by omega)]
  exact F32.div_two_pow k (by omega) hw hnormal

/-- Settles O33: the gains of either command, and the loop over the `B` samples. -/
theorem drainScalesAndZeroesTheRing : Obligations.DrainScalesAndZeroesTheRing := by
  intro s c i hr hseq hi
  obtain ⟨g, hexec, hgain⟩ := exec_drain_gains hi hseq
  rw [s.numerics_eq_num]
  refine ⟨_, hexec, fun j hj => ?_, fun j hj => (s.drained_outDrain hr s.site g hj).zeroed,
    fun a => s.read_outDrain_of_outside s.site g⟩
  rw [← hgain j hj]
  exact (s.drained_outDrain hr s.site g hj).out

/-- Settles O34: the product of a finite word and `+0` is a zero. -/
theorem zeroGainGivesZeroOutput : Obligations.ZeroGainGivesZeroOutput := by
  intro s c hr hnum hseq hgain hfinite
  obtain ⟨m, hexec, hout, -⟩ := drainScalesAndZeroesTheRing s c .block hr hseq (.inl rfl)
  refine ⟨_, hexec, fun j hj => ?_⟩
  rw [State.word, hout j hj, s.numerics_eq_num, s.num_of_binary32 hnum, if_pos rfl, hgain]
  exact F32.isZero_mul_right _ (hfinite j hj) (by decide)

/-- Settles O35. -/
theorem sampleStepPushesAndCounts : Obligations.SampleStepPushesAndCounts := by
  intro s c i j _ hseq hj _ hi hhop
  rw [exec_sample_of_run hi hseq hj, s.sampleStep_of_no_hop j hhop]
  exact ⟨_, rfl, s.readWord_inring_atHop j, fun a => s.read_atHop_outside j⟩

/-- Settles O36: without an available vector the hop raises its bit and skips. -/
theorem hopWithoutAVectorIsSkipped : Obligations.HopWithoutAVectorIsSkipped := by
  intro s c i j _ hseq hj _ hi hhop hfeed
  have hno : ¬ (s.atHop j).feedAvailable = true := by
    rw [State.feedAvailable_iff, not_and_or, Bool.not_eq_true]
    exact hfeed
  rw [exec_sample_of_run hi hseq hj, s.sampleStep_of_hop j hhop, State.resynth_of_no_feed _ hno]
  exact ⟨_, rfl, s.readWord_inring_atHop j, fun a => s.read_atHop_outside j⟩

/-- Settles O37: the hop adds the frame of the state before the sample at the overlap-add cursor, which the push leaves alone. -/
theorem hopAddsTheFrameOfTheActiveBank : Obligations.HopAddsTheFrameOfTheActiveBank := by
  intro s c i j hr hseq hj hw hi hhop hvalid hlen
  have hfeed : (s.atHop j).feedAvailable = true := (s.atHop j).feedAvailable_iff.2 ⟨hvalid, hlen⟩
  have hstep : s.sampleStep j = (s.atHop j).outAddFrame (s.site.sub 4) s.frame := by
    rw [s.sampleStep_of_hop j hhop, State.resynth_of_feed _ hfeed, s.frame_atHop j hr hw]
    rfl
  have hpush := State.word_inring_sampleStep_same hr hw j
  rw [hstep] at hpush
  rw [exec_sample_of_run hi hseq hj, hstep, s.numerics_eq_num]
  refine ⟨_, fun n => (s.site.sub 4).sub n, s.site, rfl, hpush, fun n hn => ?_, fun a hin hout => ?_⟩
  · have hold := s.word_atHop j hr hw (A := .outring) (by decide) (Nat.mod_lt (s.outWr + n) (State.cOut_pos_of_ready hr))
    exact ((s.atHop j).readWord_outAddFrame hr _ s.frame hn).trans (congrArg (s.num.add _ · _) hold)
  · exact ((s.atHop j).read_outAddFrame_of_outside _ s.frame hout).trans (s.read_atHop_outside j hin)

/-- Settles O38. -/
theorem frameIsTheNormalisedInverseOfTheSpectrum : Obligations.FrameIsTheNormalisedInverseOfTheSpectrum := by
  intro s k tw br win n bound mag u j hj
  rw [s.numerics_eq_num]
  have hspectrum := complexAt_hopSpectrum s.num k win bound mag u hj
  have hframe := getD_hopFrame s.num k tw br win bound mag u 0 hj
  rw [show s.num.zero = 0 from Numerics.record_zero _] at hspectrum hframe
  rw [show s.num.ofNat n = F32.ofRatio false n 1 from Numerics.record_ofNat _ n] at hframe
  exact ⟨_, _, _, _, hspectrum, hframe⟩

/-- Settles O39: a draw is exact and below 1, so the product rounds to no more than the bound. -/
theorem phaseValuesLieWithinTheBound : Obligations.PhaseValuesLieWithinTheBound := by
  refine fun k b j => ⟨F32.value_ofDraw j, fun hb => ⟨F32.sign_mul_ofDraw k hb j, F32.mag_mul_ofDraw_le k hb j⟩, ?_⟩
  have hzero : F32.isFinite 0 = true := by decide
  exact F32.eq_of_sign_mag (F32.sign_mul_ofDraw k hzero j) (Nat.le_zero.1 (F32.mag_mul_ofDraw_le k hzero j))

/-- Settles O42: `MAG_CTRL` is a register of region 0, so neither access is refused. -/
theorem publishSwapsTheBanks : Obligations.PublishSwapsTheBanks := by
  intro s v
  have haddr : Target.ofAddr s.params 0x00003C#24 = .reg .magCtrl := ofAddr_reg s.params (i := 15) rfl
  refine ⟨(s.busWrite_reg haddr rfl v).trans (s.writeReg_magCtrl v), s.magCtrlWord, s.busRead_reg haddr,
    s.getLsbD_magCtrlWord 7, s.getLsbD_magCtrlWord 6, fun j hj hj' => ?_, s.extractLsb'_magCtrlWord⟩
  obtain ⟨i, rfl⟩ := Nat.exists_eq_add_of_le hj
  have hi : i < 6 := by omega
  rw [s.getLsbD_magCtrlWord]
  interval_cases i <;> rfl

end Sys2Proof

/-! PROOFS. Family 60_exceptions: the refusals of a word written to `CMD` (R153, R154, R158), the idle engine (R169), and the engine
step that a legal `SEQ` always has (R43, R181). -/

/-! ### The refusals of a command word and the idle step -/

namespace Sys2Proof.Machine

namespace State

variable {s : State}

theorem offerCommand_notReady (hr : s.ready = false) (w : Word) : s.offerCommand w = s.raise .notready :=
  if_pos (by simp [hr])

/-- While a command runs, the word is not looked at (R154). -/
theorem offerCommand_busy (hr : s.ready = true) (hbusy : s.seq ≠ .idle) (w : Word) : s.offerCommand w = s.raise .busycmd := by
  simp [State.offerCommand, State.busy, hr, hbusy]

theorem engineTurn_of_idle (hidle : s.seq = .idle) : s.engineTurn = .next s := by
  rw [State.engineTurn, s.enabled_eq_none_iff.2 (.inr hidle)]

end State

/-- A state that a step leaves as it is stays so in a run of any length. -/
theorem run_of_step_self {M : Host.Core} {s : M.State} (hstep : M.step s = .next s) (k : Nat) : M.run k s = .next s := by
  induction k with
  | zero => rfl
  | succ k ih => exact run_succ_of_run ih hstep

/-! ### Where a step answers a next state (R43, R181) -/

theorem eq_block_or_blockv {i : Instr} (h : isBlockCommand i = true) : i = .block ∨ i = .blockv := by
  cases i with
  | block => exact .inl rfl
  | blockv => exact .inr rfl
  | nop | fftF | fftI | rfftF | rfftI => cases h

/-- `NOP` and the transforms have their one engine step in every state (R84). -/
theorem exec_next_of_not_block {i : Instr} (h : isBlockCommand i = false) (s : State) : ∃ t, exec i s = .next t := by
  cases i with
  | block | blockv => cases h
  | nop | fftF | fftI | rfftF | rfftI => exact ⟨_, rfl⟩

/-- A command has its engine step at every phase that R43 gives it. -/
theorem exec_next_of_legal {s : State} {i : Instr} {p : Phase} (hseq : s.seq = .run i p)
    (hlegal : (Seq.run i p).Legal s.params.b) : ∃ t, exec i s = .next t := by
  cases p with
  | exec => exact exec_next_of_not_block hlegal s
  | sample j =>
    obtain ⟨hi, hj⟩ := hlegal
    exact ⟨_, exec_sample (eq_block_or_blockv hi) hseq hj⟩
  | drain =>
    obtain ⟨g, hg⟩ := exec_drain (eq_block_or_blockv hlegal) hseq
    exact ⟨_, hg⟩

/-- A turn of the engine passes, or is the engine step of the command that `SEQ` names (R69 item c). -/
theorem State.engineTurn_next {s : State} (hlegal : s.seq.Legal s.params.b) : ∃ t, s.engineTurn = .next t := by
  rw [State.engineTurn]
  cases henabled : s.enabled with
  | none => exact ⟨s, rfl⟩
  | some i =>
    obtain ⟨-, p, hseq⟩ := s.enabled_eq_some_iff.1 henabled
    exact exec_next_of_legal (s := s.tick) hseq (hseq ▸ hlegal)

theorem State.perform_next {s : State} (hlegal : s.seq.Legal s.params.b) (e : Event) : ∃ t, s.perform e = .next t := by
  cases e with
  | engine => exact State.engineTurn_next hlegal
  | host | producer | reset => exact ⟨_, rfl⟩

end Sys2Proof.Machine

/-! ### The settled statements -/

namespace Sys2Proof

open Machine

/-- Settles O4: the write offers the word to the engine, and each refusal of an offer raises its own bit. -/
theorem refusedCommandsSetOneErrorBit : Obligations.RefusedCommandsSetOneErrorBit := by
  intro s w
  rw [s.busWrite_cmd w]
  refine ⟨fun hr => State.offerCommand_notReady hr w, fun hr hbusy => State.offerCommand_busy hr hbusy w,
    fun hr hidle hw => ?_⟩
  cases hdecode : decode w with
  | ok i => exact absurd hdecode (hw i)
  | error e => exact State.offerCommand_illegal hr hidle hdecode

/-- Settles O8: an engine without a command lets its turn pass, and no other event is left. -/
theorem idleEngineKeepsItsState : Obligations.IdleEngineKeepsItsState := by
  intro s hidle ha k
  exact run_of_step_self (M := core) ((step_of_agenda_nil ha).trans (State.engineTurn_of_idle hidle)) k

/-- Settles O59: only a turn of the engine could stop, and the invariant keeps `SEQ` at a phase that has an engine step. -/
theorem noStepEverStops : Obligations.NoStepEverStops := by
  intro s hs
  cases ha : s.agenda with
  | nil =>
    rw [step_of_agenda_nil ha]
    exact State.engineTurn_next hs.seqLegal
  | cons e rest =>
    rw [step_of_agenda ha]
    exact State.perform_next (s := s.withAgenda rest) hs.seqLegal e

end Sys2Proof

/-! PROOFS. Family 70_reset_and_hazards: what the bus and the engine can still do on a refused instance (R66, R172), and the error
bit that a reset gives it (R152). -/

/-! ### The refused instance -/

namespace Sys2Proof.Machine

namespace State

/-- `t` is `s` but for the error bits and the model's own fields (R150, R172). -/
def SameButErrors (s t : State) : Prop :=
  t = { s with err := t.err, agenda := t.agenda, draws := t.draws, busOut := t.busOut }

variable {s : State}

/-- Of the write rules only those of `ERR` and `CMD` act while `READY = 0` (R66). -/
theorem sameButErrors_writeReg (hr : s.ready = false) (r : Reg) (v : Word) : s.SameButErrors (s.writeReg r v) := by
  have hready : ¬ s.ready = true := by simp [hr]
  rcases s.writeReg_cases r v with ⟨-, h⟩ | ⟨-, h⟩ | ⟨-, h, -⟩ | ⟨-, h, -⟩ | ⟨-, h, -⟩ | h
  · rw [h]; rfl
  · rw [h, offerCommand_notReady hr]; rfl
  · exact absurd h hready
  · exact absurd h hready
  · exact absurd h hready
  · rw [h]; rfl

theorem sameButErrors_busRead (width : Width) (a : BusAddr) : s.SameButErrors (s.busRead width a) := by
  rcases s.busRead_cases width a with ⟨-, h⟩ | ⟨-, -, h⟩ | ⟨-, -, h⟩ <;> rw [h] <;> rfl

/-- A write of a word outside region 0 does not pass check (1) while `READY = 0` (R64, R66). -/
theorem sameButErrors_busWrite (hr : s.ready = false) (width : Width) (a : BusAddr) (v : Word) :
    s.SameButErrors (s.busWrite width a v) := by
  rcases s.busWrite_cases width a v with ⟨-, h⟩ | ⟨-, -, -, h⟩ | ⟨hbad, -, -, h⟩
  · rw [h]; rfl
  · rw [h]; rfl
  rw [h]
  rcases s.poke_cases (Target.ofAddr s.params a) v with ⟨g, -, hp⟩ | ⟨r, i, A, ht, -, -⟩ | hp
  · rw [hp]; exact sameButErrors_writeReg hr g v
  · rw [ht] at hbad
    simp [s.ready_of_badAddress hbad] at hr
  · rw [hp]; rfl

theorem sameButErrors_transact (hr : s.ready = false) (tr : Transaction) : s.SameButErrors (s.transact tr) := by
  cases tr with
  | read width a => exact sameButErrors_busRead width a
  | write width a v => exact sameButErrors_busWrite hr width a v

/-- A reset of a refused instance sets `CFG` (R152). -/
theorem errorBit_cfg_resetInput (hr : s.ready = false) (c : Memory) : (s.resetInput c).errorBit .cfg = true := by
  rw [State.ready, decide_eq_false_iff_not] at hr
  rw [State.errorBit, resetInput_err, if_neg hr]
  rfl

end State

/-- Where no reset comes next, a step of a refused instance is a transaction or a turn of the engine that passes (R172). -/
theorem sameButErrors_of_step {s t : State} (hr : s.ready = false) (hstep : step s = .next t)
    (hreset : ∀ c rest, s.agenda ≠ .reset c :: rest) : s.SameButErrors t := by
  rcases step_next_cases hstep with ⟨tr, rest, -, rfl⟩ | ⟨c, rest, ha, -⟩ | ⟨rest, -, hturn⟩
  · exact State.sameButErrors_transact (s := (s.withAgenda rest).tick) hr tr
  · exact absurd ha (hreset c rest)
  · rcases engineTurn_next_cases hturn with ⟨i, p, hready, -, -⟩ | ⟨-, rfl⟩
    · exact absurd (hr.symm.trans hready) Bool.false_ne_true
    · rfl

end Sys2Proof.Machine

/-! ### The settled statement -/

namespace Sys2Proof

open Machine

/-- Settles O55: the parameters never change, and `CFG` is sticky but for a reset, which sets it on a refused instance. -/
theorem refusedInstanceDoesNothing : Obligations.RefusedInstanceDoesNothing := by
  intro s t hr hstep
  have hafterReset : (∃ c rest, s.agenda = .reset c :: rest) → t.errorBit .cfg = true ∧ t.seq = .idle := by
    rintro ⟨c, rest, ha⟩
    cases (step_of_agenda ha).symm.trans hstep
    exact ⟨State.errorBit_cfg_resetInput hr c, rfl⟩
  refine ⟨?_, fun hcfg => ?_, sameButErrors_of_step hr hstep, hafterReset⟩
  · rw [State.ready, (constantsNeverChange s t hstep).1]
    exact hr
  · rcases errorBitsAreSticky s t .cfg hstep hcfg with h | hreset | ⟨hne, -⟩
    · exact h
    · exact (hafterReset hreset).1
    · exact absurd rfl hne

end Sys2Proof

/-! PROOFS. Family other: the tables of T3, and the worked examples of T2 and T5 as values of the procedures of R105, R118 and R119. -/

/-! ### The words a transform stores, and those from `X` to `Y` on configuration K4 -/

namespace Sys2Proof.Machine.State

section
variable (s : State) (dst src : Buf) (heven : 2 ∣ s.params.n) (hpos : 0 < s.params.n)
include heven hpos

/-- The words `RFFT.F` stores (R118). -/
theorem words_realForwardTransform : (s.realForwardTransform dst src).words (Arr.ofBuf dst) s.params.n =
    realForward s.num s.site s.rom.tw s.rom.brh s.rom.rtw s.params.n (s.words (Arr.ofBuf src) s.params.n) :=
  (s.setWords_stores _ (length_realForward _ _ _ _ _ _ heven hpos)).1

/-- The words `RFFT.I` stores (R119). -/
theorem words_realInverseTransform : (s.realInverseTransform dst src).words (Arr.ofBuf dst) s.params.n =
    realInverse s.num s.site s.rom.tw s.rom.brh s.rom.rtw s.params.n (s.words (Arr.ofBuf src) s.params.n) :=
  (s.setWords_stores _ (length_realInverse _ _ _ _ _ _ heven hpos)).1

end

section
variable {ws : List Word}

/-- `FFT.F Y, X` and `FFT.I Y, X` right after the words were written to `X` (R106, R107). -/
theorem words_complexTransform_reset (d : Dir) (h : ws.length = 8) :
    ((State.reset.setWords .x ws).complexTransform d .y .x).finish.words .y 8 =
      cfft Num.binary32 ⟨0, []⟩ (Rom.build 4).tw (Rom.build 4).brn 4 d ws :=
  (words_complexTransform _ d .y .x).trans (congrArg (cfft _ _ _ _ _ d) (State.reset.setWords_stores .x h).1)

/-- `RFFT.F Y, X` right after the words were written to `X` (R118). -/
theorem words_realForwardTransform_reset (h : ws.length = 4) :
    ((State.reset.setWords .x ws).realForwardTransform .y .x).finish.words .y 4 =
      realForward Num.binary32 ⟨0, []⟩ (Rom.build 4).tw (Rom.build 4).brh (Rom.build 4).rtw 4 ws :=
  (words_realForwardTransform (State.reset.setWords .x ws) .y .x ⟨2, rfl⟩ (Nat.succ_pos 3)).trans
    (congrArg (realForward _ _ _ _ _ 4) (State.reset.setWords_stores .x h).1)

/-- `RFFT.I Y, X` right after the words were written to `X` (R119). -/
theorem words_realInverseTransform_reset (h : ws.length = 4) :
    ((State.reset.setWords .x ws).realInverseTransform .y .x).finish.words .y 4 =
      realInverse Num.binary32 ⟨0, []⟩ (Rom.build 4).tw (Rom.build 4).brh (Rom.build 4).rtw 4 ws :=
  (words_realInverseTransform (State.reset.setWords .x ws) .y .x ⟨2, rfl⟩ (Nat.succ_pos 3)).trans
    (congrArg (realInverse _ _ _ _ _ 4) (State.reset.setWords_stores .x h).1)

end

end Sys2Proof.Machine.State

/-! ### The settled statements -/

namespace Sys2Proof

open Machine

/-- Settles O15: fixed words, one computation of the formulas of R22 to R26 per size. -/
theorem builtTablesAreThoseOfTheSpec : Obligations.BuiltTablesAreThoseOfTheSpec :=
  ⟨by decide +kernel, by decide +kernel⟩

/-- Settles O30: `Y` holds the transform of the words written to `X`, whose value is computed with the tables of T3. -/
theorem workedExamplesOfTheTransforms : Obligations.WorkedExamplesOfTheTransforms := by
  obtain ⟨htables, -⟩ := builtTablesAreThoseOfTheSpec
  unfold Obligations.WorkedExamplesOfTheTransforms
  intro run
  simp only [run, exec, execFftF, execFftI, execRfftF, execRfftI]
  rw [State.words_complexTransform_reset .forward rfl, State.words_complexTransform_reset .inverse rfl,
    State.words_realForwardTransform_reset rfl, State.words_realInverseTransform_reset rfl, htables]
  refine ⟨?_, ?_, ?_, ?_⟩ <;> decide +kernel

end Sys2Proof
